-- ==== Sys2Proof/Word.lean ====
section
/-! DEFINITION. The widths of the machine's values: every register value is an unsigned integer of its
register's width (R10), and there are no signed values anywhere. -/

namespace Sys2Proof

/-- A memory byte, a general register, a timer or an RPL register (R21, R29, R30, R32, R33). -/
abbrev Byte := BitVec 8

/-- An instruction word, the index register, the program counter or a stack entry (R24, R25, R28, R80). -/
abbrev Word := BitVec 16

/-- A four-bit slice of an instruction word (R9). -/
abbrev Nibble := BitVec 4

/-- The index of a general register, as an X or Y field names it (R21, R82). -/
abbrev Reg := BitVec 4

/-- A 12-bit address field NNN (R81). -/
abbrev Addr := BitVec 12

/-- The flag byte of a condition: 1 when it holds, 0 when it does not (R22). -/
def flagByte (b : Bool) : Byte := if b then 1 else 0

end Sys2Proof
end

