-- ==== Sys2Proof/Config.lean ====
section
/-! DEFINITION. What an implementation fixes: the parameters of R8 and of 93_implementation_defined.md Part 3,
and the one free value of the machine, the random byte of CXNN (R42, D27). -/

namespace Sys2Proof

/-- How the destination of a flag-writing instruction reads VF when X or Y is F (R120, D5). -/
inductive VfOrder where
  /-- The destination computation reads the registers as the write of VF left them. -/
  | sequential
  /-- Every operand is read once, before either write. -/
  | snapshot
  deriving DecidableEq, Repr

/-- What `reset` does with the RPL bank (R251, D20). -/
inductive RplOnReset where
  | preserve
  | clear
  deriving DecidableEq, Repr

/-- Whether a scroll-up instruction exists and how it is encoded (D24, U11). -/
inductive ScrollUpEncoding where
  /-- No word scrolls up; 00Bn is an unknown word. -/
  | absent
  /-- 00Bn scrolls up by n rows. -/
  | bn
  deriving DecidableEq, Repr

/-- The implementation parameters (R8, 93 Part 3). They are fixed for a machine: no instruction and no
transaction of the host writes one. -/
structure Params where
  /-- VF_ORDER. -/
  vfOrder : VfOrder
  /-- RPL_ON_RESET. -/
  rplOnReset : RplOnReset
  /-- FONT_SMALL_BASE. -/
  fontSmallBase : Nat
  /-- FONT_BIG_BASE. -/
  fontBigBase : Nat
  /-- FONT_SMALL, 16 glyphs of 5 bytes. -/
  fontSmall : List Byte
  /-- FONT_BIG, 16 glyphs of 10 bytes. -/
  fontBig : List Byte
  /-- SCROLL_H, the columns that 00FB and 00FC move. -/
  scrollH : Nat
  /-- SCROLL_UP_ENCODING. -/
  scrollUp : ScrollUpEncoding
  /-- STRICT_DECODE. -/
  strictDecode : Bool
  deriving DecidableEq, Repr

/-- The byte that the n-th execution of CXNN takes from outside the block: a FREE VALUE. It has no body, so
nothing can be proved of any value of it, and a claim that mentions it holds for every sequence of draws
(R42, R131, D27, U7; assumption log 2). -/
opaque Config.randomByte : Nat → Byte

end Sys2Proof
end

