-- ==== Sys2Proof/Syntax.lean ====
section
/-! DEFINITION. The instructions: one constructor per row of spec/opcode_table.json (R93), in the table's order.
An operand `ign` holds the bits of the word that decode does not examine (R88, the table's field "ignored"):
they choose nothing, and a fault record shows them, since it holds the fetched word whole (R221;
assumption log 8). -/

namespace Sys2Proof

/-- One instruction. -/
inductive Instr where
  /-- CLS, 00E0: clear screen (R141). -/
  | cls (ign : Nibble)
  /-- RET, 00EE: return from subroutine (R102). -/
  | ret (ign : Nibble)
  /-- SCD n, 00Cn: scroll down by n rows (R142). -/
  | scd (ign n : Nibble)
  /-- SCR, 00FB: scroll right (R143). -/
  | scr (ign : Nibble)
  /-- SCL, 00FC: scroll left (R144). -/
  | scl (ign : Nibble)
  /-- EXIT, 00FD: request exit (R200). -/
  | exit (ign : Nibble)
  /-- LOW, 00FE: disable extended mode (R145). -/
  | low (ign : Nibble)
  /-- HIGH, 00FF: enable extended mode (R146). -/
  | high (ign : Nibble)
  /-- JP NNN, 1NNN (R100). -/
  | jp (nnn : Addr)
  /-- CALL NNN, 2NNN (R101). -/
  | call (nnn : Addr)
  /-- SE VX, NN, 3XNN (R103). -/
  | seImm (x : Reg) (nn : Byte)
  /-- SNE VX, NN, 4XNN (R104). -/
  | sneImm (x : Reg) (nn : Byte)
  /-- SE VX, VY, 5XY? (R105). -/
  | seReg (x y : Reg) (ign : Nibble)
  /-- LD VX, NN, 6XNN (R129). -/
  | ldImm (x : Reg) (nn : Byte)
  /-- ADD VX, NN, 7XNN (R130). -/
  | addImm (x : Reg) (nn : Byte)
  /-- LD VX, VY, 8XY0 (R121). -/
  | ldReg (x y : Reg)
  /-- OR VX, VY, 8XY1 (R122). -/
  | orReg (x y : Reg)
  /-- AND VX, VY, 8XY2 (R123). -/
  | andReg (x y : Reg)
  /-- XOR VX, VY, 8XY3 (R124). -/
  | xorReg (x y : Reg)
  /-- ADD VX, VY, 8XY4 (R125). -/
  | addReg (x y : Reg)
  /-- SUB VX, VY, 8XY5 (R126). -/
  | subReg (x y : Reg)
  /-- SHR VX, 8XY6; Y is ignored (R127). -/
  | shr (x y : Reg)
  /-- SUBN VX, VY, 8XY7 (R128). -/
  | subn (x y : Reg)
  /-- SHL VX, 8XYE; Y is ignored (R132). -/
  | shl (x y : Reg)
  /-- SNE VX, VY, 9XY? (R106). -/
  | sneReg (x y : Reg) (ign : Nibble)
  /-- LD I, NNN, ANNN (R180). -/
  | ldI (nnn : Addr)
  /-- JP V0, NNN, BNNN (R107). -/
  | jpV0 (nnn : Addr)
  /-- RND VX, NN, CXNN (R131). -/
  | rnd (x : Reg) (nn : Byte)
  /-- DRW VX, VY, N, DXYN (R140). -/
  | drw (x y : Reg) (n : Nibble)
  /-- SKP VX, EX9? (R163). -/
  | skp (x : Reg) (ign : Nibble)
  /-- SKNP VX, EXA? (R164). -/
  | sknp (x : Reg) (ign : Nibble)
  /-- LD VX, DT, FX07 (R160). -/
  | ldVxDt (x : Reg)
  /-- LD VX, K, FX0A (R165). -/
  | ldVxK (x : Reg)
  /-- LD DT, VX, FX15 (R161). -/
  | ldDtVx (x : Reg)
  /-- LD ST, VX, FX18 (R162). -/
  | ldStVx (x : Reg)
  /-- ADD I, VX, FX1E (R181). -/
  | addIVx (x : Reg)
  /-- LD F, VX, FX29 (R182). -/
  | ldFVx (x : Reg)
  /-- LD HF, VX, FX30 (R183). -/
  | ldHfVx (x : Reg)
  /-- LD B, VX, FX33 (R184). -/
  | ldBVx (x : Reg)
  /-- LD [I], VX, FX55 (R185). -/
  | ldMemVx (x : Reg)
  /-- LD VX, [I], FX65 (R186). -/
  | ldVxMem (x : Reg)
  /-- LD R, VX, FX75 (R187). -/
  | ldRVx (x : Reg)
  /-- LD VX, R, FX85 (R188). -/
  | ldVxR (x : Reg)
  /-- A refused word Fx00 (R90, R189). -/
  | unmodelledFx00 (x : Reg)
  /-- A refused word FxFn (R90, R189). -/
  | unmodelledFxFn (x : Reg) (n : Nibble)
  /-- An unknown word: every word that no other row matches (R89, R201). -/
  | unknown (op : Word)
  deriving DecidableEq, Repr

end Sys2Proof
end

