-- ==== Sys2Proof/WellFormed.lean ====
section
/-! DEFINITION. Which instructions are well formed. Every field has the width of its place in the word, so any
value of it is allowed (R82); the one check is that the word an `unknown` carries is one of R89's. -/

namespace Sys2Proof

/-- The low bytes that R87 gives an instruction in group F. -/
def groupFLowBytes : List Nat :=
  [0x07, 0x0A, 0x15, 0x18, 0x1E, 0x29, 0x30, 0x33, 0x55, 0x65, 0x75, 0x85]

/-- The unknown words, listed as R89 lists them. -/
def unknownWord (op : Word) : Bool :=
  let h := op.toNat / 4096
  let lo := op.toNat % 256
  let y := lo / 16
  let n := op.toNat % 16
  (h == 0x0 && lo != 0xE0 && lo != 0xEE && y != 0xC && decide (lo < 0xFB)) ||
  (h == 0x8 && ((decide (0x8 ≤ n) && decide (n ≤ 0xD)) || n == 0xF)) ||
  (h == 0xE && y != 0x9 && y != 0xA) ||
  (h == 0xF && !(groupFLowBytes.contains lo) && lo != 0x00 && y != 0xF)

/-- The refused words Fx00 and FxFn (R90). -/
def refusedWord (op : Word) : Bool :=
  op.toNat / 4096 == 0xF && (op.toNat % 256 == 0x00 || op.toNat / 16 % 16 == 0xF)

/-- Well-formedness of an instruction: an unknown carries an unknown word (R89). -/
def Instr.wf : Instr → Bool
  | .unknown op => unknownWord op
  | .cls _ | .ret _ | .scd _ _ | .scr _ | .scl _ | .exit _ | .low _ | .high _ => true
  | .jp _ | .call _ | .seImm _ _ | .sneImm _ _ | .seReg _ _ _ | .ldImm _ _ | .addImm _ _ => true
  | .ldReg _ _ | .orReg _ _ | .andReg _ _ | .xorReg _ _ | .addReg _ _ | .subReg _ _ => true
  | .shr _ _ | .subn _ _ | .shl _ _ | .sneReg _ _ _ | .ldI _ | .jpV0 _ | .rnd _ _ => true
  | .drw _ _ _ | .skp _ _ | .sknp _ _ | .ldVxDt _ | .ldVxK _ | .ldDtVx _ | .ldStVx _ => true
  | .addIVx _ | .ldFVx _ | .ldHfVx _ | .ldBVx _ | .ldMemVx _ | .ldVxMem _ | .ldRVx _ => true
  | .ldVxR _ | .unmodelledFx00 _ | .unmodelledFxFn _ _ => true

end Sys2Proof
end

