-- ==== Sys2Proof/Decode.lean ====
section
/-! DEFINITION. The fields of a word (R9, R81), the decoder (R83–R92), total on every word, and after it the
encoder (R93, R95). -/

namespace Sys2Proof

/-- Nibble 3, op[15:12], the first-level route (R83). -/
def nibH (op : Word) : Nibble := op.extractLsb' 12 4

/-- Nibble 2, op[11:8], field X (R81). -/
def nibX (op : Word) : Nibble := op.extractLsb' 8 4

/-- Nibble 1, op[7:4], field Y (R81). -/
def nibY (op : Word) : Nibble := op.extractLsb' 4 4

/-- Nibble 0, op[3:0], field N (R81). -/
def nibN (op : Word) : Nibble := op.extractLsb' 0 4

/-- The low byte, op[7:0], field NN (R81). -/
def lowByte (op : Word) : Byte := op.extractLsb' 0 8

/-- The low twelve bits, op[11:0], field NNN (R81). -/
def lowAddr (op : Word) : Addr := op.extractLsb' 0 12

/-- The word with the byte `hi` at the lower address (R61, R64). -/
def wordOfBytes (hi lo : Byte) : Word := hi ++ lo

/-- The byte of a word that lies at the lower address (R64). -/
def highByteOf (op : Word) : Byte := op.extractLsb' 8 8

/-- Group 0x0: the low byte decides and op[11:8] is not examined (R84, C1). -/
def decodeGroup0 (op : Word) : Instr :=
  if lowByte op = 0xE0 then .cls (nibX op)
  else if lowByte op = 0xEE then .ret (nibX op)
  else if nibY op = 0xC then .scd (nibX op) (nibN op)
  else if lowByte op = 0xFB then .scr (nibX op)
  else if lowByte op = 0xFC then .scl (nibX op)
  else if lowByte op = 0xFD then .exit (nibX op)
  else if lowByte op = 0xFE then .low (nibX op)
  else if lowByte op = 0xFF then .high (nibX op)
  else .unknown op

/-- Group 0x8: the low nibble decides (R85, D21). -/
def decodeGroup8 (op : Word) : Instr :=
  if nibN op = 0x0 then .ldReg (nibX op) (nibY op)
  else if nibN op = 0x1 then .orReg (nibX op) (nibY op)
  else if nibN op = 0x2 then .andReg (nibX op) (nibY op)
  else if nibN op = 0x3 then .xorReg (nibX op) (nibY op)
  else if nibN op = 0x4 then .addReg (nibX op) (nibY op)
  else if nibN op = 0x5 then .subReg (nibX op) (nibY op)
  else if nibN op = 0x6 then .shr (nibX op) (nibY op)
  else if nibN op = 0x7 then .subn (nibX op) (nibY op)
  else if nibN op = 0xE then .shl (nibX op) (nibY op)
  else .unknown op

/-- Group 0xE: the middle nibble decides and op[3:0] is not examined (R86, C9). -/
def decodeGroupE (op : Word) : Instr :=
  if nibY op = 0x9 then .skp (nibX op) (nibN op)
  else if nibY op = 0xA then .sknp (nibX op) (nibN op)
  else .unknown op

/-- Group 0xF: the low byte decides (R87, R90). -/
def decodeGroupF (op : Word) : Instr :=
  if lowByte op = 0x07 then .ldVxDt (nibX op)
  else if lowByte op = 0x0A then .ldVxK (nibX op)
  else if lowByte op = 0x15 then .ldDtVx (nibX op)
  else if lowByte op = 0x18 then .ldStVx (nibX op)
  else if lowByte op = 0x1E then .addIVx (nibX op)
  else if lowByte op = 0x29 then .ldFVx (nibX op)
  else if lowByte op = 0x30 then .ldHfVx (nibX op)
  else if lowByte op = 0x33 then .ldBVx (nibX op)
  else if lowByte op = 0x55 then .ldMemVx (nibX op)
  else if lowByte op = 0x65 then .ldVxMem (nibX op)
  else if lowByte op = 0x75 then .ldRVx (nibX op)
  else if lowByte op = 0x85 then .ldVxR (nibX op)
  else if lowByte op = 0x00 then .unmodelledFx00 (nibX op)
  else if nibY op = 0xF then .unmodelledFxFn (nibX op) (nibN op)
  else .unknown op

/-- The complete decode function, total on every word, with STRICT_DECODE off (R92). -/
def decode (op : Word) : Instr :=
  if nibH op = 0x0 then decodeGroup0 op
  else if nibH op = 0x1 then .jp (lowAddr op)
  else if nibH op = 0x2 then .call (lowAddr op)
  else if nibH op = 0x3 then .seImm (nibX op) (lowByte op)
  else if nibH op = 0x4 then .sneImm (nibX op) (lowByte op)
  else if nibH op = 0x5 then .seReg (nibX op) (nibY op) (nibN op)
  else if nibH op = 0x6 then .ldImm (nibX op) (lowByte op)
  else if nibH op = 0x7 then .addImm (nibX op) (lowByte op)
  else if nibH op = 0x8 then decodeGroup8 op
  else if nibH op = 0x9 then .sneReg (nibX op) (nibY op) (nibN op)
  else if nibH op = 0xA then .ldI (lowAddr op)
  else if nibH op = 0xB then .jpV0 (lowAddr op)
  else if nibH op = 0xC then .rnd (nibX op) (lowByte op)
  else if nibH op = 0xD then .drw (nibX op) (nibY op) (nibN op)
  else if nibH op = 0xE then decodeGroupE op
  else decodeGroupF op

/-- Whether an instruction's unexamined bits are those of its canonical spelling: 0 in op[11:8] of group 0,
5XY0, 9XY0, EX9E, EXA1 (R95, D33). -/
def Instr.canonical : Instr → Bool
  | .cls g | .ret g | .scd g _ | .scr g | .scl g | .exit g | .low g | .high g => g == 0x0
  | .seReg _ _ g | .sneReg _ _ g => g == 0x0
  | .skp _ g => g == 0xE
  | .sknp _ g => g == 0x1
  | .jp _ | .call _ | .seImm _ _ | .sneImm _ _ | .ldImm _ _ | .addImm _ _ => true
  | .ldReg _ _ | .orReg _ _ | .andReg _ _ | .xorReg _ _ | .addReg _ _ | .subReg _ _ => true
  | .shr _ _ | .subn _ _ | .shl _ _ | .ldI _ | .jpV0 _ | .rnd _ _ | .drw _ _ _ => true
  | .ldVxDt _ | .ldVxK _ | .ldDtVx _ | .ldStVx _ | .addIVx _ | .ldFVx _ | .ldHfVx _ => true
  | .ldBVx _ | .ldMemVx _ | .ldVxMem _ | .ldRVx _ | .ldVxR _ => true
  | .unmodelledFx00 _ | .unmodelledFxFn _ _ | .unknown _ => true

/-- Decode under the parameters: with STRICT_DECODE on, a non-canonical spelling is an unknown word
(93_implementation_defined.md Part 1, U12). -/
def decodeWith (p : Params) (op : Word) : Instr :=
  if p.strictDecode && !(decode op).canonical then .unknown op else decode op

/-- Why bytes do not decode. -/
inductive DecodeError where
  /-- Fewer than the two bytes of a word are left (R80). Safe: nothing is decoded. -/
  | truncated
  deriving DecidableEq, Repr

/-- Decode the word at the front of a list of bytes, the byte at the lower address first, and give back the
bytes after it (R61, R80). -/
def decodeBytes : List Byte → Except DecodeError (Instr × List Byte)
  | hi :: lo :: rest => .ok (decode (wordOfBytes hi lo), rest)
  | _ => .error .truncated

/-- The two bytes of a word as memory holds them (R64). -/
def wordBytes (op : Word) : List Byte := [highByteOf op, lowByte op]

/-- The word whose bits an opcode-table number gives: one word, bit 0 its least significant bit, and every
bit from `nbits` up 0. -/
def tableWord (nbits w : Nat) : Word := BitVec.ofNat 16 (w % 2 ^ nbits)

/-- The instruction the decoder reads from a word numbered as spec/opcode_table.json numbers its bits. -/
def decodeTableWord (nbits w : Nat) : Option Instr :=
  match decodeBytes (wordBytes (tableWord nbits w)) with
  | .ok (i, _) => some i
  | .error _ => none

/-- A word from its nibbles, the high nibble first (R9). -/
def wordHXYN (h x y n : Nibble) : Word := h ++ x ++ y ++ n

/-- A word from its high nibble, X and NN (format `xnn`, R96). -/
def wordHXNN (h x : Nibble) (nn : Byte) : Word := h ++ x ++ nn

/-- A word from its high nibble and NNN (format `nnn`, R96). -/
def wordHNNN (h : Nibble) (nnn : Addr) : Word := h ++ nnn

/-- The word of an instruction, written from the patterns of R93 and the placing of R95. -/
def encode : Instr → Word
  | .cls g => wordHXNN 0x0 g 0xE0
  | .ret g => wordHXNN 0x0 g 0xEE
  | .scd g n => wordHXYN 0x0 g 0xC n
  | .scr g => wordHXNN 0x0 g 0xFB
  | .scl g => wordHXNN 0x0 g 0xFC
  | .exit g => wordHXNN 0x0 g 0xFD
  | .low g => wordHXNN 0x0 g 0xFE
  | .high g => wordHXNN 0x0 g 0xFF
  | .jp nnn => wordHNNN 0x1 nnn
  | .call nnn => wordHNNN 0x2 nnn
  | .seImm x nn => wordHXNN 0x3 x nn
  | .sneImm x nn => wordHXNN 0x4 x nn
  | .seReg x y g => wordHXYN 0x5 x y g
  | .ldImm x nn => wordHXNN 0x6 x nn
  | .addImm x nn => wordHXNN 0x7 x nn
  | .ldReg x y => wordHXYN 0x8 x y 0x0
  | .orReg x y => wordHXYN 0x8 x y 0x1
  | .andReg x y => wordHXYN 0x8 x y 0x2
  | .xorReg x y => wordHXYN 0x8 x y 0x3
  | .addReg x y => wordHXYN 0x8 x y 0x4
  | .subReg x y => wordHXYN 0x8 x y 0x5
  | .shr x y => wordHXYN 0x8 x y 0x6
  | .subn x y => wordHXYN 0x8 x y 0x7
  | .shl x y => wordHXYN 0x8 x y 0xE
  | .sneReg x y g => wordHXYN 0x9 x y g
  | .ldI nnn => wordHNNN 0xA nnn
  | .jpV0 nnn => wordHNNN 0xB nnn
  | .rnd x nn => wordHXNN 0xC x nn
  | .drw x y n => wordHXYN 0xD x y n
  | .skp x g => wordHXYN 0xE x 0x9 g
  | .sknp x g => wordHXYN 0xE x 0xA g
  | .ldVxDt x => wordHXNN 0xF x 0x07
  | .ldVxK x => wordHXNN 0xF x 0x0A
  | .ldDtVx x => wordHXNN 0xF x 0x15
  | .ldStVx x => wordHXNN 0xF x 0x18
  | .addIVx x => wordHXNN 0xF x 0x1E
  | .ldFVx x => wordHXNN 0xF x 0x29
  | .ldHfVx x => wordHXNN 0xF x 0x30
  | .ldBVx x => wordHXNN 0xF x 0x33
  | .ldMemVx x => wordHXNN 0xF x 0x55
  | .ldVxMem x => wordHXNN 0xF x 0x65
  | .ldRVx x => wordHXNN 0xF x 0x75
  | .ldVxR x => wordHXNN 0xF x 0x85
  | .unmodelledFx00 x => wordHXNN 0xF x 0x00
  | .unmodelledFxFn x n => wordHXYN 0xF x 0xF n
  | .unknown op => op

end Sys2Proof
end

