-- ==== Sys2Proof/Machine/Params.lean ====
section
/-! DEFINITION. The default parameters of R8, with the default font tables of R40. The glyph bytes are general
knowledge that the spec adopts (G6, D9; assumption log 5). -/

namespace Sys2Proof.Machine

/-- FONT_SMALL: 16 glyphs of 5 bytes, digit 0 first (R40). -/
def fontSmallTable : List Byte :=
  [0xF0, 0x90, 0x90, 0x90, 0xF0] ++
  [0x20, 0x60, 0x20, 0x20, 0x70] ++
  [0xF0, 0x10, 0xF0, 0x80, 0xF0] ++
  [0xF0, 0x10, 0xF0, 0x10, 0xF0] ++
  [0x90, 0x90, 0xF0, 0x10, 0x10] ++
  [0xF0, 0x80, 0xF0, 0x10, 0xF0] ++
  [0xF0, 0x80, 0xF0, 0x90, 0xF0] ++
  [0xF0, 0x10, 0x20, 0x40, 0x40] ++
  [0xF0, 0x90, 0xF0, 0x90, 0xF0] ++
  [0xF0, 0x90, 0xF0, 0x10, 0xF0] ++
  [0xF0, 0x90, 0xF0, 0x90, 0x90] ++
  [0xE0, 0x90, 0xE0, 0x90, 0xE0] ++
  [0xF0, 0x80, 0x80, 0x80, 0xF0] ++
  [0xE0, 0x90, 0x90, 0x90, 0xE0] ++
  [0xF0, 0x80, 0xF0, 0x80, 0xF0] ++
  [0xF0, 0x80, 0xF0, 0x80, 0x80]

/-- FONT_BIG: 16 glyphs of 10 bytes, digit 0 first (R40). -/
def fontBigTable : List Byte :=
  [0xFF, 0xFF, 0xC3, 0xC3, 0xC3, 0xC3, 0xC3, 0xC3, 0xFF, 0xFF] ++
  [0x18, 0x78, 0x78, 0x18, 0x18, 0x18, 0x18, 0x18, 0xFF, 0xFF] ++
  [0xFF, 0xFF, 0x03, 0x03, 0xFF, 0xFF, 0xC0, 0xC0, 0xFF, 0xFF] ++
  [0xFF, 0xFF, 0x03, 0x03, 0xFF, 0xFF, 0x03, 0x03, 0xFF, 0xFF] ++
  [0xC3, 0xC3, 0xC3, 0xC3, 0xFF, 0xFF, 0x03, 0x03, 0x03, 0x03] ++
  [0xFF, 0xFF, 0xC0, 0xC0, 0xFF, 0xFF, 0x03, 0x03, 0xFF, 0xFF] ++
  [0xFF, 0xFF, 0xC0, 0xC0, 0xFF, 0xFF, 0xC3, 0xC3, 0xFF, 0xFF] ++
  [0xFF, 0xFF, 0x03, 0x03, 0x06, 0x0C, 0x18, 0x18, 0x18, 0x18] ++
  [0xFF, 0xFF, 0xC3, 0xC3, 0xFF, 0xFF, 0xC3, 0xC3, 0xFF, 0xFF] ++
  [0xFF, 0xFF, 0xC3, 0xC3, 0xFF, 0xFF, 0x03, 0x03, 0xFF, 0xFF] ++
  [0x7E, 0xFF, 0xC3, 0xC3, 0xC3, 0xFF, 0xFF, 0xC3, 0xC3, 0xC3] ++
  [0xFC, 0xFC, 0xC3, 0xC3, 0xFC, 0xFC, 0xC3, 0xC3, 0xFC, 0xFC] ++
  [0x3C, 0xFF, 0xC3, 0xC0, 0xC0, 0xC0, 0xC0, 0xC3, 0xFF, 0x3C] ++
  [0xFC, 0xFE, 0xC3, 0xC3, 0xC3, 0xC3, 0xC3, 0xC3, 0xFE, 0xFC] ++
  [0xFF, 0xFF, 0xC0, 0xC0, 0xFF, 0xFF, 0xC0, 0xC0, 0xFF, 0xFF] ++
  [0xFF, 0xFF, 0xC0, 0xC0, 0xFF, 0xFF, 0xC0, 0xC0, 0xC0, 0xC0]

/-- The values this hardware takes for its parameters (R8, 93 Part 3). -/
def defaultParams : Params where
  vfOrder := .sequential
  rplOnReset := .preserve
  fontSmallBase := 0x000
  fontBigBase := 0x050
  fontSmall := fontSmallTable
  fontBig := fontBigTable
  scrollH := 4
  scrollUp := .absent
  strictDecode := false

/-- The ranges 93 Part 3 gives the font parameters: both tables whole, inside 0x000–0x1FF and apart. -/
abbrev paramsWf (p : Params) : Prop :=
  p.fontSmall.length = 80 ∧ p.fontBig.length = 160 ∧
  p.fontSmallBase + 80 ≤ 0x200 ∧ p.fontBigBase + 160 ≤ 0x200 ∧
  (p.fontSmallBase + 80 ≤ p.fontBigBase ∨ p.fontBigBase + 160 ≤ p.fontSmallBase)

/-- The byte of address `a` after `initialize`: FONT_SMALL and FONT_BIG at their bases, every other byte 0
(R55, R250). The big font is written second. -/
def initialByte (p : Params) (a : Nat) : Byte :=
  if p.fontBigBase ≤ a ∧ a < p.fontBigBase + 160 then p.fontBig.getD (a - p.fontBigBase) 0
  else if p.fontSmallBase ≤ a ∧ a < p.fontSmallBase + 80 then
    p.fontSmall.getD (a - p.fontSmallBase) 0
  else 0

end Sys2Proof.Machine
end

