-- ==== Sys2Proof/Machine/State.lean ====
section
/-! DEFINITION. The machine's state as plain data (R20), the reasons a step can stop, and the state after
reset (R55). -/

namespace Sys2Proof.Machine

/-- The kinds of StateCorruption, the one exception (R221). Taking one is a next state with the latch set
(R223), not a stop of the model. -/
inductive FaultKind where
  /-- Code 1: CALL with sp = 16. -/
  | stackOverflow
  /-- Code 2: RET with sp = 0. -/
  | stackUnderflow
  /-- Code 3: a fetch with pc > 0xFFE. -/
  | fetchOutOfRange
  /-- Code 4: EX9? or EXA? with VX > 15. -/
  | keyIndexOutOfRange
  deriving DecidableEq, Repr

/-- What the fault latch records of a StateCorruption (R39, R221). Its code is a function of its kind. -/
structure FaultRecord where
  /-- The kind; R221's code is `faultCode` of it. -/
  kind : FaultKind
  /-- The pc of the faulting instruction, or the out-of-range pc. -/
  pc : Word
  /-- The fetched word; absent for FetchOutOfRange. -/
  op : Option Word
  /-- The value V[X]; only KeyIndexOutOfRange records one. -/
  value : Option Byte
  deriving DecidableEq, Repr

/-- The 4096-byte memory (R33): the listed addresses, strictly rising, each with a byte that differs from what
an unlisted address reads as (assumption log 5). -/
abbrev Memory := List Host.Cell

/-- The framebuffer (R34): the indexes of the cells that hold 1, strictly rising; every other cell holds 0
(assumption log 6). -/
abbrev Framebuffer := List Nat

/-- The state: every piece R20 names, and three fields of the model's own at the end. -/
structure State where
  /-- V0–VF; VF, register 15, is also the only flag (R21, R22). -/
  regs : Vector Byte 16
  /-- The index register I, never masked (R24). -/
  i : Word
  /-- The program counter: while an instruction executes, the address of its first byte (R25). -/
  pc : Word
  /-- The 16 return addresses (R28). -/
  stack : Vector Word 16
  /-- The stack pointer: how many entries are in use, 0 to 16 (R28, C4). -/
  sp : Fin 17
  /-- The delay timer DT (R29). -/
  dt : Byte
  /-- The sound timer ST (R30). -/
  st : Byte
  /-- The key latch, one flag per hexadecimal key (R31). -/
  keys : Vector Bool 16
  /-- The RPL bank (R32). -/
  rpl : Vector Byte 8
  /-- Memory (R33). -/
  mem : Memory
  /-- The framebuffer (R34). -/
  fb : Framebuffer
  /-- extended-mode (R35). -/
  extended : Bool
  /-- exit-requested (R36). -/
  exitRequested : Bool
  /-- awaiting-key (R37). -/
  awaitingKey : Bool
  /-- debug-enabled (R38). -/
  debug : Bool
  /-- draw-occurred, the last step's (R46). -/
  draw : Bool
  /-- beep-occurred, the last step's (R46). -/
  beep : Bool
  /-- The fault latch (R39). -/
  fault : Option FaultRecord
  /-- The remembered ROM (R41). -/
  rom : Option (List Byte)
  /-- The model's own: the word the last step reported as unknown, a field of the step result (R47, D35;
  assumption log 3). -/
  unknown : Option Word
  /-- The model's own: how many CXNN have executed, which selects the next free random byte (R42, R131, D27;
  assumption log 2). -/
  draws : Nat
  /-- The model's own: the implementation parameters, which nothing writes (R8; assumption log 1). -/
  params : Params
  deriving DecidableEq, Repr

/-- The reasons a step stops with a fault: none. Every StateCorruption is a next state with the fault latch
set (R223), unknown words are no-ops (R201) and data addresses wrap (R63), so nothing raises one ("The block
never stops by itself", R208; assumption log 4). Safe. -/
inductive Fault where
  deriving DecidableEq, Repr

/-- The reasons a step is refused. -/
inductive Refusal where
  /-- Raised by an arm of `exec` whose instruction has no meaning yet; no arm is left so. Safe: nothing can be
  proved of a step that does not happen. -/
  | notModelled (mnemonic : String)
  /-- Raised by the words Fx00 and FxFn, the extended "set absolute index" form whose encoding, operand and
  length the spec does not know (R90, R189, R202). Safe: the spec requires the refusal, and nothing can be
  proved of the form's effect. -/
  | setIndexFormUnspecified (op : Word)
  deriving DecidableEq, Repr

/-- The machine after reset: the value R55 gives each piece of state. Memory lists nothing, since an unlisted
address reads as its reset contents (R33, R40). -/
def State.reset : State where
  regs := Vector.replicate 16 0
  i := 0
  pc := 0x200
  stack := Vector.replicate 16 0
  sp := 0
  dt := 0
  st := 0
  keys := Vector.replicate 16 false
  rpl := Vector.replicate 8 0
  mem := []
  fb := []
  extended := false
  exitRequested := false
  awaitingKey := false
  debug := false
  draw := false
  beep := false
  fault := none
  rom := none
  unknown := none
  draws := 0
  params := defaultParams

end Sys2Proof.Machine
end

