-- ==== Sys2Proof/Machine/Ops.lean ====
section
/-! DEFINITION. The named operations over memory, registers, stack, keys, framebuffer and status bits, taking
the exception (R223), and the parts of the cycle driver (R205). Meanings are written over these alone. -/

namespace Sys2Proof.Machine

/-! ## Memory -/

/-- MEM_SIZE (R8). -/
def memSize : Nat := 4096

/-- What an address that memory does not list reads as: its contents after `initialize` with the default
parameters (R33, R55; assumption log 5). -/
def Memory.unlisted (a : Nat) : Byte := initialByte defaultParams a

/-- The byte at an address. -/
def Memory.read (m : Memory) (a : Nat) : Byte :=
  match m.find? (fun c => c.1 == a) with
  | some c => c.2
  | none => Memory.unlisted a

/-- Put a cell in front of the first cell of a higher address. -/
def Memory.insertCell (c : Host.Cell) : Memory → Memory
  | [] => [c]
  | d :: m => if c.1 < d.1 then c :: d :: m else d :: Memory.insertCell c m

/-- Write the byte at an address, keeping the canonical form. -/
def Memory.write (m : Memory) (a : Nat) (v : Byte) : Memory :=
  let rest := m.filter (fun c => c.1 != a)
  if v = Memory.unlisted a then rest else Memory.insertCell (a, v) rest

/-- The canonical form: addresses strictly rising and below MEM_SIZE, and no entry equal to what an unlisted
address reads as. -/
abbrev Memory.wf (m : Memory) : Prop :=
  (m.map Prod.fst).Pairwise (· < ·) ∧ ∀ c ∈ m, c.1 < memSize ∧ c.2 ≠ Memory.unlisted c.1

/-- MemRead(a, 1): the byte at `a & 0xFFF` (R11, R62, R63). -/
def State.memRead (s : State) (a : Nat) : Byte := s.mem.read (a % memSize)

/-- MemWrite(a, 1, v): write the byte at `a & 0xFFF` (R11, R62, R63). -/
def State.memWrite (s : State) (a : Nat) (v : Byte) : State :=
  { s with mem := s.mem.write (a % memSize) v }

/-! ## Registers -/

/-- V[x] (R11, R21). -/
def State.v (s : State) (x : Reg) : Byte := s.regs[x.toNat]'x.isLt

/-- V[x] <- w (R11, R21). -/
def State.setV (s : State) (x : Reg) (w : Byte) : State := { s with regs := s.regs.set x.toNat w x.isLt }

/-- The number of VF (R22). -/
def vf : Reg := 0xF

/-- I <- w (R24). -/
def State.setI (s : State) (w : Word) : State := { s with i := w }

/-- pc <- w (R25). -/
def State.setPc (s : State) (w : Word) : State := { s with pc := w }

/-- pc <- pc + 2 mod 65536 (R11, R26). -/
def State.advance (s : State) : State := s.setPc (s.pc + 2)

/-- The end of a conditional skip: pc + 4 if the condition holds, else pc + 2, mod 65536 (R108). -/
def State.skipIf (s : State) (cond : Bool) : State := s.setPc (if cond then s.pc + 4 else s.pc + 2)

/-- DT <- w (R29). -/
def State.setDt (s : State) (w : Byte) : State := { s with dt := w }

/-- ST <- w (R30). -/
def State.setSt (s : State) (w : Byte) : State := { s with st := w }

/-- rpl[k] (R32). -/
def State.rplAt (s : State) (k : BitVec 3) : Byte := s.rpl[k.toNat]'k.isLt

/-- rpl[k] <- w (R32). -/
def State.setRpl (s : State) (k : BitVec 3) (w : Byte) : State :=
  { s with rpl := s.rpl.set k.toNat w k.isLt }

/-- Count one random draw, so that the next CXNN takes a fresh byte (R42; assumption log 2). -/
def State.countDraw (s : State) : State := { s with draws := s.draws + 1 }

/-! ## Call stack -/

/-- Write stack[sp] and increment sp; none when sp = 16 (R28). -/
def State.push (s : State) (w : Word) : Option State :=
  if h : s.sp.val < 16 then
    some { s with stack := s.stack.set s.sp.val w h, sp := ⟨s.sp.val + 1, by omega⟩ }
  else none

/-- Decrement sp and read stack[sp]; none when sp = 0. The entry keeps its value (R28). -/
def State.pop (s : State) : Option (Word × State) :=
  if h : 0 < s.sp.val then
    some (s.stack[s.sp.val - 1]'(by omega), { s with sp := ⟨s.sp.val - 1, by omega⟩ })
  else none

/-! ## Keys -/

/-- keys[k] (R31). -/
def State.key (s : State) (k : Nibble) : Bool := s.keys[k.toNat]'k.isLt

/-- keys[k] <- false (R31, R163). -/
def State.releaseKey (s : State) (k : Nibble) : State :=
  { s with keys := s.keys.set k.toNat false k.isLt }

/-- Clear every key flag (R165, R233). -/
def State.clearKeys (s : State) : State := { s with keys := Vector.replicate 16 false }

/-- The least k with keys[k] true, if any (R165). -/
def State.firstKey (s : State) : Option Nat := s.keys.toList.findIdx? id

/-! ## Framebuffer -/

/-- W, the active width (R43, R147). -/
def State.width (s : State) : Nat := if s.extended then 128 else 64

/-- H, the active height (R43, R147). -/
def State.height (s : State) : Nat := if s.extended then 64 else 32

/-- FB_CELLS (R8). -/
def fbCells : Nat := 8192

/-- Whether cell k holds 1 (R34). -/
def Framebuffer.cell (f : Framebuffer) (k : Nat) : Bool := decide (k ∈ f)

/-- Put a cell index in front of the first higher one. -/
def Framebuffer.insertCell (k : Nat) : Framebuffer → Framebuffer
  | [] => [k]
  | j :: f => if k < j then k :: j :: f else j :: Framebuffer.insertCell k f

/-- fb[k] <- b, keeping the indexes rising (R34). -/
def Framebuffer.put (f : Framebuffer) (k : Nat) (b : Bool) : Framebuffer :=
  let rest := f.filter (fun j => j != k)
  if b then Framebuffer.insertCell k rest else rest

/-- The canonical form: indexes strictly rising and below FB_CELLS. -/
abbrev Framebuffer.wf (f : Framebuffer) : Prop := f.Pairwise (· < ·) ∧ ∀ k ∈ f, k < fbCells

/-- fb <- f. -/
def State.setFb (s : State) (f : Framebuffer) : State := { s with fb := f }

/-- Pixel (x, y) of the active region is cell y*W + x (R43). -/
def State.pixel (s : State) (x y : Nat) : Bool := s.fb.cell (y * s.width + x)

/-- Move the pixels of a W×H active region: the pixel at (x, y) goes to `move x y`, or is lost where that is
none; cells outside the region stay (R142–R144, R147). -/
def Framebuffer.moveRegion (f : Framebuffer) (w h : Nat) (move : Nat → Nat → Option (Nat × Nat)) :
    Framebuffer :=
  f.filterMap fun k =>
    if k < w * h then (move (k % w) (k / w)).map (fun p => p.2 * w + p.1) else some k

/-- Scroll down by n rows, the vacated band 0 (R142). -/
def Framebuffer.scrollDown (f : Framebuffer) (w h n : Nat) : Framebuffer :=
  f.moveRegion w h fun x y => if y + n < h then some (x, y + n) else none

/-- Scroll up by n rows: R142 with the direction reversed (93 Part 1). -/
def Framebuffer.scrollUp (f : Framebuffer) (w h n : Nat) : Framebuffer :=
  f.moveRegion w h fun x y => if n ≤ y then some (x, y - n) else none

/-- Scroll right by n columns within each row (R143). -/
def Framebuffer.scrollRight (f : Framebuffer) (w h n : Nat) : Framebuffer :=
  f.moveRegion w h fun x y => if x + n < w then some (x + n, y) else none

/-- Scroll left by n columns within each row (R144). -/
def Framebuffer.scrollLeft (f : Framebuffer) (w h n : Nat) : Framebuffer :=
  f.moveRegion w h fun x y => if n ≤ x then some (x - n, y) else none

/-- Toggle one cell, noting in the second component whether a cell that held 1 was toggled off (R140). -/
def Framebuffer.toggle (p : Framebuffer × Bool) (k : Nat) : Framebuffer × Bool :=
  (p.1.put k (!p.1.cell k), p.2 || p.1.cell k)

/-- Toggle cells in order, from no collision (R140). -/
def Framebuffer.toggleAll (f : Framebuffer) (ks : List Nat) : Framebuffer × Bool :=
  ks.foldl Framebuffer.toggle (f, false)

/-! ## Status bits and reports -/

/-- draw <- 1 (R46). -/
def State.markDraw (s : State) : State := { s with draw := true }

/-- extended <- b (R35). -/
def State.setExtended (s : State) (b : Bool) : State := { s with extended := b }

/-- exit <- 1 (R36). -/
def State.requestExit (s : State) : State := { s with exitRequested := true }

/-- awaiting <- b (R37). -/
def State.setAwaiting (s : State) (b : Bool) : State := { s with awaitingKey := b }

/-- report Unknown(op) (R11, R201). -/
def State.report (s : State) (op : Word) : State := { s with unknown := some op }

/-! ## Taking the exception -/

/-- The code R221 gives a kind. -/
def faultCode : FaultKind → Nat
  | .stackOverflow => 1
  | .stackUnderflow => 2
  | .fetchOutOfRange => 3
  | .keyIndexOutOfRange => 4

/-- raise StateCorruption: the latch takes the record, with the pc as it stands, and no other state changes
(R223). There is no handler, no vector and no return: only `initialize` and `reset` clear the latch
(R226; `State.initialized` in Machine/Lifecycle.lean). -/
def State.raise (s : State) (kind : FaultKind) (op : Option Word) (value : Option Byte) : State :=
  { s with fault := some { kind := kind, pc := s.pc, op := op, value := value } }

/-! ## The cycle driver -/

/-- Fetch(pc): the big-endian word at pc, or none when pc > 0xFFE (R61). It changes no state. -/
def State.fetch (s : State) : Option Word :=
  if s.pc.toNat ≤ 0xFFE then some (wordOfBytes (s.memRead s.pc.toNat) (s.memRead (s.pc.toNat + 1)))
  else none

/-- The start of a step: the transient flags and the report are cleared (R46, R205). -/
def State.beginStep (s : State) : State := { s with draw := false, beep := false, unknown := none }

/-- DT counts down to 0 and stays there (R29, R205). -/
def State.tickDelay (s : State) : State := if s.dt = 0 then s else { s with dt := s.dt - 1 }

/-- ST counts down to 0 and stays there; the step from 1 to 0 sets beep-occurred (R30, R205). -/
def State.tickSound (s : State) : State :=
  if s.st = 0 then s else { s with st := s.st - 1, beep := s.beep || s.st == 1 }

/-- The end of a step whose handler completed: both timers tick (R205). -/
def State.tick (s : State) : State := s.tickDelay.tickSound

/-- The end of a step: a handler that raised a fault ends the step at once, with no tick (R205, R223). -/
def State.endStep (s : State) : State := if s.fault.isSome then s else s.tick

/-- A fetch out of range: FetchOutOfRange, which records no op (R61, R221). -/
def State.fetchFault (s : State) : State := s.raise .fetchOutOfRange none none

/-- What `step` returns to the host (R47). -/
structure StepResult where
  drew : Bool
  beeped : Bool
  exitRequested : Bool
  awaitingKey : Bool
  unknown : Option Word
  fault : Option FaultRecord
  deriving DecidableEq, Repr

/-- The result of the step that left this state (R47). A step that only finds the latch set executes no word,
so it reports none as unknown (R206; assumption log 3). -/
def State.stepResult (s : State) : StepResult where
  drew := s.draw
  beeped := s.beep
  exitRequested := s.exitRequested
  awaitingKey := s.awaitingKey
  unknown := if s.fault.isSome then none else s.unknown
  fault := s.fault

/-- Store a word where the next step fetches, and make that fetch happen: the latch is clear, and a pc that no
fetch can use is the load address (R61, R206; assumption log 10). -/
def State.placeWord (s : State) (op : Word) : State :=
  let pc := if s.pc.toNat ≤ 0xFFE then s.pc else 0x200
  (({ s with fault := none, pc := pc }).memWrite pc.toNat (highByteOf op)).memWrite (pc.toNat + 1) (lowByte op)

end Sys2Proof.Machine
end

