-- ==== Sys2Proof/Machine/Operands.lean ====
section
/-! DEFINITION. The operand forms: immediates, data addresses, glyph addresses, decimal digits, register
ranges, key indexes and sprite rows (R63, R82, R140, R163, R182–R188). -/

namespace Sys2Proof.Machine

/-- NNN zero-extended to 16 bits (R82). -/
def zext16 (nnn : Addr) : Word := nnn.setWidth 16

/-- The address of the data access at I + k: `(I + k) & 0xFFF` (R63). -/
def State.dataAddr (s : State) (k : Nat) : Nat := (s.i.toNat + k) % memSize

/-- The byte at I + k (R63). -/
def State.dataRead (s : State) (k : Nat) : Byte := s.memRead (s.i.toNat + k)

/-- Write the byte at I + k (R63). -/
def State.dataWrite (s : State) (k : Nat) (v : Byte) : State := s.memWrite (s.i.toNat + k) v

/-- The address of a glyph: base + size · digit, the digit used whole (R182, R183, D10). -/
def glyphAddr (base size : Nat) (digit : Byte) : Word := BitVec.ofNat 16 (base + size * digit.toNat)

/-- The hundreds digit (R184). -/
def bcdHundreds (v : Byte) : Byte := BitVec.ofNat 8 (v.toNat / 100)

/-- The tens digit (R184). -/
def bcdTens (v : Byte) : Byte := BitVec.ofNat 8 (v.toNat / 10 % 10)

/-- The units digit (R184). -/
def bcdUnits (v : Byte) : Byte := BitVec.ofNat 8 (v.toNat % 10)

/-- The numbers 0 to X of a register range V0..VX, in increasing order (R74, R185, R186). -/
def rangeTo (x : Reg) : List Nat := List.range (x.toNat + 1)

/-- The numbers 0 to min(X, 7) of an RPL transfer: clamped, not rejected (R187, R188). -/
def rplRangeTo (x : Reg) : List Nat := List.range (min x.toNat 7 + 1)

/-- Register number k of a range (k is below 16). -/
def regOf (k : Nat) : Reg := BitVec.ofNat 4 k

/-- RPL register number k (k is below 8). -/
def rplOf (k : Nat) : BitVec 3 := BitVec.ofNat 3 k

/-- Store V[k] at I + k for each k of a list, in its order (R185, R74). -/
def State.storeRegs (s : State) (ks : List Nat) : State :=
  ks.foldl (fun t k => t.dataWrite k (t.v (regOf k))) s

/-- Load V[k] from I + k for each k of a list, in its order (R186, R74). -/
def State.loadRegs (s : State) (ks : List Nat) : State :=
  ks.foldl (fun t k => t.setV (regOf k) (t.dataRead k)) s

/-- rpl[k] <- V[k] for each k of a list (R187). -/
def State.saveRpl (s : State) (ks : List Nat) : State :=
  ks.foldl (fun t k => t.setRpl (rplOf k) (t.v (regOf k))) s

/-- V[k] <- rpl[k] for each k of a list (R188). -/
def State.restoreRpl (s : State) (ks : List Nat) : State :=
  ks.foldl (fun t k => t.setV (regOf k) (t.rplAt (rplOf k))) s

/-- The key that a register value names: none above 15 (R163, R164, D4). -/
def keyIndex (v : Byte) : Option Nibble := if v.toNat ≤ 15 then some (v.setWidth 4) else none

/-- Whether DXYN takes its 16×16 form: N = 0 in extended mode (R140). -/
def State.bigSprite (s : State) (n : Nibble) : Bool := n == 0 && s.extended

/-- How many rows DXYN draws (R140). -/
def State.spriteRows (s : State) (n : Nibble) : Nat := if s.bigSprite n then 16 else n.toNat

/-- How many columns DXYN draws (R140). -/
def State.spriteWidth (s : State) (n : Nibble) : Nat := if s.bigSprite n then 16 else 8

/-- Row r of the sprite at I: in the 16×16 form the byte at I + 2r high and the byte at I + 2r + 1 low, else
the byte at I + r (R140, D12). -/
def State.spriteRow (s : State) (n : Nibble) (r : Nat) : Word :=
  if s.bigSprite n then wordOfBytes (s.dataRead (2 * r)) (s.dataRead (2 * r + 1))
  else (s.dataRead r).setWidth 16

/-- Whether the sprite's bit in row r, column c is set, the most significant bit leftmost (R140, G7). -/
def State.spriteBit (s : State) (n : Nibble) (r c : Nat) : Bool :=
  (s.spriteRow n r).getLsbD (s.spriteWidth n - 1 - c)

/-- The cell of the sprite's row r, column c, drawn at (x0, y0): wrapped modulo W·H as a flattened index
(R140). -/
def State.spriteCell (s : State) (x0 y0 : Byte) (r c : Nat) : Nat :=
  ((y0.toNat + r) * s.width + (x0.toNat + c)) % (s.width * s.height)

/-- The cells of the sprite's set bits, rows from the top and columns from the left (R140, R74). -/
def State.spriteCells (s : State) (x0 y0 : Byte) (n : Nibble) : List Nat :=
  (List.range (s.spriteRows n)).flatMap fun r =>
    ((List.range (s.spriteWidth n)).filter (fun c => s.spriteBit n r c)).map fun c => s.spriteCell x0 y0 r c

/-- The rows n = op[3:0] by which an unknown word scrolls up: none unless SCROLL_UP_ENCODING is 00Bn and the
word is one of its words, in the canonical spelling where STRICT_DECODE is on (93 Part 1, D24;
assumption log 11). -/
def scrollUpRows (p : Params) (op : Word) : Option Nat :=
  match p.scrollUp with
  | .absent => none
  | .bn =>
    if nibH op = 0x0 ∧ nibY op = 0xB ∧ (p.strictDecode = false ∨ nibX op = 0x0) then some (nibN op).toNat
    else none

end Sys2Proof.Machine
end

