-- ==== Sys2Proof/Machine/Flags.lean ====
section
/-! DEFINITION. Every flag the block computes into VF (R22), and the order in which VF and the destination are
written (R120). -/

namespace Sys2Proof.Machine

/-- The carry of 8XY4: 1 exactly when the unbounded sum exceeds 0xFF (R125, R133). -/
def carryFlag (a b : Byte) : Byte := flagByte (decide (a.toNat + b.toNat > 0xFF))

/-- The no-borrow flag of a − b: 1 exactly when a ≥ b (R126, R128, R133). -/
def noBorrowFlag (a b : Byte) : Byte := flagByte (decide (a.toNat ≥ b.toNat))

/-- The bit a right shift moves out: bit 0 (R127). -/
def shiftedOutRight (a : Byte) : Byte := a &&& 0x01

/-- The bit a left shift moves out: bit 7 (R132). -/
def shiftedOutLeft (a : Byte) : Byte := a >>> 7

/-- The overflow flag of FX1E: 1 exactly when I + VX exceeds 0xFFF (R181, D8). -/
def indexOverflowFlag (i : Word) (v : Byte) : Byte := flagByte (decide (i.toNat + v.toNat > 0xFFF))

/-- The state from which the destination of a flag-writing instruction is computed, `s` being the state before
and `written` the state after the write of VF (R120, D5). -/
def State.operandState (s written : State) : State :=
  match s.params.vfOrder with
  | .sequential => written
  | .snapshot => s

/-- Write the flag to VF, then V[x] <- f of the operands: the order of 8XY4–8XY7 and 8XYE (R120). -/
def State.flagThenV (s : State) (x : Reg) (flag : Byte) (f : State → Byte) : State :=
  let written := s.setV vf flag
  written.setV x (f (s.operandState written))

/-- Write the flag to VF, then I <- f of the operands: the order of FX1E (R120, R181). -/
def State.flagThenI (s : State) (flag : Byte) (f : State → Word) : State :=
  let written := s.setV vf flag
  written.setI (f (s.operandState written))

end Sys2Proof.Machine
end

