-- ==== Sys2Proof/Machine/Alu.lean ====
section
/-! DEFINITION. The arithmetic, logic, immediate and random family: 41_alu.md. Every one ends with
pc <- pc + 2 and none raises an exception. -/

namespace Sys2Proof.Machine

/-- LD VX, VY (R121). -/
def execLdReg (x y : Reg) (s : State) : Host.Outcome State Fault Refusal :=
  .next (s.setV x (s.v y)).advance

/-- OR VX, VY; VF is not written unless X = F (R122, D7). -/
def execOrReg (x y : Reg) (s : State) : Host.Outcome State Fault Refusal :=
  .next (s.setV x (s.v x ||| s.v y)).advance

/-- AND VX, VY (R123, D7). -/
def execAndReg (x y : Reg) (s : State) : Host.Outcome State Fault Refusal :=
  .next (s.setV x (s.v x &&& s.v y)).advance

/-- XOR VX, VY (R124, D7). -/
def execXorReg (x y : Reg) (s : State) : Host.Outcome State Fault Refusal :=
  .next (s.setV x (s.v x ^^^ s.v y)).advance

/-- ADD VX, VY: carry to VF, then the sum (R125, R120). -/
def execAddReg (x y : Reg) (s : State) : Host.Outcome State Fault Refusal :=
  .next (s.flagThenV x (carryFlag (s.v x) (s.v y)) (fun t => t.v x + t.v y)).advance

/-- SUB VX, VY: no-borrow to VF, then VX − VY (R126, R120). -/
def execSubReg (x y : Reg) (s : State) : Host.Outcome State Fault Refusal :=
  .next (s.flagThenV x (noBorrowFlag (s.v x) (s.v y)) (fun t => t.v x - t.v y)).advance

/-- SHR VX: bit 0 to VF, then VX shifted right in place; Y is ignored (R127, D6). -/
def execShr (x : Reg) (s : State) : Host.Outcome State Fault Refusal :=
  .next (s.flagThenV x (shiftedOutRight (s.v x)) (fun t => t.v x >>> 1)).advance

/-- SUBN VX, VY: no-borrow of VY − VX to VF, then VY − VX into VX (R128, R120). -/
def execSubn (x y : Reg) (s : State) : Host.Outcome State Fault Refusal :=
  .next (s.flagThenV x (noBorrowFlag (s.v y) (s.v x)) (fun t => t.v y - t.v x)).advance

/-- SHL VX: bit 7 to VF, then VX shifted left in place; Y is ignored (R132, D6). -/
def execShl (x : Reg) (s : State) : Host.Outcome State Fault Refusal :=
  .next (s.flagThenV x (shiftedOutLeft (s.v x)) (fun t => t.v x <<< 1)).advance

/-- LD VX, NN (R129). -/
def execLdImm (x : Reg) (nn : Byte) (s : State) : Host.Outcome State Fault Refusal :=
  .next (s.setV x nn).advance

/-- ADD VX, NN: wraps and writes no flag (R130). -/
def execAddImm (x : Reg) (nn : Byte) (s : State) : Host.Outcome State Fault Refusal :=
  .next (s.setV x (s.v x + nn)).advance

/-- RND VX, NN on a given random byte r (R131). -/
def State.rndWith (s : State) (r : Byte) (x : Reg) (nn : Byte) : State := (s.setV x (r &&& nn)).advance

/-- RND VX, NN: one fresh byte from outside the block, masked by NN (R131, D27; assumption log 2). -/
def execRnd (x : Reg) (nn : Byte) (s : State) : Host.Outcome State Fault Refusal :=
  .next (s.countDraw.rndWith (Config.randomByte s.draws) x nn)

end Sys2Proof.Machine
end

