-- ==== Sys2Proof/Machine/ControlFlow.lean ====
section
/-! DEFINITION. The control flow family: 40_control_flow.md. -/

namespace Sys2Proof.Machine

/-- JP NNN (R100). -/
def execJp (nnn : Addr) (s : State) : Host.Outcome State Fault Refusal := .next (s.setPc (zext16 nnn))

/-- CALL NNN: push the CALL's own address, then jump; StackOverflow when the stack is full (R101). -/
def execCall (nnn : Addr) (s : State) : Host.Outcome State Fault Refusal :=
  match s.push s.pc with
  | some t => .next (t.setPc (zext16 nnn))
  | none => .next (s.raise .stackOverflow (some (encode (.call nnn))) none)

/-- RET: pop, then go past the CALL; StackUnderflow when the stack is empty (R102). -/
def execRet (ign : Nibble) (s : State) : Host.Outcome State Fault Refusal :=
  match s.pop with
  | some (a, t) => .next (t.setPc (a + 2))
  | none => .next (s.raise .stackUnderflow (some (encode (.ret ign))) none)

/-- SE VX, NN (R103). -/
def execSeImm (x : Reg) (nn : Byte) (s : State) : Host.Outcome State Fault Refusal :=
  .next (s.skipIf (s.v x == nn))

/-- SNE VX, NN (R104). -/
def execSneImm (x : Reg) (nn : Byte) (s : State) : Host.Outcome State Fault Refusal :=
  .next (s.skipIf (s.v x != nn))

/-- SE VX, VY (R105). -/
def execSeReg (x y : Reg) (s : State) : Host.Outcome State Fault Refusal :=
  .next (s.skipIf (s.v x == s.v y))

/-- SNE VX, VY (R106). -/
def execSneReg (x y : Reg) (s : State) : Host.Outcome State Fault Refusal :=
  .next (s.skipIf (s.v x != s.v y))

/-- JP V0, NNN: the sum is 16 bits and not masked to 12 (R107, D25). -/
def execJpV0 (nnn : Addr) (s : State) : Host.Outcome State Fault Refusal :=
  .next (s.setPc (zext16 nnn + (s.v 0).setWidth 16))

end Sys2Proof.Machine
end

