-- ==== Sys2Proof/Machine/Graphics.lean ====
section
/-! DEFINITION. The graphics and screen control family: 42_graphics.md. Every one sets draw-occurred and ends
with pc <- pc + 2. -/

namespace Sys2Proof.Machine

/-- The common end of the family: fb <- f, draw <- 1, pc <- pc + 2. -/
def State.drawn (s : State) (f : Framebuffer) : State := ((s.setFb f).markDraw).advance

/-- DRW VX, VY, N: toggle the sprite's cells, then VF <- collision (R140). The coordinates are read before VF
is written. -/
def execDrw (x y : Reg) (n : Nibble) (s : State) : Host.Outcome State Fault Refusal :=
  let p := s.fb.toggleAll (s.spriteCells (s.v x) (s.v y) n)
  .next ((s.setV vf (flagByte p.2)).drawn p.1)

/-- CLS: all 8192 cells become 0 (R141). -/
def execCls (s : State) : Host.Outcome State Fault Refusal := .next (s.drawn [])

/-- SCD n (R142). -/
def execScd (n : Nibble) (s : State) : Host.Outcome State Fault Refusal :=
  .next (s.drawn (s.fb.scrollDown s.width s.height n.toNat))

/-- SCR: right by SCROLL_H columns (R143, D15). -/
def execScr (s : State) : Host.Outcome State Fault Refusal :=
  .next (s.drawn (s.fb.scrollRight s.width s.height s.params.scrollH))

/-- SCL: left by SCROLL_H columns (R144, D15). -/
def execScl (s : State) : Host.Outcome State Fault Refusal :=
  .next (s.drawn (s.fb.scrollLeft s.width s.height s.params.scrollH))

/-- LOW: normal mode; no cell changes (R145, D14). -/
def execLow (s : State) : Host.Outcome State Fault Refusal :=
  .next ((s.setExtended false).markDraw).advance

/-- HIGH: extended mode; no cell changes (R146, D14). -/
def execHigh (s : State) : Host.Outcome State Fault Refusal :=
  .next ((s.setExtended true).markDraw).advance

end Sys2Proof.Machine
end

