-- ==== Sys2Proof/Machine/IndexMemory.lean ====
section
/-! DEFINITION. The index register, BCD, block transfer and RPL family: 44_index_memory.md. -/

namespace Sys2Proof.Machine

/-- LD I, NNN (R180). -/
def execLdI (nnn : Addr) (s : State) : Host.Outcome State Fault Refusal :=
  .next (s.setI (zext16 nnn)).advance

/-- ADD I, VX: overflow past 0xFFF to VF, then I + VX mod 65536 (R181, R120). -/
def execAddIVx (x : Reg) (s : State) : Host.Outcome State Fault Refusal :=
  .next (s.flagThenI (indexOverflowFlag s.i (s.v x)) (fun t => t.i + (t.v x).setWidth 16)).advance

/-- LD F, VX: I <- FONT_SMALL_BASE + 5·VX (R182). -/
def execLdFVx (x : Reg) (s : State) : Host.Outcome State Fault Refusal :=
  .next (s.setI (glyphAddr s.params.fontSmallBase 5 (s.v x))).advance

/-- LD HF, VX: I <- FONT_BIG_BASE + 10·VX (R183). -/
def execLdHfVx (x : Reg) (s : State) : Host.Outcome State Fault Refusal :=
  .next (s.setI (glyphAddr s.params.fontBigBase 10 (s.v x))).advance

/-- LD B, VX: hundreds, tens and units at I, I+1, I+2, in that order (R184, R74). -/
def execLdBVx (x : Reg) (s : State) : Host.Outcome State Fault Refusal :=
  .next ((((s.dataWrite 0 (bcdHundreds (s.v x))).dataWrite 1 (bcdTens (s.v x))).dataWrite 2
    (bcdUnits (s.v x))).advance)

/-- LD [I], VX: V0..VX to memory at I; I is unchanged (R185, D11). -/
def execLdMemVx (x : Reg) (s : State) : Host.Outcome State Fault Refusal :=
  .next (s.storeRegs (rangeTo x)).advance

/-- LD VX, [I]: V0..VX from memory at I; I is unchanged (R186, D11). -/
def execLdVxMem (x : Reg) (s : State) : Host.Outcome State Fault Refusal :=
  .next (s.loadRegs (rangeTo x)).advance

/-- LD R, VX: V0..Vmin(X,7) to the RPL bank (R187). -/
def execLdRVx (x : Reg) (s : State) : Host.Outcome State Fault Refusal :=
  .next (s.saveRpl (rplRangeTo x)).advance

/-- LD VX, R: V0..Vmin(X,7) from the RPL bank (R188). -/
def execLdVxR (x : Reg) (s : State) : Host.Outcome State Fault Refusal :=
  .next (s.restoreRpl (rplRangeTo x)).advance

/-- A word Fx00: refused, since the spec gives the form no meaning (R189, R90, R202). -/
def execUnmodelledFx00 (x : Reg) (_s : State) : Host.Outcome State Fault Refusal :=
  .refused (.setIndexFormUnspecified (encode (.unmodelledFx00 x)))

/-- A word FxFn: refused, since the spec gives the form no meaning (R189, R90, R202). -/
def execUnmodelledFxFn (x : Reg) (n : Nibble) (_s : State) : Host.Outcome State Fault Refusal :=
  .refused (.setIndexFormUnspecified (encode (.unmodelledFxFn x n)))

end Sys2Proof.Machine
end

