-- ==== Sys2Proof/Machine/System.lean ====
section
/-! DEFINITION. Exit and unknown words: 45_system.md §1. -/

namespace Sys2Proof.Machine

/-- EXIT: the block does not stop (R200, D16). -/
def execExit (s : State) : Host.Outcome State Fault Refusal := .next (s.requestExit).advance

/-- UNKNOWN: report the word and advance (R201). Where SCROLL_UP_ENCODING gives the word to scroll-up, it
scrolls up as R142 scrolls down, with the direction reversed (93 Part 1; assumption log 11). -/
def execUnknown (op : Word) (s : State) : Host.Outcome State Fault Refusal :=
  match scrollUpRows s.params op with
  | some n => .next (s.drawn (s.fb.scrollUp s.width s.height n))
  | none => .next (s.report op).advance

end Sys2Proof.Machine
end

