-- ==== Sys2Proof/Machine/TimersKeys.lean ====
section
/-! DEFINITION. The timers and keys family: 43_timers_keys.md. -/

namespace Sys2Proof.Machine

/-- LD VX, DT (R160). -/
def execLdVxDt (x : Reg) (s : State) : Host.Outcome State Fault Refusal := .next (s.setV x s.dt).advance

/-- LD DT, VX (R161). -/
def execLdDtVx (x : Reg) (s : State) : Host.Outcome State Fault Refusal := .next (s.setDt (s.v x)).advance

/-- LD ST, VX; the write itself raises no beep (R162). -/
def execLdStVx (x : Reg) (s : State) : Host.Outcome State Fault Refusal := .next (s.setSt (s.v x)).advance

/-- SKP VX: test the key and release it, then skip; KeyIndexOutOfRange when VX > 15 (R163, D4). -/
def execSkp (x : Reg) (ign : Nibble) (s : State) : Host.Outcome State Fault Refusal :=
  match keyIndex (s.v x) with
  | some k => .next ((s.releaseKey k).skipIf (s.key k))
  | none => .next (s.raise .keyIndexOutOfRange (some (encode (.skp x ign))) (some (s.v x)))

/-- SKNP VX: the latch is not changed; KeyIndexOutOfRange when VX > 15 (R164, D4). -/
def execSknp (x : Reg) (ign : Nibble) (s : State) : Host.Outcome State Fault Refusal :=
  match keyIndex (s.v x) with
  | some k => .next (s.skipIf (!s.key k))
  | none => .next (s.raise .keyIndexOutOfRange (some (encode (.sknp x ign))) (some (s.v x)))

/-- LD VX, K: wait while no key is pressed, pc unchanged; else take the least pressed key, clear all keys and
leave AwaitingKey (R165, D18). -/
def execLdVxK (x : Reg) (s : State) : Host.Outcome State Fault Refusal :=
  match s.firstKey with
  | none => .next (s.setAwaiting true)
  | some k => .next ((((s.setV x (BitVec.ofNat 8 k)).clearKeys).setAwaiting false).advance)

end Sys2Proof.Machine
end

