-- ==== Sys2Proof/Machine/Lifecycle.lean ====
section
/-! DEFINITION. The host's transactions besides `step`, as functions on the state between two steps (R50, R51,
R232, R233, R250–R257), and its reads. -/

namespace Sys2Proof.Machine

/-- PROG_BASE, where a program is loaded and entered (R8, R67). -/
def progBase : Nat := 0x200

/-- MAX_ROM (R8, R256, R257). -/
def maxRom : Nat := 3583

/-- The canonical memory with given contents at every address. -/
def Memory.ofContents (f : Nat → Byte) : Memory :=
  (List.range memSize).filterMap fun a => if f a = Memory.unlisted a then none else some (a, f a)

/-- `initialize()`: every piece of state to its value of R55, the fonts of the machine's parameters in memory
(R250). The model's own counter of random draws goes on, so that a later draw is as free as an earlier one
(assumption log 13). -/
def State.initialized (s : State) : State :=
  { State.reset with
    mem := Memory.ofContents (initialByte s.params)
    draws := s.draws
    params := s.params }

/-- Why a `load` or a `reset` fails (R220, R253, R256). -/
inductive LoadError where
  /-- The bytes are more than 3583 or the source is unreadable. -/
  | rejected
  /-- `reset` with no remembered ROM. -/
  | noRom
  deriving DecidableEq, Repr

/-- Write bytes at rising addresses from `a` on. -/
def State.writeBytes (s : State) : Nat → List Byte → State
  | _, [] => s
  | a, b :: bs => (s.memWrite a b).writeBytes (a + 1) bs

/-- `load(bytes, readable)`: the state after success; on a LoadError no state changes (R256). -/
def State.load (s : State) (bytes : List Byte) (readable : Bool) : Except LoadError State :=
  if readable = false ∨ maxRom < bytes.length then .error .rejected
  else .ok { s.writeBytes progBase bytes with rom := some bytes }

/-- The state that `reset` leaves before it loads: initialized, but for the debug bit and, by RPL_ON_RESET,
the RPL bank (R251, R253). -/
def State.reinitialized (s : State) : State :=
  { s.initialized with
    debug := s.debug
    rpl := match s.params.rplOnReset with
      | .preserve => s.rpl
      | .clear => s.initialized.rpl }

/-- `reset(readable)`: the state it leaves and the error it returns, if any; a failed reload leaves the machine
initialized with no program (R253, D28). -/
def State.hostReset (s : State) (readable : Bool) : State × Option LoadError :=
  match s.rom with
  | none => (s.reinitialized, some .noRom)
  | some rom =>
    match s.reinitialized.load rom readable with
    | .ok t => (t, none)
    | .error e => (s.reinitialized, some e)

/-- `setKey(k)`: k becomes the sole pressed key; out of range it does nothing (R232). -/
def State.setKey (s : State) (k : Int) : State :=
  if 0 ≤ k ∧ k ≤ 15 then
    { s with keys := (Vector.replicate 16 false).setIfInBounds k.toNat true }
  else s

/-- `setDebug(b)` (R38, R50). -/
def State.setDebug (s : State) (b : Bool) : State := { s with debug := b }

/-- The framebuffer snapshot: the active region's cells in index order, each 0 or 1 (R44). -/
def State.snapshot (s : State) : List Byte :=
  (List.range (s.width * s.height)).map fun k => flagByte (s.fb.cell k)

/-- The machine conditions of R240. -/
inductive Condition where
  | running
  | awaitingKey
  | faulted
  deriving DecidableEq, Repr

/-- The condition a state is in; Faulted overrides the others, and ExitRequested is the separate bit
`exitRequested` (R240). -/
def State.condition (s : State) : Condition :=
  if s.fault.isSome then .faulted else if s.awaitingKey then .awaitingKey else .running

/-- The transactions that change state, `step` apart (R50). -/
inductive Transaction where
  | setKey (k : Int)
  | clearKeys
  | load (bytes : List Byte) (readable : Bool)
  | reset (readable : Bool)
  /-- `initialize()`; the plain name is a word of Lean's. -/
  | init
  | setDebug (b : Bool)
  deriving DecidableEq, Repr

/-- The state a transaction leaves (R50). -/
def State.transact (s : State) : Transaction → State
  | .setKey k => s.setKey k
  | .clearKeys => s.clearKeys
  | .load bytes readable =>
    match s.load bytes readable with
    | .ok t => t
    | .error _ => s
  | .reset readable => (s.hostReset readable).1
  | .init => s.initialized
  | .setDebug b => s.setDebug b

end Sys2Proof.Machine
end

