-- ==== Sys2Proof/Machine/Step.lean ====
section
/-! DEFINITION. One step: the cycle driver (R205). -/

namespace Sys2Proof.Machine

/-- `step()`: nothing while the fault latch is set (R206); else clear the transient flags, fetch, decode,
execute one instruction and tick the timers, a fault ending the step at once (R205, R223). The random byte of
R50's input is the free value that RND takes (assumption log 2). -/
def step (s : State) : Host.Outcome State Fault Refusal :=
  if s.fault.isSome then .next s
  else
    match s.beginStep.fetch with
    | none => .next s.beginStep.fetchFault
    | some op =>
      match exec (decodeWith s.params op) s.beginStep with
      | .next t => .next t.endStep
      | .fault r => .fault r
      | .refused r => .refused r

/-- The state with a given word where `step` fetches its next instruction (assumption log 10). -/
def State.withFetchWord (s : State) (nbits w : Nat) : State := s.placeWord (tableWord nbits w)

end Sys2Proof.Machine
end

