-- ==== Sys2Proof/Safety.lean ====
section
/-! DEFINITION. The terms claims use: the parts of the state and what keeps them, the invariants of the machine,
and the end of a run (R208). -/

namespace Sys2Proof.Machine

/-- A part of the state that a claim can say is unchanged: one register, one stack entry, one key, one byte of
memory, one framebuffer cell, or one of the other pieces of R20 and of the model's own. -/
inductive Part where
  | v (x : Reg)
  | i
  | pc
  | stackEntry (k : Fin 16)
  | sp
  | dt
  | st
  | key (k : Nibble)
  | rpl (k : BitVec 3)
  | byte (a : Nat)
  | cell (k : Nat)
  | extended
  | exitRequested
  | awaitingKey
  | debug
  | draw
  | beep
  | fault
  | rom
  | unknown
  | draws
  | params
  deriving DecidableEq, Repr

/-- The part reads the same in both states. -/
def Part.same (s t : State) : Part → Prop
  | .v x => t.v x = s.v x
  | .i => t.i = s.i
  | .pc => t.pc = s.pc
  | .stackEntry k => t.stack[k] = s.stack[k]
  | .sp => t.sp = s.sp
  | .dt => t.dt = s.dt
  | .st => t.st = s.st
  | .key k => t.key k = s.key k
  | .rpl k => t.rplAt k = s.rplAt k
  | .byte a => t.mem.read a = s.mem.read a
  | .cell k => t.fb.cell k = s.fb.cell k
  | .extended => t.extended = s.extended
  | .exitRequested => t.exitRequested = s.exitRequested
  | .awaitingKey => t.awaitingKey = s.awaitingKey
  | .debug => t.debug = s.debug
  | .draw => t.draw = s.draw
  | .beep => t.beep = s.beep
  | .fault => t.fault = s.fault
  | .rom => t.rom = s.rom
  | .unknown => t.unknown = s.unknown
  | .draws => t.draws = s.draws
  | .params => t.params = s.params

/-- Every part of the state but those that satisfy `changes` is the same in `t` as in `s`: the frame of an
instruction. -/
def KeepsAllBut (changes : Part → Prop) (s t : State) : Prop := ∀ p : Part, ¬ changes p → p.same s t

/-- At most one key flag is true (R31). -/
abbrev State.atMostOneKey (s : State) : Prop := ∀ j k : Fin 16, s.keys[j] = true → s.keys[k] = true → j = k

/-- While the latch is set, the transient flags stay as the faulting step left them, 0 (R206, R223). -/
abbrev State.latchedQuiet (s : State) : Prop := s.fault.isSome = true → s.draw = false ∧ s.beep = false

/-- The invariant of the machine's data: memory and framebuffer in canonical form (R33, R34), at most one key
pressed (R31), and a quiet latch (R206). -/
structure State.Inv (s : State) : Prop where
  memory : s.mem.wf
  screen : s.fb.wf
  keys : s.atMostOneKey
  latch : s.latchedQuiet

/-- Every pushed return address is one a fetch succeeded at, and pc stays where 16-bit arithmetic does not wrap
(R27). The bound 0x10FE is the greatest target of BNNN (R107). -/
structure State.PcInRange (s : State) : Prop where
  pc : s.pc.toNat ≤ 0x10FE
  stack : ∀ k : Fin 16, s.stack[k].toNat ≤ 0xFFE

/-- AwaitingKey holds only at an FX0A that the next step executes again (R207, R240). -/
def State.AwaitsAtFx0a (s : State) : Prop :=
  s.awaitingKey = true → ∃ op x, s.fetch = some op ∧ decodeWith s.params op = .ldVxK x

/-- A step that ends a run: a clean end, a faulted end or a refused step (R208). -/
inductive RunEnd where
  | clean
  | faulted
  | refused
  deriving DecidableEq, Repr

/-- Which general registers an instruction may write: the table of R23. -/
def mayWriteV : Instr → Reg → Bool
  | .ldImm x _, y | .addImm x _, y | .rnd x _, y => y == x
  | .ldReg x _, y | .orReg x _, y | .andReg x _, y | .xorReg x _, y => y == x
  | .addReg x _, y | .subReg x _, y | .shr x _, y | .subn x _, y | .shl x _, y => y == vf || y == x
  | .drw _ _ _, y => y == vf
  | .addIVx _, y => y == vf
  | .ldVxDt x, y | .ldVxK x, y => y == x
  | .ldVxMem x, y => decide (y.toNat ≤ x.toNat)
  | .ldVxR x, y => decide (y.toNat ≤ min x.toNat 7)
  | .cls _, _ | .ret _, _ | .scd _ _, _ | .scr _, _ | .scl _, _ | .exit _, _ | .low _, _ | .high _, _ => false
  | .jp _, _ | .call _, _ | .jpV0 _, _ | .ldI _, _ => false
  | .seImm _ _, _ | .sneImm _ _, _ | .seReg _ _ _, _ | .sneReg _ _ _, _ | .skp _ _, _ | .sknp _ _, _ => false
  | .ldDtVx _, _ | .ldStVx _, _ | .ldFVx _, _ | .ldHfVx _, _ | .ldBVx _, _ | .ldMemVx _, _ | .ldRVx _, _ => false
  | .unmodelledFx00 _, _ | .unmodelledFxFn _ _, _ | .unknown _, _ => false

/-- Whether an instruction may write a part of the state other than a general register and pc, from the writers
that R24, R28–R32, R34–R39, R46 and R60 name; an unknown word may scroll up where SCROLL_UP_ENCODING says so. -/
def mayWritePart : Part → Instr → Bool
  | .byte _, .ldBVx _ | .byte _, .ldMemVx _ => true
  | .cell _, .cls _ | .cell _, .scd _ _ | .cell _, .scr _ | .cell _, .scl _ | .cell _, .drw _ _ _ => true
  | .cell _, .unknown _ => true
  | .i, .ldI _ | .i, .addIVx _ | .i, .ldFVx _ | .i, .ldHfVx _ => true
  | .stackEntry _, .call _ => true
  | .sp, .call _ | .sp, .ret _ => true
  | .dt, .ldDtVx _ => true
  | .st, .ldStVx _ => true
  | .key _, .skp _ _ | .key _, .ldVxK _ => true
  | .rpl _, .ldRVx _ => true
  | .extended, .low _ | .extended, .high _ => true
  | .exitRequested, .exit _ => true
  | .awaitingKey, .ldVxK _ => true
  | .draw, .cls _ | .draw, .scd _ _ | .draw, .scr _ | .draw, .scl _ | .draw, .drw _ _ _ => true
  | .draw, .low _ | .draw, .high _ | .draw, .unknown _ => true
  | .fault, .call _ | .fault, .ret _ | .fault, .skp _ _ | .fault, .sknp _ _ => true
  | .unknown, .unknown _ => true
  | .draws, .rnd _ _ => true
  | _, _ => false

/-- What an operand of a flag-writing instruction reads as: under Sequential VF reads as the flag just written,
under Snapshot as before (R120, D5). -/
def operandValue (order : VfOrder) (x : Reg) (old flag : Byte) : Byte :=
  if order = .sequential ∧ x = vf then flag else old

/-- How the step from a state ends the run, if it does (R208). DESIGN CHOICE (assumption log 17): R208 leaves open
which of its ends (a) and (b) a step is after which exit-requested is 1 and that sets the latch, and what a step
from a state whose latch is already set is, which sets nothing; both are `faulted` here. -/
def runEnd (s : State) : Option RunEnd :=
  match step s with
  | .next t => if t.fault.isSome then some .faulted else if t.exitRequested then some .clean else none
  | .fault _ => some .faulted
  | .refused _ => some .refused

/-- A safe step: it happens and leaves the latch clear (R208: a faulted end is "never a good final state"). -/
def SafeStep (s : State) : Prop := ∃ t, step s = .next t ∧ t.fault = none

end Sys2Proof.Machine
end

