-- ==== Sys2Proof/Certificates/Slice0/Obligations.lean ====
section
/-! DEFINITION. The statements for the provers, in the order of OBLIGATIONS.json. Each docstring names the rule
it formalises. A frame is said by `KeepsAllBut`: every part of the state but those named reads as before. -/

open Sys2Proof Sys2Proof.Machine

/-! ## Encoding -/

/-- Words written out from R93's patterns decode to the instructions they stand for (R92). -/
def Obligations.SpecWordsDecode : Prop :=
  decode 0x01E0 = .cls 0x1 ∧ decode 0x00EE = .ret 0x0 ∧ decode 0x00C3 = .scd 0x0 0x3 ∧
  decode 0x1ABC = .jp 0xABC ∧ decode 0x3342 = .seImm 0x3 0x42 ∧ decode 0x512F = .seReg 0x1 0x2 0xF ∧
  decode 0x8017 = .subn 0x0 0x1 ∧ decode 0xD125 = .drw 0x1 0x2 0x5 ∧ decode 0xE29E = .skp 0x2 0xE ∧
  decode 0xF365 = .ldVxMem 0x3 ∧ decode 0xF1F5 = .unmodelledFxFn 0x1 0x5 ∧ decode 0x801F = .unknown 0x801F

/-- Decoding the word of a well-formed instruction gives the instruction back, every operand at every value
(R92, R93, R95). -/
def Obligations.DecodeOfEncode : Prop := ∀ i : Instr, i.wf = true → decode (encode i) = i

/-- Every word has one meaning, and encoding it gives the word back with its unexamined bits (R88, R92). -/
def Obligations.EncodeOfDecode : Prop := ∀ op : Word, (decode op).wf = true ∧ encode (decode op) = op

/-- The words that decode as unknown are exactly R89's, and the words that decode as refused exactly R90's. -/
def Obligations.UnknownAndRefusedWords : Prop :=
  ∀ op : Word,
    (decode op = .unknown op ↔ unknownWord op = true) ∧
    (((∃ x, decode op = .unmodelledFx00 x) ∨ (∃ x n, decode op = .unmodelledFxFn x n)) ↔ refusedWord op = true)

/-- STRICT_DECODE on: the four groups of words that 93 Part 1 lists become unknown words, and every other word
decodes as with it off (93 Part 1, U12). -/
def Obligations.StrictDecodeWords : Prop :=
  ∀ (p : Params) (op : Word), p.strictDecode = true →
    let h := op.toNat / 4096
    let x := op.toNat / 256 % 16
    let y := op.toNat / 16 % 16
    let n := op.toNat % 16
    decodeWith p op =
      if (h = 0x0 ∧ x ≠ 0) ∨ ((h = 0x5 ∨ h = 0x9) ∧ n ≠ 0) ∨ (h = 0xE ∧ y = 0x9 ∧ n ≠ 0xE) ∨
          (h = 0xE ∧ y = 0xA ∧ n ≠ 0x1)
      then .unknown op else decode op

/-! ## The cycle driver -/

/-- A step at bytes that decode to an instruction executes that instruction: with the latch clear and pc in
range, the step is `exec` of it from the state with the transients cleared, then the end of the step; a refusal
passes through. Under STRICT_DECODE a non-canonical spelling executes as an unknown word instead (R205, R61;
93 Part 1). -/
def Obligations.StepRunsDecodedInstruction : Prop :=
  ∀ (s : State) (i : Instr), s.fault = none → s.pc.toNat ≤ 0xFFE →
    decodeBytes [s.memRead s.pc.toNat, s.memRead (s.pc.toNat + 1)] = .ok (i, []) →
    let j := if s.params.strictDecode = true ∧ i.canonical = false then
        .unknown (wordOfBytes (s.memRead s.pc.toNat) (s.memRead (s.pc.toNat + 1)))
      else i
    (∀ t, exec j s.beginStep = .next t → step s = .next t.endStep) ∧
    (∀ r, exec j s.beginStep = .refused r → step s = .refused r)

/-- What the step adds around the instruction: before it the transient flags and the report are cleared and all
else kept; after it, when it raised no fault, DT and ST count down to 0 and stay there, ST's step from 1 to 0
sets beep-occurred, and all else is kept; when it raised one, nothing (R29, R30, R205, R223). The report is the
model's own field (assumption log 3). -/
def Obligations.StepBeginsAndEnds : Prop :=
  ∀ s : State,
    (s.beginStep.draw = false ∧ s.beginStep.beep = false ∧ s.beginStep.unknown = none ∧
      KeepsAllBut (fun p => p = .draw ∨ p = .beep ∨ p = .unknown) s s.beginStep) ∧
    (s.fault = none →
      s.endStep.dt.toNat = s.dt.toNat - 1 ∧ s.endStep.st.toNat = s.st.toNat - 1 ∧
      (s.endStep.beep = true ↔ s.beep = true ∨ s.st.toNat = 1) ∧
      KeepsAllBut (fun p => p = .dt ∨ p = .st ∨ p = .beep) s s.endStep) ∧
    (s.fault ≠ none → s.endStep = s)

/-- The beep of a step: over every instruction, a step that completes sets beep-occurred exactly when the sound
timer, as the instruction leaves it, is 1 (R30, R46, R205, R236). -/
def Obligations.BeepExactlyWhenSoundTimerEnds : Prop :=
  ∀ (s u : State) (op : Word), s.fault = none → s.fetch = some op →
    exec (decodeWith s.params op) s.beginStep = .next u → u.fault = none →
    ∃ t, step s = .next t ∧ (t.beep = true ↔ u.st.toNat = 1) ∧ (t.st.toNat = 0 ↔ u.st.toNat ≤ 1)

/-- A fetch with pc > 0xFFE raises FetchOutOfRange, which records the pc and no op, and keeps every other part
of the state (R61, R221, R223). -/
def Obligations.FetchOutOfRangeFaults : Prop :=
  ∀ s : State, s.fault = none → 0xFFE < s.pc.toNat →
    ∃ t, step s = .next t ∧ t.fault = some ⟨.fetchOutOfRange, s.pc, none, none⟩ ∧
      t.draw = false ∧ t.beep = false ∧ t.unknown = none ∧
      KeepsAllBut (fun p => p = .fault ∨ p = .draw ∨ p = .beep ∨ p = .unknown) s t

/-- While the latch is set a step changes nothing and reports the latch, and only `initialize` and `reset`
clear it (R206). That the result then names no unknown word is the model's reading (assumption log 3). -/
def Obligations.LatchedMachineIsStuck : Prop :=
  ∀ s : State, s.fault ≠ none →
    step s = .next s ∧ s.stepResult.fault = s.fault ∧ s.stepResult.unknown = none ∧
    ∀ tr : Transaction, (s.transact tr).fault = none ↔ tr = .init ∨ ∃ b, tr = .reset b

/-- Over every instruction: a step that sets the latch changes nothing else but the transients, which are
cleared (R223, R224). -/
def Obligations.FaultingStepIsPrecise : Prop :=
  ∀ s t : State, s.fault = none → step s = .next t → t.fault ≠ none →
    t.draw = false ∧ t.beep = false ∧ t.unknown = none ∧
    KeepsAllBut (fun p => p = .fault ∨ p = .draw ∨ p = .beep ∨ p = .unknown) s t

/-- Over every instruction: a step sets the latch in the four cases of R221 alone, with the record of its case,
and in each of them it does (R221, R225). -/
def Obligations.FaultCausesAreTheFour : Prop :=
  ∀ (s : State) (r : FaultRecord), s.fault = none →
    ((∃ t, step s = .next t ∧ t.fault = some r) ↔
      (s.fetch = none ∧ r = ⟨.fetchOutOfRange, s.pc, none, none⟩) ∨
      ∃ op, s.fetch = some op ∧
        (((∃ nnn, decodeWith s.params op = .call nnn) ∧ s.sp.val = 16 ∧
            r = ⟨.stackOverflow, s.pc, some op, none⟩) ∨
         ((∃ g, decodeWith s.params op = .ret g) ∧ s.sp.val = 0 ∧
            r = ⟨.stackUnderflow, s.pc, some op, none⟩) ∨
         (∃ x g, (decodeWith s.params op = .skp x g ∨ decodeWith s.params op = .sknp x g) ∧
            15 < (s.v x).toNat ∧ r = ⟨.keyIndexOutOfRange, s.pc, some op, some (s.v x)⟩)))

/-- A step happens in every state but those whose word is refused, and there it is refused (R202, R208, R90). -/
def Obligations.StepRefusesExactlyRefusedWords : Prop :=
  ∀ s : State,
    (∀ r, step s = .refused r ↔
      s.fault = none ∧ ∃ op, s.fetch = some op ∧ refusedWord op = true ∧ r = .setIndexFormUnspecified op) ∧
    ((∃ t, step s = .next t) ↔ ∀ op, s.fault = none → s.fetch = some op → refusedWord op = false)

/-- The model's own: a word placed with `withFetchWord` is the one the next step fetches, from every state, and
nothing but memory, the latch and the pc is touched; a fetchable pc stays (assumption log 10). -/
def Obligations.PlacedWordIsFetched : Prop :=
  ∀ (s : State) (w : Nat), w < 65536 →
    (s.withFetchWord 16 w).fault = none ∧ (s.withFetchWord 16 w).fetch = some (BitVec.ofNat 16 w) ∧
    (s.pc.toNat ≤ 0xFFE → (s.withFetchWord 16 w).pc = s.pc) ∧
    KeepsAllBut (fun p => p = .fault ∨ p = .pc ∨ p = .byte (s.withFetchWord 16 w).pc.toNat ∨
      p = .byte ((s.withFetchWord 16 w).pc.toNat + 1)) s (s.withFetchWord 16 w)

/-- A program that stores two bytes with FX55 and goes there fetches them as one word, the first stored byte
high (R64, R72, R261). -/
def Obligations.StoredBytesAreFetched : Prop :=
  ∀ (s t : State) (x : Reg), 1 ≤ x.toNat → s.dataAddr 0 ≤ 0xFFE → exec (.ldMemVx x) s = .next t →
    ∀ u : State, u.mem = t.mem → u.pc.toNat = s.dataAddr 0 →
      u.fetch = some (wordOfBytes (s.v 0) (s.v 1))

/-! ## Invariants and whole-machine rules -/

/-- The invariants hold at reset. -/
def Obligations.InvariantsHoldAtReset : Prop :=
  State.reset.Inv ∧ State.reset.PcInRange ∧ State.reset.AwaitsAtFx0a

/-- Every step keeps memory and framebuffer canonical, at most one key pressed and the latch quiet (R31, R33,
R34, R206). -/
def Obligations.StepKeepsDataInvariant : Prop := ∀ s t : State, s.Inv → step s = .next t → t.Inv

/-- Every step keeps the pc where 16-bit arithmetic does not wrap (R27). -/
def Obligations.StepKeepsPcInRange : Prop := ∀ s t : State, s.PcInRange → step s = .next t → t.PcInRange

/-- Every step keeps AwaitingKey at an FX0A that the next step executes again (R207, R240). -/
def Obligations.StepKeepsAwaitingAtFx0a : Prop :=
  ∀ s t : State, s.AwaitsAtFx0a → step s = .next t → t.AwaitsAtFx0a

/-- Every transaction of the host keeps the data invariant (R31, R50, R232, R233, R250, R253, R256). -/
def Obligations.TransactionsKeepDataInvariant : Prop :=
  ∀ (s : State) (tr : Transaction), s.Inv → (s.transact tr).Inv

/-- Debug-enabled and the remembered ROM change no rule of the block: a step from the same state with another
debug bit and another remembered ROM does the same, and leaves those two as they were (R38, R41). -/
def Obligations.DebugAndRomAreInert : Prop :=
  ∀ (s : State) (b : Bool) (rom : Option (List Byte)),
    step { s with debug := b, rom := rom } =
      match step s with
      | .next t => .next { t with debug := b, rom := rom }
      | .fault r => .fault r
      | .refused r => .refused r

/-- Debug-enabled, the remembered ROM and the parameters are written by no step, and the parameters by no
transaction (R8, R38, R41). That the parameters stand in the state is the model's choice (assumption log 1). -/
def Obligations.StepsKeepHostState : Prop :=
  ∀ s t : State,
    (step s = .next t → t.debug = s.debug ∧ t.rom = s.rom ∧ t.params = s.params) ∧
    ∀ tr : Transaction, (s.transact tr).params = s.params

/-- Exit-requested: no step clears it, a step sets it exactly by executing EXIT, and of the transactions only
`initialize` and `reset` clear it (R36, R200). -/
def Obligations.ExitRequestedIsSticky : Prop :=
  (∀ s t : State, step s = .next t →
    (t.exitRequested = true ↔ s.exitRequested = true ∨
      (s.fault = none ∧ ∃ op g, s.fetch = some op ∧ decodeWith s.params op = .exit g))) ∧
  ∀ (s : State) (tr : Transaction), s.exitRequested = true →
    ((s.transact tr).exitRequested = false ↔ tr = .init ∨ ∃ b, tr = .reset b)

/-- Which instructions write which general registers: R23's table. -/
def Obligations.RegisterWriters : Prop :=
  ∀ (i : Instr) (s t : State) (y : Reg), exec i s = .next t → mayWriteV i y = false → t.v y = s.v y

/-- Every other part of the state has only the writers its rule names (R24, R28–R32, R34–R38, R46, R60). -/
def Obligations.PartWriters : Prop :=
  ∀ (i : Instr) (s t : State) (p : Part), exec i s = .next t → (∀ x, p ≠ .v x) → p ≠ .pc →
    mayWritePart p i = false → p.same s t

/-! ## Control flow -/

/-- JP NNN and JP V0, NNN: the target, unmasked, and nothing else (R100, R107). -/
def Obligations.JumpsSetPc : Prop :=
  ∀ (nnn : Addr) (s : State),
    (∃ t, exec (.jp nnn) s = .next t ∧ t.pc.toNat = nnn.toNat ∧ KeepsAllBut (fun p => p = .pc) s t) ∧
    (∃ t, exec (.jpV0 nnn) s = .next t ∧ t.pc.toNat = nnn.toNat + (s.v 0).toNat ∧
      KeepsAllBut (fun p => p = .pc) s t)

/-- CALL NNN: with fewer than 16 entries in use the CALL's own address is pushed and pc is NNN; with 16 it
raises StackOverflow and keeps everything else (R101, R223). -/
def Obligations.CallPushesItsAddress : Prop :=
  ∀ (nnn : Addr) (s : State),
    (∀ h : s.sp.val < 16, ∃ t, exec (.call nnn) s = .next t ∧ t.stack[s.sp.val] = s.pc ∧
      t.sp.val = s.sp.val + 1 ∧ t.pc.toNat = nnn.toNat ∧
      KeepsAllBut (fun p => p = .stackEntry ⟨s.sp.val, h⟩ ∨ p = .sp ∨ p = .pc) s t) ∧
    (s.sp.val = 16 → ∃ t, exec (.call nnn) s = .next t ∧
      t.fault = some ⟨.stackOverflow, s.pc, some (encode (.call nnn)), none⟩ ∧
      KeepsAllBut (fun p => p = .fault) s t)

/-- RET: with an entry in use, pc is the popped value plus 2 and the entry is kept; with none it raises
StackUnderflow and keeps everything else (R102, R223). -/
def Obligations.RetReturnsPastTheCall : Prop :=
  ∀ (g : Nibble) (s : State),
    (∀ h : 0 < s.sp.val, ∃ t, exec (.ret g) s = .next t ∧ t.sp.val = s.sp.val - 1 ∧
      t.pc.toNat = ((s.stack[s.sp.val - 1]'(by omega)).toNat + 2) % 65536 ∧
      KeepsAllBut (fun p => p = .sp ∨ p = .pc) s t) ∧
    (s.sp.val = 0 → ∃ t, exec (.ret g) s = .next t ∧
      t.fault = some ⟨.stackUnderflow, s.pc, some (encode (.ret g)), none⟩ ∧
      KeepsAllBut (fun p => p = .fault) s t)

/-- A CALL and then a RET with the stack as the CALL left it go on after the CALL, with sp as before
(R101, R102). -/
def Obligations.CallThenRet : Prop :=
  ∀ (nnn : Addr) (g : Nibble) (s t u : State), s.sp.val < 16 → exec (.call nnn) s = .next t →
    u.stack = t.stack → u.sp = t.sp →
    ∃ w, exec (.ret g) u = .next w ∧ w.pc = s.pc + 2 ∧ w.sp = s.sp

/-- The four conditional skips: pc + 4 where the condition holds, else pc + 2, mod 65536, and nothing else
(R103, R104, R105, R106, R108). -/
def Obligations.SkipsTestTheirCondition : Prop :=
  ∀ (x y : Reg) (nn : Byte) (g : Nibble) (s : State),
    (∃ t, exec (.seImm x nn) s = .next t ∧
      t.pc.toNat = (s.pc.toNat + if (s.v x).toNat = nn.toNat then 4 else 2) % 65536 ∧
      KeepsAllBut (fun p => p = .pc) s t) ∧
    (∃ t, exec (.sneImm x nn) s = .next t ∧
      t.pc.toNat = (s.pc.toNat + if (s.v x).toNat ≠ nn.toNat then 4 else 2) % 65536 ∧
      KeepsAllBut (fun p => p = .pc) s t) ∧
    (∃ t, exec (.seReg x y g) s = .next t ∧
      t.pc.toNat = (s.pc.toNat + if (s.v x).toNat = (s.v y).toNat then 4 else 2) % 65536 ∧
      KeepsAllBut (fun p => p = .pc) s t) ∧
    (∃ t, exec (.sneReg x y g) s = .next t ∧
      t.pc.toNat = (s.pc.toNat + if (s.v x).toNat ≠ (s.v y).toNat then 4 else 2) % 65536 ∧
      KeepsAllBut (fun p => p = .pc) s t)

/-! ## Arithmetic, logic, immediate and random -/

/-- LD, OR, AND and XOR of two registers: the result in VX, VF not written unless X = F, pc + 2, and nothing
else (R121, R122, R123, R124). -/
def Obligations.MovesAndLogic : Prop :=
  ∀ (x y : Reg) (s : State),
    (∃ t, exec (.ldReg x y) s = .next t ∧ t.v x = s.v y ∧ t.pc = s.pc + 2 ∧
      KeepsAllBut (fun p => p = .v x ∨ p = .pc) s t) ∧
    (∃ t, exec (.orReg x y) s = .next t ∧ (∀ b, (t.v x).getLsbD b = ((s.v x).getLsbD b || (s.v y).getLsbD b)) ∧
      t.pc = s.pc + 2 ∧ KeepsAllBut (fun p => p = .v x ∨ p = .pc) s t) ∧
    (∃ t, exec (.andReg x y) s = .next t ∧ (∀ b, (t.v x).getLsbD b = ((s.v x).getLsbD b && (s.v y).getLsbD b)) ∧
      t.pc = s.pc + 2 ∧ KeepsAllBut (fun p => p = .v x ∨ p = .pc) s t) ∧
    (∃ t, exec (.xorReg x y) s = .next t ∧
      (∀ b, (t.v x).getLsbD b = ((s.v x).getLsbD b != (s.v y).getLsbD b)) ∧
      t.pc = s.pc + 2 ∧ KeepsAllBut (fun p => p = .v x ∨ p = .pc) s t)

/-- LD VX, NN and ADD VX, NN: the immediate, and the sum mod 256 with no flag, pc + 2, and nothing else
(R129, R130). -/
def Obligations.ImmediatesWriteNoFlag : Prop :=
  ∀ (x : Reg) (nn : Byte) (s : State),
    (∃ t, exec (.ldImm x nn) s = .next t ∧ t.v x = nn ∧ t.pc = s.pc + 2 ∧
      KeepsAllBut (fun p => p = .v x ∨ p = .pc) s t) ∧
    (∃ t, exec (.addImm x nn) s = .next t ∧ (t.v x).toNat = ((s.v x).toNat + nn.toNat) % 256 ∧
      t.pc = s.pc + 2 ∧ KeepsAllBut (fun p => p = .v x ∨ p = .pc) s t)

/-- ADD VX, VY: with f the carry of the original values, VX is the sum mod 256 of the operands as VF_ORDER
reads them, and VF is f unless X = F, when the sum overwrites it (R125, R120, R133). -/
def Obligations.AddSetsCarry : Prop :=
  ∀ (x y : Reg) (s : State),
    let f : Byte := if (s.v x).toNat + (s.v y).toNat > 0xFF then 1 else 0
    let a := operandValue s.params.vfOrder x (s.v x) f
    let b := operandValue s.params.vfOrder y (s.v y) f
    ∃ t, exec (.addReg x y) s = .next t ∧ (t.v x).toNat = (a.toNat + b.toNat) % 256 ∧
      (x ≠ vf → t.v vf = f) ∧ t.pc = s.pc + 2 ∧
      KeepsAllBut (fun p => p = .v x ∨ p = .v vf ∨ p = .pc) s t

/-- SUB and SUBN: with f the no-borrow of the original values, VX is the difference mod 256 of the operands as
VF_ORDER reads them, and VF is f unless X = F, when the difference overwrites it (R126, R128, R120, R133). -/
def Obligations.SubtractionsSetNoBorrow : Prop :=
  ∀ (x y : Reg) (s : State),
    (let f : Byte := if (s.v x).toNat ≥ (s.v y).toNat then 1 else 0
     let a := operandValue s.params.vfOrder x (s.v x) f
     let b := operandValue s.params.vfOrder y (s.v y) f
     ∃ t, exec (.subReg x y) s = .next t ∧ (t.v x).toNat = (a.toNat + 256 - b.toNat) % 256 ∧
       (x ≠ vf → t.v vf = f) ∧ t.pc = s.pc + 2 ∧
       KeepsAllBut (fun p => p = .v x ∨ p = .v vf ∨ p = .pc) s t) ∧
    (let f : Byte := if (s.v y).toNat ≥ (s.v x).toNat then 1 else 0
     let a := operandValue s.params.vfOrder x (s.v x) f
     let b := operandValue s.params.vfOrder y (s.v y) f
     ∃ t, exec (.subn x y) s = .next t ∧ (t.v x).toNat = (b.toNat + 256 - a.toNat) % 256 ∧
       (x ≠ vf → t.v vf = f) ∧ t.pc = s.pc + 2 ∧
       KeepsAllBut (fun p => p = .v x ∨ p = .v vf ∨ p = .pc) s t)

/-- SHR and SHL: VF takes the bit shifted out of VX, VX is half or twice the operand as VF_ORDER reads it, and
Y has no effect at any value (R127, R132, R120). -/
def Obligations.ShiftsMoveOneBitOut : Prop :=
  ∀ (x y : Reg) (s : State),
    (let f : Byte := if (s.v x).toNat % 2 = 1 then 1 else 0
     let a := operandValue s.params.vfOrder x (s.v x) f
     ∃ t, exec (.shr x y) s = .next t ∧ (t.v x).toNat = a.toNat / 2 ∧ (x ≠ vf → t.v vf = f) ∧
       t.pc = s.pc + 2 ∧ KeepsAllBut (fun p => p = .v x ∨ p = .v vf ∨ p = .pc) s t) ∧
    (let f : Byte := if (s.v x).toNat ≥ 0x80 then 1 else 0
     let a := operandValue s.params.vfOrder x (s.v x) f
     ∃ t, exec (.shl x y) s = .next t ∧ (t.v x).toNat = 2 * a.toNat % 256 ∧ (x ≠ vf → t.v vf = f) ∧
       t.pc = s.pc + 2 ∧ KeepsAllBut (fun p => p = .v x ∨ p = .v vf ∨ p = .pc) s t)

/-- RND VX, NN: whatever byte r is drawn, which neither X nor NN chooses, VX is r AND NN, the draw is used up,
pc + 2, and nothing else (R131, R42). The count of draws is the model's own field (assumption log 2). -/
def Obligations.RndMasksOneDraw : Prop :=
  ∀ s : State, ∃ r : Byte, ∀ (x : Reg) (nn : Byte),
    ∃ t, exec (.rnd x nn) s = .next t ∧ t.v x = r &&& nn ∧ t.draws = s.draws + 1 ∧ t.pc = s.pc + 2 ∧
      KeepsAllBut (fun p => p = .v x ∨ p = .draws ∨ p = .pc) s t

/-! ## Graphics -/

/-- CLS clears all 8192 cells, sets draw-occurred and leaves VF (R141). -/
def Obligations.ClsClearsEveryCell : Prop :=
  ∀ (g : Nibble) (s : State),
    ∃ t, exec (.cls g) s = .next t ∧ (∀ k, t.fb.cell k = false) ∧ t.draw = true ∧ t.pc = s.pc + 2 ∧
      KeepsAllBut (fun p => (∃ k, p = .cell k) ∨ p = .draw ∨ p = .pc) s t

/-- SCD n: each pixel of the active region takes the one n rows above it, the top n rows become 0, and the cells
outside the region stay (R142, R147). -/
def Obligations.ScrollDownMovesRows : Prop :=
  ∀ (g n : Nibble) (s : State),
    ∃ t, exec (.scd g n) s = .next t ∧
      (∀ x y, x < s.width → y < s.height →
        t.fb.cell (y * s.width + x) =
          if n.toNat ≤ y then s.fb.cell ((y - n.toNat) * s.width + x) else false) ∧
      t.draw = true ∧ t.pc = s.pc + 2 ∧
      KeepsAllBut (fun p => (∃ k, k < s.width * s.height ∧ p = .cell k) ∨ p = .draw ∨ p = .pc) s t

/-- SCR and SCL: each pixel takes the one SCROLL_H columns to its left, or right, in its own row, the vacated
columns become 0, and the cells outside the region stay (R143, R144, R147, D15). -/
def Obligations.SideScrollsMoveColumns : Prop :=
  ∀ (g : Nibble) (s : State),
    (∃ t, exec (.scr g) s = .next t ∧
      (∀ x y, x < s.width → y < s.height →
        t.fb.cell (y * s.width + x) =
          if s.params.scrollH ≤ x then s.fb.cell (y * s.width + (x - s.params.scrollH)) else false) ∧
      t.draw = true ∧ t.pc = s.pc + 2 ∧
      KeepsAllBut (fun p => (∃ k, k < s.width * s.height ∧ p = .cell k) ∨ p = .draw ∨ p = .pc) s t) ∧
    (∃ t, exec (.scl g) s = .next t ∧
      (∀ x y, x < s.width → y < s.height →
        t.fb.cell (y * s.width + x) =
          if x + s.params.scrollH < s.width then s.fb.cell (y * s.width + (x + s.params.scrollH)) else false) ∧
      t.draw = true ∧ t.pc = s.pc + 2 ∧
      KeepsAllBut (fun p => (∃ k, k < s.width * s.height ∧ p = .cell k) ∨ p = .draw ∨ p = .pc) s t)

/-- LOW and HIGH change the mode, mark draw-occurred and move no cell: the active region becomes 64×32, or
128×64, over the same cells (R145, R146, R43). -/
def Obligations.ModeSwitchesKeepCells : Prop :=
  ∀ (g : Nibble) (s : State),
    (∃ t, exec (.low g) s = .next t ∧ t.extended = false ∧ t.width = 64 ∧ t.height = 32 ∧ t.draw = true ∧
      t.pc = s.pc + 2 ∧ KeepsAllBut (fun p => p = .extended ∨ p = .draw ∨ p = .pc) s t) ∧
    (∃ t, exec (.high g) s = .next t ∧ t.extended = true ∧ t.width = 128 ∧ t.height = 64 ∧ t.draw = true ∧
      t.pc = s.pc + 2 ∧ KeepsAllBut (fun p => p = .extended ∨ p = .draw ∨ p = .pc) s t)

/-- DRW VX, VY, N: a cell is inverted exactly when some set bit of the sprite reaches it, at
`((y0 + r)·W + (x0 + c)) mod (W·H)`; VF is 1 when a cell that held 1 was inverted and else 0; draw-occurred is
set; I and all else are kept. The sprite is 16 rows of 16 bits, high byte first, when N = 0 in extended mode,
else N rows of 8 bits, the most significant bit leftmost, read at I (R140, R147, R63). -/
def Obligations.DrawXorsSprite : Prop :=
  ∀ (x y : Reg) (n : Nibble) (s : State),
    let big := n = 0x0 ∧ s.extended = true
    let rows := if n = 0x0 ∧ s.extended = true then 16 else n.toNat
    let width := if n = 0x0 ∧ s.extended = true then 16 else 8
    let bit (r c : Nat) : Bool :=
      if n = 0x0 ∧ s.extended = true then
        (if c < 8 then (s.memRead (s.i.toNat + 2 * r)).getLsbD (7 - c)
         else (s.memRead (s.i.toNat + 2 * r + 1)).getLsbD (15 - c))
      else (s.memRead (s.i.toNat + r)).getLsbD (7 - c)
    let hits (k : Nat) : Prop := ∃ r c, r < rows ∧ c < width ∧ bit r c = true ∧
      k = (((s.v y).toNat + r) * s.width + ((s.v x).toNat + c)) % (s.width * s.height)
    ∃ t, exec (.drw x y n) s = .next t ∧
      (∀ k, hits k → t.fb.cell k = !s.fb.cell k) ∧
      (∀ k, ¬ hits k → t.fb.cell k = s.fb.cell k) ∧
      (t.v vf = 1 ∨ t.v vf = 0) ∧ (t.v vf = 1 ↔ ∃ k, hits k ∧ s.fb.cell k = true) ∧
      (n = 0x0 → ¬ big → t.v vf = 0) ∧
      t.draw = true ∧ t.pc = s.pc + 2 ∧
      KeepsAllBut (fun p => (∃ k, k < s.width * s.height ∧ p = .cell k) ∨ p = .v vf ∨ p = .draw ∨ p = .pc) s t

/-- Drawing the same sprite twice at the same coordinates gives the picture back, and over a blank screen the
second draw collides exactly when the sprite has a set bit (R140; 95 S7). -/
def Obligations.DrawingTwiceErases : Prop :=
  ∀ (x y : Reg) (n : Nibble) (s t : State), x ≠ vf → y ≠ vf → exec (.drw x y n) s = .next t →
    ∃ u, exec (.drw x y n) t = .next u ∧ (∀ k, u.fb.cell k = s.fb.cell k) ∧
      ((∀ k, s.fb.cell k = false) → (u.v vf = 1 ↔ ∃ k, t.fb.cell k = true))

/-! ## Timers and keys -/

/-- LD VX, DT; LD DT, VX; LD ST, VX: a plain copy, no flag, no beep, pc + 2, and nothing else
(R160, R161, R162). -/
def Obligations.TimerTransfers : Prop :=
  ∀ (x : Reg) (s : State),
    (∃ t, exec (.ldVxDt x) s = .next t ∧ t.v x = s.dt ∧ t.pc = s.pc + 2 ∧
      KeepsAllBut (fun p => p = .v x ∨ p = .pc) s t) ∧
    (∃ t, exec (.ldDtVx x) s = .next t ∧ t.dt = s.v x ∧ t.pc = s.pc + 2 ∧
      KeepsAllBut (fun p => p = .dt ∨ p = .pc) s t) ∧
    (∃ t, exec (.ldStVx x) s = .next t ∧ t.st = s.v x ∧ t.pc = s.pc + 2 ∧
      KeepsAllBut (fun p => p = .st ∨ p = .pc) s t)

/-- SKP and SKNP with VX at most 15: skip on the key's flag, or on its absence; SKP then holds the key released,
SKNP changes the latch not at all (R163, R164, R108). -/
def Obligations.KeySkipsTestTheKey : Prop :=
  ∀ (x : Reg) (g k : Nibble) (s : State), (s.v x).toNat = k.toNat →
    (∃ t, exec (.skp x g) s = .next t ∧
      t.pc.toNat = (s.pc.toNat + if s.key k = true then 4 else 2) % 65536 ∧ t.key k = false ∧
      KeepsAllBut (fun p => p = .key k ∨ p = .pc) s t) ∧
    (∃ t, exec (.sknp x g) s = .next t ∧
      t.pc.toNat = (s.pc.toNat + if s.key k = false then 4 else 2) % 65536 ∧
      KeepsAllBut (fun p => p = .pc) s t)

/-- SKP and SKNP with VX above 15 raise KeyIndexOutOfRange, which records the value, and keep everything else
(R163, R164, R221, R223). -/
def Obligations.KeyIndexOutOfRangeFaults : Prop :=
  ∀ (x : Reg) (g : Nibble) (s : State), 15 < (s.v x).toNat →
    (∃ t, exec (.skp x g) s = .next t ∧
      t.fault = some ⟨.keyIndexOutOfRange, s.pc, some (encode (.skp x g)), some (s.v x)⟩ ∧
      KeepsAllBut (fun p => p = .fault) s t) ∧
    (∃ t, exec (.sknp x g) s = .next t ∧
      t.fault = some ⟨.keyIndexOutOfRange, s.pc, some (encode (.sknp x g)), some (s.v x)⟩ ∧
      KeepsAllBut (fun p => p = .fault) s t)

/-- LD VX, K: with no key pressed it sets awaiting-key and keeps pc; with a key pressed it takes the least one
into VX, clears all keys, clears awaiting-key and advances (R165). -/
def Obligations.AwaitKeyWaitsOrTakesTheLeast : Prop :=
  ∀ (x : Reg) (s : State),
    ((∀ k, s.key k = false) → ∃ t, exec (.ldVxK x) s = .next t ∧ t.awaitingKey = true ∧
      KeepsAllBut (fun p => p = .awaitingKey) s t) ∧
    (∀ k, s.key k = true → (∀ j : Nibble, j.toNat < k.toNat → s.key j = false) →
      ∃ t, exec (.ldVxK x) s = .next t ∧ (t.v x).toNat = k.toNat ∧ (∀ j, t.key j = false) ∧
        t.awaitingKey = false ∧ t.pc = s.pc + 2 ∧
        KeepsAllBut (fun p => p = .v x ∨ (∃ j, p = .key j) ∨ p = .awaitingKey ∨ p = .pc) s t)

/-! ## Index register, memory and RPL -/

/-- LD I, NNN and ADD I, VX: the address; and VF = 1 exactly past 0xFFF, then I plus the operand as VF_ORDER
reads it, mod 65536 (R180, R181, R120). -/
def Obligations.IndexLoadsAndAdds : Prop :=
  ∀ (x : Reg) (nnn : Addr) (s : State),
    (∃ t, exec (.ldI nnn) s = .next t ∧ t.i.toNat = nnn.toNat ∧ t.pc = s.pc + 2 ∧
      KeepsAllBut (fun p => p = .i ∨ p = .pc) s t) ∧
    (let f : Byte := if s.i.toNat + (s.v x).toNat > 0xFFF then 1 else 0
     let a := operandValue s.params.vfOrder x (s.v x) f
     ∃ t, exec (.addIVx x) s = .next t ∧ t.v vf = f ∧ t.i.toNat = (s.i.toNat + a.toNat) % 65536 ∧
       t.pc = s.pc + 2 ∧ KeepsAllBut (fun p => p = .i ∨ p = .v vf ∨ p = .pc) s t)

/-- LD F, VX and LD HF, VX: I is the base plus 5, or 10, times the whole of VX, for bases in the range 93 gives
them (R182, R183). -/
def Obligations.FontAddresses : Prop :=
  ∀ (x : Reg) (s : State), s.params.fontSmallBase + 80 ≤ 0x200 → s.params.fontBigBase + 160 ≤ 0x200 →
    (∃ t, exec (.ldFVx x) s = .next t ∧ t.i.toNat = s.params.fontSmallBase + 5 * (s.v x).toNat ∧
      t.pc = s.pc + 2 ∧ KeepsAllBut (fun p => p = .i ∨ p = .pc) s t) ∧
    (∃ t, exec (.ldHfVx x) s = .next t ∧ t.i.toNat = s.params.fontBigBase + 10 * (s.v x).toNat ∧
      t.pc = s.pc + 2 ∧ KeepsAllBut (fun p => p = .i ∨ p = .pc) s t)

/-- LD B, VX: the three decimal digits at I, I+1 and I+2, each address modulo 4096; I and every other byte are
kept (R184, R63). -/
def Obligations.BcdStoresThreeDigits : Prop :=
  ∀ (x : Reg) (s : State),
    ∃ t, exec (.ldBVx x) s = .next t ∧
      (t.memRead s.i.toNat).toNat = (s.v x).toNat / 100 ∧
      (t.memRead (s.i.toNat + 1)).toNat = (s.v x).toNat / 10 % 10 ∧
      (t.memRead (s.i.toNat + 2)).toNat = (s.v x).toNat % 10 ∧
      t.pc = s.pc + 2 ∧
      KeepsAllBut (fun p => p = .byte (s.dataAddr 0) ∨ p = .byte (s.dataAddr 1) ∨ p = .byte (s.dataAddr 2) ∨
        p = .pc) s t

/-- LD [I], VX: V0..VX at I, I+1, …, each address modulo 4096; I and every other byte are kept (R185, R63). -/
def Obligations.StoreWritesTheRange : Prop :=
  ∀ (x : Reg) (s : State),
    ∃ t, exec (.ldMemVx x) s = .next t ∧
      (∀ k : Reg, k.toNat ≤ x.toNat → t.memRead (s.i.toNat + k.toNat) = s.v k) ∧ t.pc = s.pc + 2 ∧
      KeepsAllBut (fun p => (∃ k, k ≤ x.toNat ∧ p = .byte (s.dataAddr k)) ∨ p = .pc) s t

/-- LD VX, [I]: V0..VX from I, I+1, …, each address modulo 4096; I, memory and every other register are kept
(R186, R63). -/
def Obligations.LoadReadsTheRange : Prop :=
  ∀ (x : Reg) (s : State),
    ∃ t, exec (.ldVxMem x) s = .next t ∧
      (∀ k : Reg, k.toNat ≤ x.toNat → t.v k = s.memRead (s.i.toNat + k.toNat)) ∧ t.pc = s.pc + 2 ∧
      KeepsAllBut (fun p => (∃ k : Reg, k.toNat ≤ x.toNat ∧ p = .v k) ∨ p = .pc) s t

/-- What FX55 stores FX65 loads: from any state with the memory and I of a store, a load of the same range gives
the registers of before the store (R185, R186, R66). -/
def Obligations.LoadAfterStoreGivesRegisters : Prop :=
  ∀ (x : Reg) (s t u : State), exec (.ldMemVx x) s = .next t → u.mem = t.mem → u.i = s.i →
    ∃ w, exec (.ldVxMem x) u = .next w ∧ ∀ k : Reg, k.toNat ≤ x.toNat → w.v k = s.v k

/-- LD R, VX and LD VX, R: V0..Vmin(X,7) to and from the RPL bank, the index clamped, pc + 2, and nothing else
(R187, R188). -/
def Obligations.RplTransfersClamp : Prop :=
  ∀ (x : Reg) (s : State),
    (∃ t, exec (.ldRVx x) s = .next t ∧
      (∀ k : BitVec 3, k.toNat ≤ x.toNat → t.rplAt k = s.v (k.setWidth 4)) ∧ t.pc = s.pc + 2 ∧
      KeepsAllBut (fun p => (∃ k : BitVec 3, k.toNat ≤ x.toNat ∧ p = .rpl k) ∨ p = .pc) s t) ∧
    (∃ t, exec (.ldVxR x) s = .next t ∧
      (∀ k : BitVec 3, k.toNat ≤ x.toNat → t.v (k.setWidth 4) = s.rplAt k) ∧ t.pc = s.pc + 2 ∧
      KeepsAllBut (fun p => (∃ k : Reg, k.toNat ≤ x.toNat ∧ k.toNat ≤ 7 ∧ p = .v k) ∨ p = .pc) s t)

/-! ## System -/

/-- EXIT sets exit-requested and goes on at pc + 2 (R200). -/
def Obligations.ExitRequestsAndGoesOn : Prop :=
  ∀ (g : Nibble) (s : State),
    ∃ t, exec (.exit g) s = .next t ∧ t.exitRequested = true ∧ t.pc = s.pc + 2 ∧
      KeepsAllBut (fun p => p = .exitRequested ∨ p = .pc) s t

/-- UNKNOWN, where SCROLL_UP_ENCODING is none: the word is reported and pc advances by 2, and no other state
changes (R201). Where it is 00Bn (and, under STRICT_DECODE, the word has 0 in op[11:8]) a word 00Bn scrolls the
active region up by n rows instead (93 Part 1; assumption log 11). -/
def Obligations.UnknownIsReportedNoOp : Prop :=
  ∀ (op : Word) (s : State),
    ((s.params.scrollUp = .absent ∨ op.toNat / 4096 ≠ 0x0 ∨ op.toNat / 16 % 16 ≠ 0xB ∨
        (s.params.strictDecode = true ∧ op.toNat / 256 % 16 ≠ 0x0)) →
      ∃ t, exec (.unknown op) s = .next t ∧ t.unknown = some op ∧ t.pc = s.pc + 2 ∧
        KeepsAllBut (fun p => p = .unknown ∨ p = .pc) s t) ∧
    (s.params.scrollUp = .bn → op.toNat / 4096 = 0x0 → op.toNat / 16 % 16 = 0xB →
      (s.params.strictDecode = false ∨ op.toNat / 256 % 16 = 0x0) →
      ∃ t, exec (.unknown op) s = .next t ∧
        (∀ x y, x < s.width → y < s.height →
          t.fb.cell (y * s.width + x) =
            if y + op.toNat % 16 < s.height then s.fb.cell ((y + op.toNat % 16) * s.width + x) else false) ∧
        t.draw = true ∧ t.pc = s.pc + 2 ∧
        KeepsAllBut (fun p => (∃ k, k < s.width * s.height ∧ p = .cell k) ∨ p = .draw ∨ p = .pc) s t)

/-- The words Fx00 and FxFn are refused in every state, under a mark that names the word (R202, R90, R189). -/
def Obligations.UnmodelledWordsAreRefused : Prop :=
  ∀ (x : Reg) (n : Nibble) (s : State),
    (∃ op : Word, op.toNat = 0xF000 + x.toNat * 256 ∧
      exec (.unmodelledFx00 x) s = .refused (.setIndexFormUnspecified op)) ∧
    (∃ op : Word, op.toNat = 0xF0F0 + x.toNat * 256 + n.toNat ∧
      exec (.unmodelledFxFn x n) s = .refused (.setIndexFormUnspecified op))

/-! ## The host's transactions -/

/-- `initialize` and the reset state: every piece of state at its value of R55, with memory holding the two
tables at their bases and 0 elsewhere, for tables and bases in the ranges 93 gives them (R55, R250). -/
def Obligations.InitializeSetsEveryValue : Prop :=
  ∀ s : State, paramsWf s.params →
    let t := s.transact .init
    (∀ x, t.v x = 0) ∧ t.i = 0 ∧ t.pc = 0x200 ∧ t.sp.val = 0 ∧ (∀ k : Fin 16, t.stack[k] = 0) ∧ t.dt = 0 ∧
    t.st = 0 ∧ (∀ k, t.key k = false) ∧ (∀ k, t.rplAt k = 0) ∧ (∀ k, t.fb.cell k = false) ∧
    t.extended = false ∧ t.exitRequested = false ∧ t.awaitingKey = false ∧ t.draw = false ∧ t.beep = false ∧
    t.debug = false ∧ t.fault = none ∧ t.rom = none ∧
    (∀ k, k < 80 → t.memRead (s.params.fontSmallBase + k) = s.params.fontSmall.getD k 0) ∧
    (∀ k, k < 160 → t.memRead (s.params.fontBigBase + k) = s.params.fontBig.getD k 0) ∧
    (∀ a, a < 4096 → (a < s.params.fontSmallBase ∨ s.params.fontSmallBase + 80 ≤ a) →
      (a < s.params.fontBigBase ∨ s.params.fontBigBase + 160 ≤ a) → t.memRead a = 0) ∧
    State.reset.transact .init = State.reset

/-- `load`: more than 3583 bytes or an unreadable source is a LoadError and changes nothing; else the bytes stand
from 0x200 on, the ROM is remembered, and nothing else changes (R256, R257). -/
def Obligations.LoadCopiesOrFails : Prop :=
  ∀ (s : State) (bytes : List Byte) (readable : Bool),
    (readable = false ∨ 3583 < bytes.length →
      s.load bytes readable = .error .rejected ∧ s.transact (.load bytes readable) = s) ∧
    (readable = true → bytes.length ≤ 3583 →
      ∃ t, s.load bytes readable = .ok t ∧ s.transact (.load bytes readable) = t ∧ t.rom = some bytes ∧
        (∀ k, k < bytes.length → t.memRead (0x200 + k) = bytes.getD k 0) ∧
        KeepsAllBut (fun p => (∃ k, k < bytes.length ∧ p = .byte (0x200 + k)) ∨ p = .rom) s t)

/-- `reset`: initialize, then load the remembered ROM, keeping the debug bit and, where RPL_ON_RESET is
Preserve, the RPL bank; with no remembered ROM or a failed reload it returns a LoadError and leaves the machine
initialized with no program (R251, R253). -/
def Obligations.ResetReloadsTheRom : Prop :=
  ∀ (s : State) (readable : Bool),
    let t := (s.hostReset readable).1
    let z := s.transact .init
    ((s.hostReset readable).2 = none ↔ readable = true ∧ ∃ rom, s.rom = some rom ∧ rom.length ≤ 3583) ∧
    (s.rom = none → (s.hostReset readable).2 = some .noRom) ∧
    t.debug = s.debug ∧
    (∀ k, t.rplAt k = match s.params.rplOnReset with | .preserve => s.rplAt k | .clear => 0) ∧
    ((s.hostReset readable).2 ≠ none →
      KeepsAllBut (fun p => p = .debug ∨ ∃ k, p = .rpl k) z t) ∧
    (∀ rom, (s.hostReset readable).2 = none → s.rom = some rom →
      t.rom = some rom ∧ (∀ k, k < rom.length → t.memRead (0x200 + k) = rom.getD k 0) ∧
      KeepsAllBut (fun p => p = .debug ∨ (∃ k, p = .rpl k) ∨ p = .rom ∨
        ∃ k, k < rom.length ∧ p = .byte (0x200 + k)) z t)

/-- `setKey` makes k the sole pressed key and out of range does nothing; `clearKeys` clears all; `setDebug` sets
the debug bit; none touches anything else (R232, R233, R50). -/
def Obligations.KeyTransactions : Prop :=
  ∀ (s : State) (k : Int) (b : Bool),
    (∀ j : Nibble, k = j.toNat →
      (∀ i : Nibble, (s.transact (.setKey k)).key i = true ↔ i = j) ∧
      KeepsAllBut (fun p => ∃ i, p = .key i) s (s.transact (.setKey k))) ∧
    (k < 0 ∨ 15 < k → s.transact (.setKey k) = s) ∧
    (∀ i, (s.transact .clearKeys).key i = false) ∧
    KeepsAllBut (fun p => ∃ i, p = .key i) s (s.transact .clearKeys) ∧
    (s.transact (.setDebug b)).debug = b ∧
    KeepsAllBut (fun p => p = .debug) s (s.transact (.setDebug b))
end

