-- ==== Sys2Proof/Laws/Encoding.lean ====
section
/-! SUPPORT. Words and their fields: the fields of a word put together are those it was put together from, and
a word is put together from its fields. -/

namespace Sys2Proof

/-! ## As numbers -/

theorem nibH_toNat (op : Word) : (nibH op).toNat = op.toNat / 4096 := by
  have := op.isLt
  simp only [nibH, BitVec.extractLsb'_toNat, Nat.shiftRight_eq_div_pow]
  omega

theorem nibX_toNat (op : Word) : (nibX op).toNat = op.toNat / 256 % 16 := by
  simp [nibX, Nat.shiftRight_eq_div_pow]

theorem nibY_toNat (op : Word) : (nibY op).toNat = op.toNat / 16 % 16 := by
  simp [nibY, Nat.shiftRight_eq_div_pow]

theorem nibN_toNat (op : Word) : (nibN op).toNat = op.toNat % 16 := by simp [nibN]

theorem lowByte_toNat (op : Word) : (lowByte op).toNat = op.toNat % 256 := by simp [lowByte]

theorem lowAddr_toNat (op : Word) : (lowAddr op).toNat = op.toNat % 4096 := by simp [lowAddr]

theorem highByteOf_toNat (op : Word) : (highByteOf op).toNat = op.toNat / 256 := by
  have := op.isLt
  simp only [highByteOf, BitVec.extractLsb'_toNat, Nat.shiftRight_eq_div_pow]
  omega

theorem wordOfBytes_toNat (hi lo : Byte) : (wordOfBytes hi lo).toNat = hi.toNat * 256 + lo.toNat := by
  have h := lo.isLt
  simp only [wordOfBytes, BitVec.toNat_append]
  rw [← Nat.shiftLeft_add_eq_or_of_lt h, Nat.shiftLeft_eq]

theorem wordHXYN_toNat (h x y n : Nibble) :
    (wordHXYN h x y n).toNat = h.toNat * 4096 + x.toNat * 256 + y.toNat * 16 + n.toNat := by
  have hx := x.isLt
  have hy := y.isLt
  have hn := n.isLt
  simp only [wordHXYN, BitVec.toNat_append]
  rw [← Nat.shiftLeft_add_eq_or_of_lt hx, ← Nat.shiftLeft_add_eq_or_of_lt hy, ← Nat.shiftLeft_add_eq_or_of_lt hn]
  simp only [Nat.shiftLeft_eq]
  omega

theorem wordHXNN_toNat (h x : Nibble) (nn : Byte) :
    (wordHXNN h x nn).toNat = h.toNat * 4096 + x.toNat * 256 + nn.toNat := by
  have hx := x.isLt
  have hn := nn.isLt
  simp only [wordHXNN, BitVec.toNat_append]
  rw [← Nat.shiftLeft_add_eq_or_of_lt hx, ← Nat.shiftLeft_add_eq_or_of_lt hn]
  simp only [Nat.shiftLeft_eq]
  omega

theorem wordHNNN_toNat (h : Nibble) (nnn : Addr) : (wordHNNN h nnn).toNat = h.toNat * 4096 + nnn.toNat := by
  have hn := nnn.isLt
  simp only [wordHNNN, BitVec.toNat_append]
  rw [← Nat.shiftLeft_add_eq_or_of_lt hn, Nat.shiftLeft_eq]

/-! ## Tests of a field, as tests of the word's number -/

theorem nibH_eq_iff (op : Word) (c : Nibble) : nibH op = c ↔ op.toNat / 4096 = c.toNat := by
  rw [← nibH_toNat, BitVec.toNat_inj]

theorem nibX_eq_iff (op : Word) (c : Nibble) : nibX op = c ↔ op.toNat / 256 % 16 = c.toNat := by
  rw [← nibX_toNat, BitVec.toNat_inj]

theorem nibY_eq_iff (op : Word) (c : Nibble) : nibY op = c ↔ op.toNat / 16 % 16 = c.toNat := by
  rw [← nibY_toNat, BitVec.toNat_inj]

theorem nibN_eq_iff (op : Word) (c : Nibble) : nibN op = c ↔ op.toNat % 16 = c.toNat := by
  rw [← nibN_toNat, BitVec.toNat_inj]

theorem lowByte_eq_iff (op : Word) (c : Byte) : lowByte op = c ↔ op.toNat % 256 = c.toNat := by
  rw [← lowByte_toNat, BitVec.toNat_inj]

/-! ## Fields of a word put together -/

section
variable (h x y n : Nibble) (nn : Byte) (nnn : Addr)

@[simp] theorem nibH_wordHXYN : nibH (wordHXYN h x y n) = h := by
  apply BitVec.eq_of_toNat_eq; rw [nibH_toNat, wordHXYN_toNat]; omega

@[simp] theorem nibX_wordHXYN : nibX (wordHXYN h x y n) = x := by
  apply BitVec.eq_of_toNat_eq; rw [nibX_toNat, wordHXYN_toNat]; omega

@[simp] theorem nibY_wordHXYN : nibY (wordHXYN h x y n) = y := by
  apply BitVec.eq_of_toNat_eq; rw [nibY_toNat, wordHXYN_toNat]; omega

@[simp] theorem nibN_wordHXYN : nibN (wordHXYN h x y n) = n := by
  apply BitVec.eq_of_toNat_eq; rw [nibN_toNat, wordHXYN_toNat]; omega

theorem lowByte_wordHXYN : (lowByte (wordHXYN h x y n)).toNat = y.toNat * 16 + n.toNat := by
  rw [lowByte_toNat, wordHXYN_toNat]; omega

@[simp] theorem nibH_wordHXNN : nibH (wordHXNN h x nn) = h := by
  apply BitVec.eq_of_toNat_eq; rw [nibH_toNat, wordHXNN_toNat]; omega

@[simp] theorem nibX_wordHXNN : nibX (wordHXNN h x nn) = x := by
  apply BitVec.eq_of_toNat_eq; rw [nibX_toNat, wordHXNN_toNat]; omega

@[simp] theorem lowByte_wordHXNN : lowByte (wordHXNN h x nn) = nn := by
  apply BitVec.eq_of_toNat_eq; rw [lowByte_toNat, wordHXNN_toNat]; omega

theorem nibY_wordHXNN : (nibY (wordHXNN h x nn)).toNat = nn.toNat / 16 := by
  rw [nibY_toNat, wordHXNN_toNat]; omega

@[simp] theorem nibH_wordHNNN : nibH (wordHNNN h nnn) = h := by
  apply BitVec.eq_of_toNat_eq; rw [nibH_toNat, wordHNNN_toNat]; omega

@[simp] theorem lowAddr_wordHNNN : lowAddr (wordHNNN h nnn) = nnn := by
  apply BitVec.eq_of_toNat_eq; rw [lowAddr_toNat, wordHNNN_toNat]; omega

end

/-! ## A word put together from its fields -/

/-- A word is its nibbles (R9). -/
theorem wordHXYN_fields (op : Word) : wordHXYN (nibH op) (nibX op) (nibY op) (nibN op) = op := by
  apply BitVec.eq_of_toNat_eq
  rw [wordHXYN_toNat, nibH_toNat, nibX_toNat, nibY_toNat, nibN_toNat]; omega

theorem wordHXNN_fields (op : Word) : wordHXNN (nibH op) (nibX op) (lowByte op) = op := by
  apply BitVec.eq_of_toNat_eq
  rw [wordHXNN_toNat, nibH_toNat, nibX_toNat, lowByte_toNat]; omega

theorem wordHNNN_fields (op : Word) : wordHNNN (nibH op) (lowAddr op) = op := by
  apply BitVec.eq_of_toNat_eq
  rw [wordHNNN_toNat, nibH_toNat, lowAddr_toNat]; omega

/-- A word is its two bytes, the high byte at the lower address (R61, R64). -/
@[simp] theorem wordOfBytes_bytes (op : Word) : wordOfBytes (highByteOf op) (lowByte op) = op := by
  apply BitVec.eq_of_toNat_eq
  rw [wordOfBytes_toNat, highByteOf_toNat, lowByte_toNat]; omega

/-- Decoding the two bytes of a word is decoding the word. -/
theorem decodeBytes_wordBytes (op : Word) (rest : List Byte) :
    decodeBytes (wordBytes op ++ rest) = .ok (decode op, rest) := by
  simp [wordBytes, decodeBytes]

/-- With STRICT_DECODE off every word decodes as R92 says. -/
theorem decodeWith_off {p : Params} (h : p.strictDecode = false) (op : Word) : decodeWith p op = decode op := by
  simp [decodeWith, h]

end Sys2Proof
end

