-- ==== Sys2Proof/Laws/State.lean ====
section
/-! SUPPORT. For each named update of the state, what each field reads after it. Generated by one pattern, so
that no proof unfolds a record update. -/

namespace Sys2Proof.Machine

variable (s : State)

/-! ### memWrite -/
@[simp] theorem State.memWrite_regs (a : Nat) (b : Byte) : (s.memWrite a b).regs = s.regs := rfl
@[simp] theorem State.memWrite_i (a : Nat) (b : Byte) : (s.memWrite a b).i = s.i := rfl
@[simp] theorem State.memWrite_pc (a : Nat) (b : Byte) : (s.memWrite a b).pc = s.pc := rfl
@[simp] theorem State.memWrite_stack (a : Nat) (b : Byte) : (s.memWrite a b).stack = s.stack := rfl
@[simp] theorem State.memWrite_sp (a : Nat) (b : Byte) : (s.memWrite a b).sp = s.sp := rfl
@[simp] theorem State.memWrite_dt (a : Nat) (b : Byte) : (s.memWrite a b).dt = s.dt := rfl
@[simp] theorem State.memWrite_st (a : Nat) (b : Byte) : (s.memWrite a b).st = s.st := rfl
@[simp] theorem State.memWrite_keys (a : Nat) (b : Byte) : (s.memWrite a b).keys = s.keys := rfl
@[simp] theorem State.memWrite_rpl (a : Nat) (b : Byte) : (s.memWrite a b).rpl = s.rpl := rfl
@[simp] theorem State.memWrite_mem (a : Nat) (b : Byte) : (s.memWrite a b).mem = s.mem.write (a % memSize) b := rfl
@[simp] theorem State.memWrite_fb (a : Nat) (b : Byte) : (s.memWrite a b).fb = s.fb := rfl
@[simp] theorem State.memWrite_extended (a : Nat) (b : Byte) : (s.memWrite a b).extended = s.extended := rfl
@[simp] theorem State.memWrite_exitRequested (a : Nat) (b : Byte) : (s.memWrite a b).exitRequested = s.exitRequested := rfl
@[simp] theorem State.memWrite_awaitingKey (a : Nat) (b : Byte) : (s.memWrite a b).awaitingKey = s.awaitingKey := rfl
@[simp] theorem State.memWrite_debug (a : Nat) (b : Byte) : (s.memWrite a b).debug = s.debug := rfl
@[simp] theorem State.memWrite_draw (a : Nat) (b : Byte) : (s.memWrite a b).draw = s.draw := rfl
@[simp] theorem State.memWrite_beep (a : Nat) (b : Byte) : (s.memWrite a b).beep = s.beep := rfl
@[simp] theorem State.memWrite_fault (a : Nat) (b : Byte) : (s.memWrite a b).fault = s.fault := rfl
@[simp] theorem State.memWrite_rom (a : Nat) (b : Byte) : (s.memWrite a b).rom = s.rom := rfl
@[simp] theorem State.memWrite_unknown (a : Nat) (b : Byte) : (s.memWrite a b).unknown = s.unknown := rfl
@[simp] theorem State.memWrite_draws (a : Nat) (b : Byte) : (s.memWrite a b).draws = s.draws := rfl
@[simp] theorem State.memWrite_params (a : Nat) (b : Byte) : (s.memWrite a b).params = s.params := rfl

/-! ### dataWrite -/
@[simp] theorem State.dataWrite_regs (k : Nat) (b : Byte) : (s.dataWrite k b).regs = s.regs := rfl
@[simp] theorem State.dataWrite_i (k : Nat) (b : Byte) : (s.dataWrite k b).i = s.i := rfl
@[simp] theorem State.dataWrite_pc (k : Nat) (b : Byte) : (s.dataWrite k b).pc = s.pc := rfl
@[simp] theorem State.dataWrite_stack (k : Nat) (b : Byte) : (s.dataWrite k b).stack = s.stack := rfl
@[simp] theorem State.dataWrite_sp (k : Nat) (b : Byte) : (s.dataWrite k b).sp = s.sp := rfl
@[simp] theorem State.dataWrite_dt (k : Nat) (b : Byte) : (s.dataWrite k b).dt = s.dt := rfl
@[simp] theorem State.dataWrite_st (k : Nat) (b : Byte) : (s.dataWrite k b).st = s.st := rfl
@[simp] theorem State.dataWrite_keys (k : Nat) (b : Byte) : (s.dataWrite k b).keys = s.keys := rfl
@[simp] theorem State.dataWrite_rpl (k : Nat) (b : Byte) : (s.dataWrite k b).rpl = s.rpl := rfl
@[simp] theorem State.dataWrite_mem (k : Nat) (b : Byte) : (s.dataWrite k b).mem = s.mem.write (s.dataAddr k) b := rfl
@[simp] theorem State.dataWrite_fb (k : Nat) (b : Byte) : (s.dataWrite k b).fb = s.fb := rfl
@[simp] theorem State.dataWrite_extended (k : Nat) (b : Byte) : (s.dataWrite k b).extended = s.extended := rfl
@[simp] theorem State.dataWrite_exitRequested (k : Nat) (b : Byte) : (s.dataWrite k b).exitRequested = s.exitRequested := rfl
@[simp] theorem State.dataWrite_awaitingKey (k : Nat) (b : Byte) : (s.dataWrite k b).awaitingKey = s.awaitingKey := rfl
@[simp] theorem State.dataWrite_debug (k : Nat) (b : Byte) : (s.dataWrite k b).debug = s.debug := rfl
@[simp] theorem State.dataWrite_draw (k : Nat) (b : Byte) : (s.dataWrite k b).draw = s.draw := rfl
@[simp] theorem State.dataWrite_beep (k : Nat) (b : Byte) : (s.dataWrite k b).beep = s.beep := rfl
@[simp] theorem State.dataWrite_fault (k : Nat) (b : Byte) : (s.dataWrite k b).fault = s.fault := rfl
@[simp] theorem State.dataWrite_rom (k : Nat) (b : Byte) : (s.dataWrite k b).rom = s.rom := rfl
@[simp] theorem State.dataWrite_unknown (k : Nat) (b : Byte) : (s.dataWrite k b).unknown = s.unknown := rfl
@[simp] theorem State.dataWrite_draws (k : Nat) (b : Byte) : (s.dataWrite k b).draws = s.draws := rfl
@[simp] theorem State.dataWrite_params (k : Nat) (b : Byte) : (s.dataWrite k b).params = s.params := rfl

/-! ### setV -/
@[simp] theorem State.setV_i (x : Reg) (w : Byte) : (s.setV x w).i = s.i := rfl
@[simp] theorem State.setV_pc (x : Reg) (w : Byte) : (s.setV x w).pc = s.pc := rfl
@[simp] theorem State.setV_stack (x : Reg) (w : Byte) : (s.setV x w).stack = s.stack := rfl
@[simp] theorem State.setV_sp (x : Reg) (w : Byte) : (s.setV x w).sp = s.sp := rfl
@[simp] theorem State.setV_dt (x : Reg) (w : Byte) : (s.setV x w).dt = s.dt := rfl
@[simp] theorem State.setV_st (x : Reg) (w : Byte) : (s.setV x w).st = s.st := rfl
@[simp] theorem State.setV_keys (x : Reg) (w : Byte) : (s.setV x w).keys = s.keys := rfl
@[simp] theorem State.setV_rpl (x : Reg) (w : Byte) : (s.setV x w).rpl = s.rpl := rfl
@[simp] theorem State.setV_mem (x : Reg) (w : Byte) : (s.setV x w).mem = s.mem := rfl
@[simp] theorem State.setV_fb (x : Reg) (w : Byte) : (s.setV x w).fb = s.fb := rfl
@[simp] theorem State.setV_extended (x : Reg) (w : Byte) : (s.setV x w).extended = s.extended := rfl
@[simp] theorem State.setV_exitRequested (x : Reg) (w : Byte) : (s.setV x w).exitRequested = s.exitRequested := rfl
@[simp] theorem State.setV_awaitingKey (x : Reg) (w : Byte) : (s.setV x w).awaitingKey = s.awaitingKey := rfl
@[simp] theorem State.setV_debug (x : Reg) (w : Byte) : (s.setV x w).debug = s.debug := rfl
@[simp] theorem State.setV_draw (x : Reg) (w : Byte) : (s.setV x w).draw = s.draw := rfl
@[simp] theorem State.setV_beep (x : Reg) (w : Byte) : (s.setV x w).beep = s.beep := rfl
@[simp] theorem State.setV_fault (x : Reg) (w : Byte) : (s.setV x w).fault = s.fault := rfl
@[simp] theorem State.setV_rom (x : Reg) (w : Byte) : (s.setV x w).rom = s.rom := rfl
@[simp] theorem State.setV_unknown (x : Reg) (w : Byte) : (s.setV x w).unknown = s.unknown := rfl
@[simp] theorem State.setV_draws (x : Reg) (w : Byte) : (s.setV x w).draws = s.draws := rfl
@[simp] theorem State.setV_params (x : Reg) (w : Byte) : (s.setV x w).params = s.params := rfl

/-! ### setI -/
@[simp] theorem State.setI_regs (w : Word) : (s.setI w).regs = s.regs := rfl
@[simp] theorem State.setI_i (w : Word) : (s.setI w).i = w := rfl
@[simp] theorem State.setI_pc (w : Word) : (s.setI w).pc = s.pc := rfl
@[simp] theorem State.setI_stack (w : Word) : (s.setI w).stack = s.stack := rfl
@[simp] theorem State.setI_sp (w : Word) : (s.setI w).sp = s.sp := rfl
@[simp] theorem State.setI_dt (w : Word) : (s.setI w).dt = s.dt := rfl
@[simp] theorem State.setI_st (w : Word) : (s.setI w).st = s.st := rfl
@[simp] theorem State.setI_keys (w : Word) : (s.setI w).keys = s.keys := rfl
@[simp] theorem State.setI_rpl (w : Word) : (s.setI w).rpl = s.rpl := rfl
@[simp] theorem State.setI_mem (w : Word) : (s.setI w).mem = s.mem := rfl
@[simp] theorem State.setI_fb (w : Word) : (s.setI w).fb = s.fb := rfl
@[simp] theorem State.setI_extended (w : Word) : (s.setI w).extended = s.extended := rfl
@[simp] theorem State.setI_exitRequested (w : Word) : (s.setI w).exitRequested = s.exitRequested := rfl
@[simp] theorem State.setI_awaitingKey (w : Word) : (s.setI w).awaitingKey = s.awaitingKey := rfl
@[simp] theorem State.setI_debug (w : Word) : (s.setI w).debug = s.debug := rfl
@[simp] theorem State.setI_draw (w : Word) : (s.setI w).draw = s.draw := rfl
@[simp] theorem State.setI_beep (w : Word) : (s.setI w).beep = s.beep := rfl
@[simp] theorem State.setI_fault (w : Word) : (s.setI w).fault = s.fault := rfl
@[simp] theorem State.setI_rom (w : Word) : (s.setI w).rom = s.rom := rfl
@[simp] theorem State.setI_unknown (w : Word) : (s.setI w).unknown = s.unknown := rfl
@[simp] theorem State.setI_draws (w : Word) : (s.setI w).draws = s.draws := rfl
@[simp] theorem State.setI_params (w : Word) : (s.setI w).params = s.params := rfl

/-! ### setPc -/
@[simp] theorem State.setPc_regs (w : Word) : (s.setPc w).regs = s.regs := rfl
@[simp] theorem State.setPc_i (w : Word) : (s.setPc w).i = s.i := rfl
@[simp] theorem State.setPc_pc (w : Word) : (s.setPc w).pc = w := rfl
@[simp] theorem State.setPc_stack (w : Word) : (s.setPc w).stack = s.stack := rfl
@[simp] theorem State.setPc_sp (w : Word) : (s.setPc w).sp = s.sp := rfl
@[simp] theorem State.setPc_dt (w : Word) : (s.setPc w).dt = s.dt := rfl
@[simp] theorem State.setPc_st (w : Word) : (s.setPc w).st = s.st := rfl
@[simp] theorem State.setPc_keys (w : Word) : (s.setPc w).keys = s.keys := rfl
@[simp] theorem State.setPc_rpl (w : Word) : (s.setPc w).rpl = s.rpl := rfl
@[simp] theorem State.setPc_mem (w : Word) : (s.setPc w).mem = s.mem := rfl
@[simp] theorem State.setPc_fb (w : Word) : (s.setPc w).fb = s.fb := rfl
@[simp] theorem State.setPc_extended (w : Word) : (s.setPc w).extended = s.extended := rfl
@[simp] theorem State.setPc_exitRequested (w : Word) : (s.setPc w).exitRequested = s.exitRequested := rfl
@[simp] theorem State.setPc_awaitingKey (w : Word) : (s.setPc w).awaitingKey = s.awaitingKey := rfl
@[simp] theorem State.setPc_debug (w : Word) : (s.setPc w).debug = s.debug := rfl
@[simp] theorem State.setPc_draw (w : Word) : (s.setPc w).draw = s.draw := rfl
@[simp] theorem State.setPc_beep (w : Word) : (s.setPc w).beep = s.beep := rfl
@[simp] theorem State.setPc_fault (w : Word) : (s.setPc w).fault = s.fault := rfl
@[simp] theorem State.setPc_rom (w : Word) : (s.setPc w).rom = s.rom := rfl
@[simp] theorem State.setPc_unknown (w : Word) : (s.setPc w).unknown = s.unknown := rfl
@[simp] theorem State.setPc_draws (w : Word) : (s.setPc w).draws = s.draws := rfl
@[simp] theorem State.setPc_params (w : Word) : (s.setPc w).params = s.params := rfl

/-! ### advance -/
@[simp] theorem State.advance_regs : s.advance.regs = s.regs := rfl
@[simp] theorem State.advance_i : s.advance.i = s.i := rfl
@[simp] theorem State.advance_pc : s.advance.pc = s.pc + 2 := rfl
@[simp] theorem State.advance_stack : s.advance.stack = s.stack := rfl
@[simp] theorem State.advance_sp : s.advance.sp = s.sp := rfl
@[simp] theorem State.advance_dt : s.advance.dt = s.dt := rfl
@[simp] theorem State.advance_st : s.advance.st = s.st := rfl
@[simp] theorem State.advance_keys : s.advance.keys = s.keys := rfl
@[simp] theorem State.advance_rpl : s.advance.rpl = s.rpl := rfl
@[simp] theorem State.advance_mem : s.advance.mem = s.mem := rfl
@[simp] theorem State.advance_fb : s.advance.fb = s.fb := rfl
@[simp] theorem State.advance_extended : s.advance.extended = s.extended := rfl
@[simp] theorem State.advance_exitRequested : s.advance.exitRequested = s.exitRequested := rfl
@[simp] theorem State.advance_awaitingKey : s.advance.awaitingKey = s.awaitingKey := rfl
@[simp] theorem State.advance_debug : s.advance.debug = s.debug := rfl
@[simp] theorem State.advance_draw : s.advance.draw = s.draw := rfl
@[simp] theorem State.advance_beep : s.advance.beep = s.beep := rfl
@[simp] theorem State.advance_fault : s.advance.fault = s.fault := rfl
@[simp] theorem State.advance_rom : s.advance.rom = s.rom := rfl
@[simp] theorem State.advance_unknown : s.advance.unknown = s.unknown := rfl
@[simp] theorem State.advance_draws : s.advance.draws = s.draws := rfl
@[simp] theorem State.advance_params : s.advance.params = s.params := rfl

/-! ### skipIf -/
@[simp] theorem State.skipIf_regs (c : Bool) : (s.skipIf c).regs = s.regs := rfl
@[simp] theorem State.skipIf_i (c : Bool) : (s.skipIf c).i = s.i := rfl
@[simp] theorem State.skipIf_pc (c : Bool) : (s.skipIf c).pc = if c then s.pc + 4 else s.pc + 2 := rfl
@[simp] theorem State.skipIf_stack (c : Bool) : (s.skipIf c).stack = s.stack := rfl
@[simp] theorem State.skipIf_sp (c : Bool) : (s.skipIf c).sp = s.sp := rfl
@[simp] theorem State.skipIf_dt (c : Bool) : (s.skipIf c).dt = s.dt := rfl
@[simp] theorem State.skipIf_st (c : Bool) : (s.skipIf c).st = s.st := rfl
@[simp] theorem State.skipIf_keys (c : Bool) : (s.skipIf c).keys = s.keys := rfl
@[simp] theorem State.skipIf_rpl (c : Bool) : (s.skipIf c).rpl = s.rpl := rfl
@[simp] theorem State.skipIf_mem (c : Bool) : (s.skipIf c).mem = s.mem := rfl
@[simp] theorem State.skipIf_fb (c : Bool) : (s.skipIf c).fb = s.fb := rfl
@[simp] theorem State.skipIf_extended (c : Bool) : (s.skipIf c).extended = s.extended := rfl
@[simp] theorem State.skipIf_exitRequested (c : Bool) : (s.skipIf c).exitRequested = s.exitRequested := rfl
@[simp] theorem State.skipIf_awaitingKey (c : Bool) : (s.skipIf c).awaitingKey = s.awaitingKey := rfl
@[simp] theorem State.skipIf_debug (c : Bool) : (s.skipIf c).debug = s.debug := rfl
@[simp] theorem State.skipIf_draw (c : Bool) : (s.skipIf c).draw = s.draw := rfl
@[simp] theorem State.skipIf_beep (c : Bool) : (s.skipIf c).beep = s.beep := rfl
@[simp] theorem State.skipIf_fault (c : Bool) : (s.skipIf c).fault = s.fault := rfl
@[simp] theorem State.skipIf_rom (c : Bool) : (s.skipIf c).rom = s.rom := rfl
@[simp] theorem State.skipIf_unknown (c : Bool) : (s.skipIf c).unknown = s.unknown := rfl
@[simp] theorem State.skipIf_draws (c : Bool) : (s.skipIf c).draws = s.draws := rfl
@[simp] theorem State.skipIf_params (c : Bool) : (s.skipIf c).params = s.params := rfl

/-! ### setDt -/
@[simp] theorem State.setDt_regs (w : Byte) : (s.setDt w).regs = s.regs := rfl
@[simp] theorem State.setDt_i (w : Byte) : (s.setDt w).i = s.i := rfl
@[simp] theorem State.setDt_pc (w : Byte) : (s.setDt w).pc = s.pc := rfl
@[simp] theorem State.setDt_stack (w : Byte) : (s.setDt w).stack = s.stack := rfl
@[simp] theorem State.setDt_sp (w : Byte) : (s.setDt w).sp = s.sp := rfl
@[simp] theorem State.setDt_dt (w : Byte) : (s.setDt w).dt = w := rfl
@[simp] theorem State.setDt_st (w : Byte) : (s.setDt w).st = s.st := rfl
@[simp] theorem State.setDt_keys (w : Byte) : (s.setDt w).keys = s.keys := rfl
@[simp] theorem State.setDt_rpl (w : Byte) : (s.setDt w).rpl = s.rpl := rfl
@[simp] theorem State.setDt_mem (w : Byte) : (s.setDt w).mem = s.mem := rfl
@[simp] theorem State.setDt_fb (w : Byte) : (s.setDt w).fb = s.fb := rfl
@[simp] theorem State.setDt_extended (w : Byte) : (s.setDt w).extended = s.extended := rfl
@[simp] theorem State.setDt_exitRequested (w : Byte) : (s.setDt w).exitRequested = s.exitRequested := rfl
@[simp] theorem State.setDt_awaitingKey (w : Byte) : (s.setDt w).awaitingKey = s.awaitingKey := rfl
@[simp] theorem State.setDt_debug (w : Byte) : (s.setDt w).debug = s.debug := rfl
@[simp] theorem State.setDt_draw (w : Byte) : (s.setDt w).draw = s.draw := rfl
@[simp] theorem State.setDt_beep (w : Byte) : (s.setDt w).beep = s.beep := rfl
@[simp] theorem State.setDt_fault (w : Byte) : (s.setDt w).fault = s.fault := rfl
@[simp] theorem State.setDt_rom (w : Byte) : (s.setDt w).rom = s.rom := rfl
@[simp] theorem State.setDt_unknown (w : Byte) : (s.setDt w).unknown = s.unknown := rfl
@[simp] theorem State.setDt_draws (w : Byte) : (s.setDt w).draws = s.draws := rfl
@[simp] theorem State.setDt_params (w : Byte) : (s.setDt w).params = s.params := rfl

/-! ### setSt -/
@[simp] theorem State.setSt_regs (w : Byte) : (s.setSt w).regs = s.regs := rfl
@[simp] theorem State.setSt_i (w : Byte) : (s.setSt w).i = s.i := rfl
@[simp] theorem State.setSt_pc (w : Byte) : (s.setSt w).pc = s.pc := rfl
@[simp] theorem State.setSt_stack (w : Byte) : (s.setSt w).stack = s.stack := rfl
@[simp] theorem State.setSt_sp (w : Byte) : (s.setSt w).sp = s.sp := rfl
@[simp] theorem State.setSt_dt (w : Byte) : (s.setSt w).dt = s.dt := rfl
@[simp] theorem State.setSt_st (w : Byte) : (s.setSt w).st = w := rfl
@[simp] theorem State.setSt_keys (w : Byte) : (s.setSt w).keys = s.keys := rfl
@[simp] theorem State.setSt_rpl (w : Byte) : (s.setSt w).rpl = s.rpl := rfl
@[simp] theorem State.setSt_mem (w : Byte) : (s.setSt w).mem = s.mem := rfl
@[simp] theorem State.setSt_fb (w : Byte) : (s.setSt w).fb = s.fb := rfl
@[simp] theorem State.setSt_extended (w : Byte) : (s.setSt w).extended = s.extended := rfl
@[simp] theorem State.setSt_exitRequested (w : Byte) : (s.setSt w).exitRequested = s.exitRequested := rfl
@[simp] theorem State.setSt_awaitingKey (w : Byte) : (s.setSt w).awaitingKey = s.awaitingKey := rfl
@[simp] theorem State.setSt_debug (w : Byte) : (s.setSt w).debug = s.debug := rfl
@[simp] theorem State.setSt_draw (w : Byte) : (s.setSt w).draw = s.draw := rfl
@[simp] theorem State.setSt_beep (w : Byte) : (s.setSt w).beep = s.beep := rfl
@[simp] theorem State.setSt_fault (w : Byte) : (s.setSt w).fault = s.fault := rfl
@[simp] theorem State.setSt_rom (w : Byte) : (s.setSt w).rom = s.rom := rfl
@[simp] theorem State.setSt_unknown (w : Byte) : (s.setSt w).unknown = s.unknown := rfl
@[simp] theorem State.setSt_draws (w : Byte) : (s.setSt w).draws = s.draws := rfl
@[simp] theorem State.setSt_params (w : Byte) : (s.setSt w).params = s.params := rfl

/-! ### setRpl -/
@[simp] theorem State.setRpl_regs (k : BitVec 3) (w : Byte) : (s.setRpl k w).regs = s.regs := rfl
@[simp] theorem State.setRpl_i (k : BitVec 3) (w : Byte) : (s.setRpl k w).i = s.i := rfl
@[simp] theorem State.setRpl_pc (k : BitVec 3) (w : Byte) : (s.setRpl k w).pc = s.pc := rfl
@[simp] theorem State.setRpl_stack (k : BitVec 3) (w : Byte) : (s.setRpl k w).stack = s.stack := rfl
@[simp] theorem State.setRpl_sp (k : BitVec 3) (w : Byte) : (s.setRpl k w).sp = s.sp := rfl
@[simp] theorem State.setRpl_dt (k : BitVec 3) (w : Byte) : (s.setRpl k w).dt = s.dt := rfl
@[simp] theorem State.setRpl_st (k : BitVec 3) (w : Byte) : (s.setRpl k w).st = s.st := rfl
@[simp] theorem State.setRpl_keys (k : BitVec 3) (w : Byte) : (s.setRpl k w).keys = s.keys := rfl
@[simp] theorem State.setRpl_mem (k : BitVec 3) (w : Byte) : (s.setRpl k w).mem = s.mem := rfl
@[simp] theorem State.setRpl_fb (k : BitVec 3) (w : Byte) : (s.setRpl k w).fb = s.fb := rfl
@[simp] theorem State.setRpl_extended (k : BitVec 3) (w : Byte) : (s.setRpl k w).extended = s.extended := rfl
@[simp] theorem State.setRpl_exitRequested (k : BitVec 3) (w : Byte) : (s.setRpl k w).exitRequested = s.exitRequested := rfl
@[simp] theorem State.setRpl_awaitingKey (k : BitVec 3) (w : Byte) : (s.setRpl k w).awaitingKey = s.awaitingKey := rfl
@[simp] theorem State.setRpl_debug (k : BitVec 3) (w : Byte) : (s.setRpl k w).debug = s.debug := rfl
@[simp] theorem State.setRpl_draw (k : BitVec 3) (w : Byte) : (s.setRpl k w).draw = s.draw := rfl
@[simp] theorem State.setRpl_beep (k : BitVec 3) (w : Byte) : (s.setRpl k w).beep = s.beep := rfl
@[simp] theorem State.setRpl_fault (k : BitVec 3) (w : Byte) : (s.setRpl k w).fault = s.fault := rfl
@[simp] theorem State.setRpl_rom (k : BitVec 3) (w : Byte) : (s.setRpl k w).rom = s.rom := rfl
@[simp] theorem State.setRpl_unknown (k : BitVec 3) (w : Byte) : (s.setRpl k w).unknown = s.unknown := rfl
@[simp] theorem State.setRpl_draws (k : BitVec 3) (w : Byte) : (s.setRpl k w).draws = s.draws := rfl
@[simp] theorem State.setRpl_params (k : BitVec 3) (w : Byte) : (s.setRpl k w).params = s.params := rfl

/-! ### countDraw -/
@[simp] theorem State.countDraw_regs : s.countDraw.regs = s.regs := rfl
@[simp] theorem State.countDraw_i : s.countDraw.i = s.i := rfl
@[simp] theorem State.countDraw_pc : s.countDraw.pc = s.pc := rfl
@[simp] theorem State.countDraw_stack : s.countDraw.stack = s.stack := rfl
@[simp] theorem State.countDraw_sp : s.countDraw.sp = s.sp := rfl
@[simp] theorem State.countDraw_dt : s.countDraw.dt = s.dt := rfl
@[simp] theorem State.countDraw_st : s.countDraw.st = s.st := rfl
@[simp] theorem State.countDraw_keys : s.countDraw.keys = s.keys := rfl
@[simp] theorem State.countDraw_rpl : s.countDraw.rpl = s.rpl := rfl
@[simp] theorem State.countDraw_mem : s.countDraw.mem = s.mem := rfl
@[simp] theorem State.countDraw_fb : s.countDraw.fb = s.fb := rfl
@[simp] theorem State.countDraw_extended : s.countDraw.extended = s.extended := rfl
@[simp] theorem State.countDraw_exitRequested : s.countDraw.exitRequested = s.exitRequested := rfl
@[simp] theorem State.countDraw_awaitingKey : s.countDraw.awaitingKey = s.awaitingKey := rfl
@[simp] theorem State.countDraw_debug : s.countDraw.debug = s.debug := rfl
@[simp] theorem State.countDraw_draw : s.countDraw.draw = s.draw := rfl
@[simp] theorem State.countDraw_beep : s.countDraw.beep = s.beep := rfl
@[simp] theorem State.countDraw_fault : s.countDraw.fault = s.fault := rfl
@[simp] theorem State.countDraw_rom : s.countDraw.rom = s.rom := rfl
@[simp] theorem State.countDraw_unknown : s.countDraw.unknown = s.unknown := rfl
@[simp] theorem State.countDraw_draws : s.countDraw.draws = s.draws + 1 := rfl
@[simp] theorem State.countDraw_params : s.countDraw.params = s.params := rfl

/-! ### releaseKey -/
@[simp] theorem State.releaseKey_regs (k : Nibble) : (s.releaseKey k).regs = s.regs := rfl
@[simp] theorem State.releaseKey_i (k : Nibble) : (s.releaseKey k).i = s.i := rfl
@[simp] theorem State.releaseKey_pc (k : Nibble) : (s.releaseKey k).pc = s.pc := rfl
@[simp] theorem State.releaseKey_stack (k : Nibble) : (s.releaseKey k).stack = s.stack := rfl
@[simp] theorem State.releaseKey_sp (k : Nibble) : (s.releaseKey k).sp = s.sp := rfl
@[simp] theorem State.releaseKey_dt (k : Nibble) : (s.releaseKey k).dt = s.dt := rfl
@[simp] theorem State.releaseKey_st (k : Nibble) : (s.releaseKey k).st = s.st := rfl
@[simp] theorem State.releaseKey_rpl (k : Nibble) : (s.releaseKey k).rpl = s.rpl := rfl
@[simp] theorem State.releaseKey_mem (k : Nibble) : (s.releaseKey k).mem = s.mem := rfl
@[simp] theorem State.releaseKey_fb (k : Nibble) : (s.releaseKey k).fb = s.fb := rfl
@[simp] theorem State.releaseKey_extended (k : Nibble) : (s.releaseKey k).extended = s.extended := rfl
@[simp] theorem State.releaseKey_exitRequested (k : Nibble) : (s.releaseKey k).exitRequested = s.exitRequested := rfl
@[simp] theorem State.releaseKey_awaitingKey (k : Nibble) : (s.releaseKey k).awaitingKey = s.awaitingKey := rfl
@[simp] theorem State.releaseKey_debug (k : Nibble) : (s.releaseKey k).debug = s.debug := rfl
@[simp] theorem State.releaseKey_draw (k : Nibble) : (s.releaseKey k).draw = s.draw := rfl
@[simp] theorem State.releaseKey_beep (k : Nibble) : (s.releaseKey k).beep = s.beep := rfl
@[simp] theorem State.releaseKey_fault (k : Nibble) : (s.releaseKey k).fault = s.fault := rfl
@[simp] theorem State.releaseKey_rom (k : Nibble) : (s.releaseKey k).rom = s.rom := rfl
@[simp] theorem State.releaseKey_unknown (k : Nibble) : (s.releaseKey k).unknown = s.unknown := rfl
@[simp] theorem State.releaseKey_draws (k : Nibble) : (s.releaseKey k).draws = s.draws := rfl
@[simp] theorem State.releaseKey_params (k : Nibble) : (s.releaseKey k).params = s.params := rfl

/-! ### clearKeys -/
@[simp] theorem State.clearKeys_regs : s.clearKeys.regs = s.regs := rfl
@[simp] theorem State.clearKeys_i : s.clearKeys.i = s.i := rfl
@[simp] theorem State.clearKeys_pc : s.clearKeys.pc = s.pc := rfl
@[simp] theorem State.clearKeys_stack : s.clearKeys.stack = s.stack := rfl
@[simp] theorem State.clearKeys_sp : s.clearKeys.sp = s.sp := rfl
@[simp] theorem State.clearKeys_dt : s.clearKeys.dt = s.dt := rfl
@[simp] theorem State.clearKeys_st : s.clearKeys.st = s.st := rfl
@[simp] theorem State.clearKeys_keys : s.clearKeys.keys = Vector.replicate 16 false := rfl
@[simp] theorem State.clearKeys_rpl : s.clearKeys.rpl = s.rpl := rfl
@[simp] theorem State.clearKeys_mem : s.clearKeys.mem = s.mem := rfl
@[simp] theorem State.clearKeys_fb : s.clearKeys.fb = s.fb := rfl
@[simp] theorem State.clearKeys_extended : s.clearKeys.extended = s.extended := rfl
@[simp] theorem State.clearKeys_exitRequested : s.clearKeys.exitRequested = s.exitRequested := rfl
@[simp] theorem State.clearKeys_awaitingKey : s.clearKeys.awaitingKey = s.awaitingKey := rfl
@[simp] theorem State.clearKeys_debug : s.clearKeys.debug = s.debug := rfl
@[simp] theorem State.clearKeys_draw : s.clearKeys.draw = s.draw := rfl
@[simp] theorem State.clearKeys_beep : s.clearKeys.beep = s.beep := rfl
@[simp] theorem State.clearKeys_fault : s.clearKeys.fault = s.fault := rfl
@[simp] theorem State.clearKeys_rom : s.clearKeys.rom = s.rom := rfl
@[simp] theorem State.clearKeys_unknown : s.clearKeys.unknown = s.unknown := rfl
@[simp] theorem State.clearKeys_draws : s.clearKeys.draws = s.draws := rfl
@[simp] theorem State.clearKeys_params : s.clearKeys.params = s.params := rfl

/-! ### setFb -/
@[simp] theorem State.setFb_regs (f : Framebuffer) : (s.setFb f).regs = s.regs := rfl
@[simp] theorem State.setFb_i (f : Framebuffer) : (s.setFb f).i = s.i := rfl
@[simp] theorem State.setFb_pc (f : Framebuffer) : (s.setFb f).pc = s.pc := rfl
@[simp] theorem State.setFb_stack (f : Framebuffer) : (s.setFb f).stack = s.stack := rfl
@[simp] theorem State.setFb_sp (f : Framebuffer) : (s.setFb f).sp = s.sp := rfl
@[simp] theorem State.setFb_dt (f : Framebuffer) : (s.setFb f).dt = s.dt := rfl
@[simp] theorem State.setFb_st (f : Framebuffer) : (s.setFb f).st = s.st := rfl
@[simp] theorem State.setFb_keys (f : Framebuffer) : (s.setFb f).keys = s.keys := rfl
@[simp] theorem State.setFb_rpl (f : Framebuffer) : (s.setFb f).rpl = s.rpl := rfl
@[simp] theorem State.setFb_mem (f : Framebuffer) : (s.setFb f).mem = s.mem := rfl
@[simp] theorem State.setFb_fb (f : Framebuffer) : (s.setFb f).fb = f := rfl
@[simp] theorem State.setFb_extended (f : Framebuffer) : (s.setFb f).extended = s.extended := rfl
@[simp] theorem State.setFb_exitRequested (f : Framebuffer) : (s.setFb f).exitRequested = s.exitRequested := rfl
@[simp] theorem State.setFb_awaitingKey (f : Framebuffer) : (s.setFb f).awaitingKey = s.awaitingKey := rfl
@[simp] theorem State.setFb_debug (f : Framebuffer) : (s.setFb f).debug = s.debug := rfl
@[simp] theorem State.setFb_draw (f : Framebuffer) : (s.setFb f).draw = s.draw := rfl
@[simp] theorem State.setFb_beep (f : Framebuffer) : (s.setFb f).beep = s.beep := rfl
@[simp] theorem State.setFb_fault (f : Framebuffer) : (s.setFb f).fault = s.fault := rfl
@[simp] theorem State.setFb_rom (f : Framebuffer) : (s.setFb f).rom = s.rom := rfl
@[simp] theorem State.setFb_unknown (f : Framebuffer) : (s.setFb f).unknown = s.unknown := rfl
@[simp] theorem State.setFb_draws (f : Framebuffer) : (s.setFb f).draws = s.draws := rfl
@[simp] theorem State.setFb_params (f : Framebuffer) : (s.setFb f).params = s.params := rfl

/-! ### markDraw -/
@[simp] theorem State.markDraw_regs : s.markDraw.regs = s.regs := rfl
@[simp] theorem State.markDraw_i : s.markDraw.i = s.i := rfl
@[simp] theorem State.markDraw_pc : s.markDraw.pc = s.pc := rfl
@[simp] theorem State.markDraw_stack : s.markDraw.stack = s.stack := rfl
@[simp] theorem State.markDraw_sp : s.markDraw.sp = s.sp := rfl
@[simp] theorem State.markDraw_dt : s.markDraw.dt = s.dt := rfl
@[simp] theorem State.markDraw_st : s.markDraw.st = s.st := rfl
@[simp] theorem State.markDraw_keys : s.markDraw.keys = s.keys := rfl
@[simp] theorem State.markDraw_rpl : s.markDraw.rpl = s.rpl := rfl
@[simp] theorem State.markDraw_mem : s.markDraw.mem = s.mem := rfl
@[simp] theorem State.markDraw_fb : s.markDraw.fb = s.fb := rfl
@[simp] theorem State.markDraw_extended : s.markDraw.extended = s.extended := rfl
@[simp] theorem State.markDraw_exitRequested : s.markDraw.exitRequested = s.exitRequested := rfl
@[simp] theorem State.markDraw_awaitingKey : s.markDraw.awaitingKey = s.awaitingKey := rfl
@[simp] theorem State.markDraw_debug : s.markDraw.debug = s.debug := rfl
@[simp] theorem State.markDraw_draw : s.markDraw.draw = true := rfl
@[simp] theorem State.markDraw_beep : s.markDraw.beep = s.beep := rfl
@[simp] theorem State.markDraw_fault : s.markDraw.fault = s.fault := rfl
@[simp] theorem State.markDraw_rom : s.markDraw.rom = s.rom := rfl
@[simp] theorem State.markDraw_unknown : s.markDraw.unknown = s.unknown := rfl
@[simp] theorem State.markDraw_draws : s.markDraw.draws = s.draws := rfl
@[simp] theorem State.markDraw_params : s.markDraw.params = s.params := rfl

/-! ### setExtended -/
@[simp] theorem State.setExtended_regs (b : Bool) : (s.setExtended b).regs = s.regs := rfl
@[simp] theorem State.setExtended_i (b : Bool) : (s.setExtended b).i = s.i := rfl
@[simp] theorem State.setExtended_pc (b : Bool) : (s.setExtended b).pc = s.pc := rfl
@[simp] theorem State.setExtended_stack (b : Bool) : (s.setExtended b).stack = s.stack := rfl
@[simp] theorem State.setExtended_sp (b : Bool) : (s.setExtended b).sp = s.sp := rfl
@[simp] theorem State.setExtended_dt (b : Bool) : (s.setExtended b).dt = s.dt := rfl
@[simp] theorem State.setExtended_st (b : Bool) : (s.setExtended b).st = s.st := rfl
@[simp] theorem State.setExtended_keys (b : Bool) : (s.setExtended b).keys = s.keys := rfl
@[simp] theorem State.setExtended_rpl (b : Bool) : (s.setExtended b).rpl = s.rpl := rfl
@[simp] theorem State.setExtended_mem (b : Bool) : (s.setExtended b).mem = s.mem := rfl
@[simp] theorem State.setExtended_fb (b : Bool) : (s.setExtended b).fb = s.fb := rfl
@[simp] theorem State.setExtended_extended (b : Bool) : (s.setExtended b).extended = b := rfl
@[simp] theorem State.setExtended_exitRequested (b : Bool) : (s.setExtended b).exitRequested = s.exitRequested := rfl
@[simp] theorem State.setExtended_awaitingKey (b : Bool) : (s.setExtended b).awaitingKey = s.awaitingKey := rfl
@[simp] theorem State.setExtended_debug (b : Bool) : (s.setExtended b).debug = s.debug := rfl
@[simp] theorem State.setExtended_draw (b : Bool) : (s.setExtended b).draw = s.draw := rfl
@[simp] theorem State.setExtended_beep (b : Bool) : (s.setExtended b).beep = s.beep := rfl
@[simp] theorem State.setExtended_fault (b : Bool) : (s.setExtended b).fault = s.fault := rfl
@[simp] theorem State.setExtended_rom (b : Bool) : (s.setExtended b).rom = s.rom := rfl
@[simp] theorem State.setExtended_unknown (b : Bool) : (s.setExtended b).unknown = s.unknown := rfl
@[simp] theorem State.setExtended_draws (b : Bool) : (s.setExtended b).draws = s.draws := rfl
@[simp] theorem State.setExtended_params (b : Bool) : (s.setExtended b).params = s.params := rfl

/-! ### requestExit -/
@[simp] theorem State.requestExit_regs : s.requestExit.regs = s.regs := rfl
@[simp] theorem State.requestExit_i : s.requestExit.i = s.i := rfl
@[simp] theorem State.requestExit_pc : s.requestExit.pc = s.pc := rfl
@[simp] theorem State.requestExit_stack : s.requestExit.stack = s.stack := rfl
@[simp] theorem State.requestExit_sp : s.requestExit.sp = s.sp := rfl
@[simp] theorem State.requestExit_dt : s.requestExit.dt = s.dt := rfl
@[simp] theorem State.requestExit_st : s.requestExit.st = s.st := rfl
@[simp] theorem State.requestExit_keys : s.requestExit.keys = s.keys := rfl
@[simp] theorem State.requestExit_rpl : s.requestExit.rpl = s.rpl := rfl
@[simp] theorem State.requestExit_mem : s.requestExit.mem = s.mem := rfl
@[simp] theorem State.requestExit_fb : s.requestExit.fb = s.fb := rfl
@[simp] theorem State.requestExit_extended : s.requestExit.extended = s.extended := rfl
@[simp] theorem State.requestExit_exitRequested : s.requestExit.exitRequested = true := rfl
@[simp] theorem State.requestExit_awaitingKey : s.requestExit.awaitingKey = s.awaitingKey := rfl
@[simp] theorem State.requestExit_debug : s.requestExit.debug = s.debug := rfl
@[simp] theorem State.requestExit_draw : s.requestExit.draw = s.draw := rfl
@[simp] theorem State.requestExit_beep : s.requestExit.beep = s.beep := rfl
@[simp] theorem State.requestExit_fault : s.requestExit.fault = s.fault := rfl
@[simp] theorem State.requestExit_rom : s.requestExit.rom = s.rom := rfl
@[simp] theorem State.requestExit_unknown : s.requestExit.unknown = s.unknown := rfl
@[simp] theorem State.requestExit_draws : s.requestExit.draws = s.draws := rfl
@[simp] theorem State.requestExit_params : s.requestExit.params = s.params := rfl

/-! ### setAwaiting -/
@[simp] theorem State.setAwaiting_regs (b : Bool) : (s.setAwaiting b).regs = s.regs := rfl
@[simp] theorem State.setAwaiting_i (b : Bool) : (s.setAwaiting b).i = s.i := rfl
@[simp] theorem State.setAwaiting_pc (b : Bool) : (s.setAwaiting b).pc = s.pc := rfl
@[simp] theorem State.setAwaiting_stack (b : Bool) : (s.setAwaiting b).stack = s.stack := rfl
@[simp] theorem State.setAwaiting_sp (b : Bool) : (s.setAwaiting b).sp = s.sp := rfl
@[simp] theorem State.setAwaiting_dt (b : Bool) : (s.setAwaiting b).dt = s.dt := rfl
@[simp] theorem State.setAwaiting_st (b : Bool) : (s.setAwaiting b).st = s.st := rfl
@[simp] theorem State.setAwaiting_keys (b : Bool) : (s.setAwaiting b).keys = s.keys := rfl
@[simp] theorem State.setAwaiting_rpl (b : Bool) : (s.setAwaiting b).rpl = s.rpl := rfl
@[simp] theorem State.setAwaiting_mem (b : Bool) : (s.setAwaiting b).mem = s.mem := rfl
@[simp] theorem State.setAwaiting_fb (b : Bool) : (s.setAwaiting b).fb = s.fb := rfl
@[simp] theorem State.setAwaiting_extended (b : Bool) : (s.setAwaiting b).extended = s.extended := rfl
@[simp] theorem State.setAwaiting_exitRequested (b : Bool) : (s.setAwaiting b).exitRequested = s.exitRequested := rfl
@[simp] theorem State.setAwaiting_awaitingKey (b : Bool) : (s.setAwaiting b).awaitingKey = b := rfl
@[simp] theorem State.setAwaiting_debug (b : Bool) : (s.setAwaiting b).debug = s.debug := rfl
@[simp] theorem State.setAwaiting_draw (b : Bool) : (s.setAwaiting b).draw = s.draw := rfl
@[simp] theorem State.setAwaiting_beep (b : Bool) : (s.setAwaiting b).beep = s.beep := rfl
@[simp] theorem State.setAwaiting_fault (b : Bool) : (s.setAwaiting b).fault = s.fault := rfl
@[simp] theorem State.setAwaiting_rom (b : Bool) : (s.setAwaiting b).rom = s.rom := rfl
@[simp] theorem State.setAwaiting_unknown (b : Bool) : (s.setAwaiting b).unknown = s.unknown := rfl
@[simp] theorem State.setAwaiting_draws (b : Bool) : (s.setAwaiting b).draws = s.draws := rfl
@[simp] theorem State.setAwaiting_params (b : Bool) : (s.setAwaiting b).params = s.params := rfl

/-! ### report -/
@[simp] theorem State.report_regs (op : Word) : (s.report op).regs = s.regs := rfl
@[simp] theorem State.report_i (op : Word) : (s.report op).i = s.i := rfl
@[simp] theorem State.report_pc (op : Word) : (s.report op).pc = s.pc := rfl
@[simp] theorem State.report_stack (op : Word) : (s.report op).stack = s.stack := rfl
@[simp] theorem State.report_sp (op : Word) : (s.report op).sp = s.sp := rfl
@[simp] theorem State.report_dt (op : Word) : (s.report op).dt = s.dt := rfl
@[simp] theorem State.report_st (op : Word) : (s.report op).st = s.st := rfl
@[simp] theorem State.report_keys (op : Word) : (s.report op).keys = s.keys := rfl
@[simp] theorem State.report_rpl (op : Word) : (s.report op).rpl = s.rpl := rfl
@[simp] theorem State.report_mem (op : Word) : (s.report op).mem = s.mem := rfl
@[simp] theorem State.report_fb (op : Word) : (s.report op).fb = s.fb := rfl
@[simp] theorem State.report_extended (op : Word) : (s.report op).extended = s.extended := rfl
@[simp] theorem State.report_exitRequested (op : Word) : (s.report op).exitRequested = s.exitRequested := rfl
@[simp] theorem State.report_awaitingKey (op : Word) : (s.report op).awaitingKey = s.awaitingKey := rfl
@[simp] theorem State.report_debug (op : Word) : (s.report op).debug = s.debug := rfl
@[simp] theorem State.report_draw (op : Word) : (s.report op).draw = s.draw := rfl
@[simp] theorem State.report_beep (op : Word) : (s.report op).beep = s.beep := rfl
@[simp] theorem State.report_fault (op : Word) : (s.report op).fault = s.fault := rfl
@[simp] theorem State.report_rom (op : Word) : (s.report op).rom = s.rom := rfl
@[simp] theorem State.report_unknown (op : Word) : (s.report op).unknown = some op := rfl
@[simp] theorem State.report_draws (op : Word) : (s.report op).draws = s.draws := rfl
@[simp] theorem State.report_params (op : Word) : (s.report op).params = s.params := rfl

/-! ### raise -/
@[simp] theorem State.raise_regs (kind : FaultKind) (op : Option Word) (value : Option Byte) : (s.raise kind op value).regs = s.regs := rfl
@[simp] theorem State.raise_i (kind : FaultKind) (op : Option Word) (value : Option Byte) : (s.raise kind op value).i = s.i := rfl
@[simp] theorem State.raise_pc (kind : FaultKind) (op : Option Word) (value : Option Byte) : (s.raise kind op value).pc = s.pc := rfl
@[simp] theorem State.raise_stack (kind : FaultKind) (op : Option Word) (value : Option Byte) : (s.raise kind op value).stack = s.stack := rfl
@[simp] theorem State.raise_sp (kind : FaultKind) (op : Option Word) (value : Option Byte) : (s.raise kind op value).sp = s.sp := rfl
@[simp] theorem State.raise_dt (kind : FaultKind) (op : Option Word) (value : Option Byte) : (s.raise kind op value).dt = s.dt := rfl
@[simp] theorem State.raise_st (kind : FaultKind) (op : Option Word) (value : Option Byte) : (s.raise kind op value).st = s.st := rfl
@[simp] theorem State.raise_keys (kind : FaultKind) (op : Option Word) (value : Option Byte) : (s.raise kind op value).keys = s.keys := rfl
@[simp] theorem State.raise_rpl (kind : FaultKind) (op : Option Word) (value : Option Byte) : (s.raise kind op value).rpl = s.rpl := rfl
@[simp] theorem State.raise_mem (kind : FaultKind) (op : Option Word) (value : Option Byte) : (s.raise kind op value).mem = s.mem := rfl
@[simp] theorem State.raise_fb (kind : FaultKind) (op : Option Word) (value : Option Byte) : (s.raise kind op value).fb = s.fb := rfl
@[simp] theorem State.raise_extended (kind : FaultKind) (op : Option Word) (value : Option Byte) : (s.raise kind op value).extended = s.extended := rfl
@[simp] theorem State.raise_exitRequested (kind : FaultKind) (op : Option Word) (value : Option Byte) : (s.raise kind op value).exitRequested = s.exitRequested := rfl
@[simp] theorem State.raise_awaitingKey (kind : FaultKind) (op : Option Word) (value : Option Byte) : (s.raise kind op value).awaitingKey = s.awaitingKey := rfl
@[simp] theorem State.raise_debug (kind : FaultKind) (op : Option Word) (value : Option Byte) : (s.raise kind op value).debug = s.debug := rfl
@[simp] theorem State.raise_draw (kind : FaultKind) (op : Option Word) (value : Option Byte) : (s.raise kind op value).draw = s.draw := rfl
@[simp] theorem State.raise_beep (kind : FaultKind) (op : Option Word) (value : Option Byte) : (s.raise kind op value).beep = s.beep := rfl
@[simp] theorem State.raise_fault (kind : FaultKind) (op : Option Word) (value : Option Byte) : (s.raise kind op value).fault = some ⟨kind, s.pc, op, value⟩ := rfl
@[simp] theorem State.raise_rom (kind : FaultKind) (op : Option Word) (value : Option Byte) : (s.raise kind op value).rom = s.rom := rfl
@[simp] theorem State.raise_unknown (kind : FaultKind) (op : Option Word) (value : Option Byte) : (s.raise kind op value).unknown = s.unknown := rfl
@[simp] theorem State.raise_draws (kind : FaultKind) (op : Option Word) (value : Option Byte) : (s.raise kind op value).draws = s.draws := rfl
@[simp] theorem State.raise_params (kind : FaultKind) (op : Option Word) (value : Option Byte) : (s.raise kind op value).params = s.params := rfl

/-! ### setDebug -/
@[simp] theorem State.setDebug_regs (b : Bool) : (s.setDebug b).regs = s.regs := rfl
@[simp] theorem State.setDebug_i (b : Bool) : (s.setDebug b).i = s.i := rfl
@[simp] theorem State.setDebug_pc (b : Bool) : (s.setDebug b).pc = s.pc := rfl
@[simp] theorem State.setDebug_stack (b : Bool) : (s.setDebug b).stack = s.stack := rfl
@[simp] theorem State.setDebug_sp (b : Bool) : (s.setDebug b).sp = s.sp := rfl
@[simp] theorem State.setDebug_dt (b : Bool) : (s.setDebug b).dt = s.dt := rfl
@[simp] theorem State.setDebug_st (b : Bool) : (s.setDebug b).st = s.st := rfl
@[simp] theorem State.setDebug_keys (b : Bool) : (s.setDebug b).keys = s.keys := rfl
@[simp] theorem State.setDebug_rpl (b : Bool) : (s.setDebug b).rpl = s.rpl := rfl
@[simp] theorem State.setDebug_mem (b : Bool) : (s.setDebug b).mem = s.mem := rfl
@[simp] theorem State.setDebug_fb (b : Bool) : (s.setDebug b).fb = s.fb := rfl
@[simp] theorem State.setDebug_extended (b : Bool) : (s.setDebug b).extended = s.extended := rfl
@[simp] theorem State.setDebug_exitRequested (b : Bool) : (s.setDebug b).exitRequested = s.exitRequested := rfl
@[simp] theorem State.setDebug_awaitingKey (b : Bool) : (s.setDebug b).awaitingKey = s.awaitingKey := rfl
@[simp] theorem State.setDebug_debug (b : Bool) : (s.setDebug b).debug = b := rfl
@[simp] theorem State.setDebug_draw (b : Bool) : (s.setDebug b).draw = s.draw := rfl
@[simp] theorem State.setDebug_beep (b : Bool) : (s.setDebug b).beep = s.beep := rfl
@[simp] theorem State.setDebug_fault (b : Bool) : (s.setDebug b).fault = s.fault := rfl
@[simp] theorem State.setDebug_rom (b : Bool) : (s.setDebug b).rom = s.rom := rfl
@[simp] theorem State.setDebug_unknown (b : Bool) : (s.setDebug b).unknown = s.unknown := rfl
@[simp] theorem State.setDebug_draws (b : Bool) : (s.setDebug b).draws = s.draws := rfl
@[simp] theorem State.setDebug_params (b : Bool) : (s.setDebug b).params = s.params := rfl

/-! ### What the accessors read after an update of another field -/

@[simp] theorem State.memWrite_v (a : Nat) (b : Byte) (z : Reg) : (s.memWrite a b).v z = s.v z := rfl
@[simp] theorem State.memWrite_key (a : Nat) (b : Byte) (z : Nibble) : (s.memWrite a b).key z = s.key z := rfl
@[simp] theorem State.memWrite_rplAt (a : Nat) (b : Byte) (z : BitVec 3) : (s.memWrite a b).rplAt z = s.rplAt z := rfl
@[simp] theorem State.memWrite_dataAddr (a : Nat) (b : Byte) (z : Nat) : (s.memWrite a b).dataAddr z = s.dataAddr z := rfl
@[simp] theorem State.memWrite_width (a : Nat) (b : Byte) : (s.memWrite a b).width = s.width := rfl
@[simp] theorem State.memWrite_height (a : Nat) (b : Byte) : (s.memWrite a b).height = s.height := rfl
@[simp] theorem State.memWrite_firstKey (a : Nat) (b : Byte) : (s.memWrite a b).firstKey = s.firstKey := rfl

@[simp] theorem State.dataWrite_v (k : Nat) (b : Byte) (z : Reg) : (s.dataWrite k b).v z = s.v z := rfl
@[simp] theorem State.dataWrite_key (k : Nat) (b : Byte) (z : Nibble) : (s.dataWrite k b).key z = s.key z := rfl
@[simp] theorem State.dataWrite_rplAt (k : Nat) (b : Byte) (z : BitVec 3) : (s.dataWrite k b).rplAt z = s.rplAt z := rfl
@[simp] theorem State.dataWrite_dataAddr (k : Nat) (b : Byte) (z : Nat) : (s.dataWrite k b).dataAddr z = s.dataAddr z := rfl
@[simp] theorem State.dataWrite_width (k : Nat) (b : Byte) : (s.dataWrite k b).width = s.width := rfl
@[simp] theorem State.dataWrite_height (k : Nat) (b : Byte) : (s.dataWrite k b).height = s.height := rfl
@[simp] theorem State.dataWrite_firstKey (k : Nat) (b : Byte) : (s.dataWrite k b).firstKey = s.firstKey := rfl

@[simp] theorem State.setV_key (x : Reg) (w : Byte) (z : Nibble) : (s.setV x w).key z = s.key z := rfl
@[simp] theorem State.setV_rplAt (x : Reg) (w : Byte) (z : BitVec 3) : (s.setV x w).rplAt z = s.rplAt z := rfl
@[simp] theorem State.setV_memRead (x : Reg) (w : Byte) (z : Nat) : (s.setV x w).memRead z = s.memRead z := rfl
@[simp] theorem State.setV_dataRead (x : Reg) (w : Byte) (z : Nat) : (s.setV x w).dataRead z = s.dataRead z := rfl
@[simp] theorem State.setV_dataAddr (x : Reg) (w : Byte) (z : Nat) : (s.setV x w).dataAddr z = s.dataAddr z := rfl
@[simp] theorem State.setV_width (x : Reg) (w : Byte) : (s.setV x w).width = s.width := rfl
@[simp] theorem State.setV_height (x : Reg) (w : Byte) : (s.setV x w).height = s.height := rfl
@[simp] theorem State.setV_firstKey (x : Reg) (w : Byte) : (s.setV x w).firstKey = s.firstKey := rfl

@[simp] theorem State.setI_v (w : Word) (z : Reg) : (s.setI w).v z = s.v z := rfl
@[simp] theorem State.setI_key (w : Word) (z : Nibble) : (s.setI w).key z = s.key z := rfl
@[simp] theorem State.setI_rplAt (w : Word) (z : BitVec 3) : (s.setI w).rplAt z = s.rplAt z := rfl
@[simp] theorem State.setI_memRead (w : Word) (z : Nat) : (s.setI w).memRead z = s.memRead z := rfl
@[simp] theorem State.setI_width (w : Word) : (s.setI w).width = s.width := rfl
@[simp] theorem State.setI_height (w : Word) : (s.setI w).height = s.height := rfl
@[simp] theorem State.setI_firstKey (w : Word) : (s.setI w).firstKey = s.firstKey := rfl

@[simp] theorem State.setPc_v (w : Word) (z : Reg) : (s.setPc w).v z = s.v z := rfl
@[simp] theorem State.setPc_key (w : Word) (z : Nibble) : (s.setPc w).key z = s.key z := rfl
@[simp] theorem State.setPc_rplAt (w : Word) (z : BitVec 3) : (s.setPc w).rplAt z = s.rplAt z := rfl
@[simp] theorem State.setPc_memRead (w : Word) (z : Nat) : (s.setPc w).memRead z = s.memRead z := rfl
@[simp] theorem State.setPc_dataRead (w : Word) (z : Nat) : (s.setPc w).dataRead z = s.dataRead z := rfl
@[simp] theorem State.setPc_dataAddr (w : Word) (z : Nat) : (s.setPc w).dataAddr z = s.dataAddr z := rfl
@[simp] theorem State.setPc_width (w : Word) : (s.setPc w).width = s.width := rfl
@[simp] theorem State.setPc_height (w : Word) : (s.setPc w).height = s.height := rfl
@[simp] theorem State.setPc_firstKey (w : Word) : (s.setPc w).firstKey = s.firstKey := rfl

@[simp] theorem State.advance_v (z : Reg) : s.advance.v z = s.v z := rfl
@[simp] theorem State.advance_key (z : Nibble) : s.advance.key z = s.key z := rfl
@[simp] theorem State.advance_rplAt (z : BitVec 3) : s.advance.rplAt z = s.rplAt z := rfl
@[simp] theorem State.advance_memRead (z : Nat) : s.advance.memRead z = s.memRead z := rfl
@[simp] theorem State.advance_dataRead (z : Nat) : s.advance.dataRead z = s.dataRead z := rfl
@[simp] theorem State.advance_dataAddr (z : Nat) : s.advance.dataAddr z = s.dataAddr z := rfl
@[simp] theorem State.advance_width : s.advance.width = s.width := rfl
@[simp] theorem State.advance_height : s.advance.height = s.height := rfl
@[simp] theorem State.advance_firstKey : s.advance.firstKey = s.firstKey := rfl

@[simp] theorem State.skipIf_v (c : Bool) (z : Reg) : (s.skipIf c).v z = s.v z := rfl
@[simp] theorem State.skipIf_key (c : Bool) (z : Nibble) : (s.skipIf c).key z = s.key z := rfl
@[simp] theorem State.skipIf_rplAt (c : Bool) (z : BitVec 3) : (s.skipIf c).rplAt z = s.rplAt z := rfl
@[simp] theorem State.skipIf_memRead (c : Bool) (z : Nat) : (s.skipIf c).memRead z = s.memRead z := rfl
@[simp] theorem State.skipIf_dataRead (c : Bool) (z : Nat) : (s.skipIf c).dataRead z = s.dataRead z := rfl
@[simp] theorem State.skipIf_dataAddr (c : Bool) (z : Nat) : (s.skipIf c).dataAddr z = s.dataAddr z := rfl
@[simp] theorem State.skipIf_width (c : Bool) : (s.skipIf c).width = s.width := rfl
@[simp] theorem State.skipIf_height (c : Bool) : (s.skipIf c).height = s.height := rfl
@[simp] theorem State.skipIf_firstKey (c : Bool) : (s.skipIf c).firstKey = s.firstKey := rfl

@[simp] theorem State.setDt_v (w : Byte) (z : Reg) : (s.setDt w).v z = s.v z := rfl
@[simp] theorem State.setDt_key (w : Byte) (z : Nibble) : (s.setDt w).key z = s.key z := rfl
@[simp] theorem State.setDt_rplAt (w : Byte) (z : BitVec 3) : (s.setDt w).rplAt z = s.rplAt z := rfl
@[simp] theorem State.setDt_memRead (w : Byte) (z : Nat) : (s.setDt w).memRead z = s.memRead z := rfl
@[simp] theorem State.setDt_dataRead (w : Byte) (z : Nat) : (s.setDt w).dataRead z = s.dataRead z := rfl
@[simp] theorem State.setDt_dataAddr (w : Byte) (z : Nat) : (s.setDt w).dataAddr z = s.dataAddr z := rfl
@[simp] theorem State.setDt_width (w : Byte) : (s.setDt w).width = s.width := rfl
@[simp] theorem State.setDt_height (w : Byte) : (s.setDt w).height = s.height := rfl
@[simp] theorem State.setDt_firstKey (w : Byte) : (s.setDt w).firstKey = s.firstKey := rfl

@[simp] theorem State.setSt_v (w : Byte) (z : Reg) : (s.setSt w).v z = s.v z := rfl
@[simp] theorem State.setSt_key (w : Byte) (z : Nibble) : (s.setSt w).key z = s.key z := rfl
@[simp] theorem State.setSt_rplAt (w : Byte) (z : BitVec 3) : (s.setSt w).rplAt z = s.rplAt z := rfl
@[simp] theorem State.setSt_memRead (w : Byte) (z : Nat) : (s.setSt w).memRead z = s.memRead z := rfl
@[simp] theorem State.setSt_dataRead (w : Byte) (z : Nat) : (s.setSt w).dataRead z = s.dataRead z := rfl
@[simp] theorem State.setSt_dataAddr (w : Byte) (z : Nat) : (s.setSt w).dataAddr z = s.dataAddr z := rfl
@[simp] theorem State.setSt_width (w : Byte) : (s.setSt w).width = s.width := rfl
@[simp] theorem State.setSt_height (w : Byte) : (s.setSt w).height = s.height := rfl
@[simp] theorem State.setSt_firstKey (w : Byte) : (s.setSt w).firstKey = s.firstKey := rfl

@[simp] theorem State.setRpl_v (k : BitVec 3) (w : Byte) (z : Reg) : (s.setRpl k w).v z = s.v z := rfl
@[simp] theorem State.setRpl_key (k : BitVec 3) (w : Byte) (z : Nibble) : (s.setRpl k w).key z = s.key z := rfl
@[simp] theorem State.setRpl_memRead (k : BitVec 3) (w : Byte) (z : Nat) : (s.setRpl k w).memRead z = s.memRead z := rfl
@[simp] theorem State.setRpl_dataRead (k : BitVec 3) (w : Byte) (z : Nat) : (s.setRpl k w).dataRead z = s.dataRead z := rfl
@[simp] theorem State.setRpl_dataAddr (k : BitVec 3) (w : Byte) (z : Nat) : (s.setRpl k w).dataAddr z = s.dataAddr z := rfl
@[simp] theorem State.setRpl_width (k : BitVec 3) (w : Byte) : (s.setRpl k w).width = s.width := rfl
@[simp] theorem State.setRpl_height (k : BitVec 3) (w : Byte) : (s.setRpl k w).height = s.height := rfl
@[simp] theorem State.setRpl_firstKey (k : BitVec 3) (w : Byte) : (s.setRpl k w).firstKey = s.firstKey := rfl

@[simp] theorem State.countDraw_v (z : Reg) : s.countDraw.v z = s.v z := rfl
@[simp] theorem State.countDraw_key (z : Nibble) : s.countDraw.key z = s.key z := rfl
@[simp] theorem State.countDraw_rplAt (z : BitVec 3) : s.countDraw.rplAt z = s.rplAt z := rfl
@[simp] theorem State.countDraw_memRead (z : Nat) : s.countDraw.memRead z = s.memRead z := rfl
@[simp] theorem State.countDraw_dataRead (z : Nat) : s.countDraw.dataRead z = s.dataRead z := rfl
@[simp] theorem State.countDraw_dataAddr (z : Nat) : s.countDraw.dataAddr z = s.dataAddr z := rfl
@[simp] theorem State.countDraw_width : s.countDraw.width = s.width := rfl
@[simp] theorem State.countDraw_height : s.countDraw.height = s.height := rfl
@[simp] theorem State.countDraw_firstKey : s.countDraw.firstKey = s.firstKey := rfl

@[simp] theorem State.releaseKey_v (k : Nibble) (z : Reg) : (s.releaseKey k).v z = s.v z := rfl
@[simp] theorem State.releaseKey_rplAt (k : Nibble) (z : BitVec 3) : (s.releaseKey k).rplAt z = s.rplAt z := rfl
@[simp] theorem State.releaseKey_memRead (k : Nibble) (z : Nat) : (s.releaseKey k).memRead z = s.memRead z := rfl
@[simp] theorem State.releaseKey_dataRead (k : Nibble) (z : Nat) : (s.releaseKey k).dataRead z = s.dataRead z := rfl
@[simp] theorem State.releaseKey_dataAddr (k : Nibble) (z : Nat) : (s.releaseKey k).dataAddr z = s.dataAddr z := rfl
@[simp] theorem State.releaseKey_width (k : Nibble) : (s.releaseKey k).width = s.width := rfl
@[simp] theorem State.releaseKey_height (k : Nibble) : (s.releaseKey k).height = s.height := rfl

@[simp] theorem State.clearKeys_v (z : Reg) : s.clearKeys.v z = s.v z := rfl
@[simp] theorem State.clearKeys_rplAt (z : BitVec 3) : s.clearKeys.rplAt z = s.rplAt z := rfl
@[simp] theorem State.clearKeys_memRead (z : Nat) : s.clearKeys.memRead z = s.memRead z := rfl
@[simp] theorem State.clearKeys_dataRead (z : Nat) : s.clearKeys.dataRead z = s.dataRead z := rfl
@[simp] theorem State.clearKeys_dataAddr (z : Nat) : s.clearKeys.dataAddr z = s.dataAddr z := rfl
@[simp] theorem State.clearKeys_width : s.clearKeys.width = s.width := rfl
@[simp] theorem State.clearKeys_height : s.clearKeys.height = s.height := rfl

@[simp] theorem State.setFb_v (f : Framebuffer) (z : Reg) : (s.setFb f).v z = s.v z := rfl
@[simp] theorem State.setFb_key (f : Framebuffer) (z : Nibble) : (s.setFb f).key z = s.key z := rfl
@[simp] theorem State.setFb_rplAt (f : Framebuffer) (z : BitVec 3) : (s.setFb f).rplAt z = s.rplAt z := rfl
@[simp] theorem State.setFb_memRead (f : Framebuffer) (z : Nat) : (s.setFb f).memRead z = s.memRead z := rfl
@[simp] theorem State.setFb_dataRead (f : Framebuffer) (z : Nat) : (s.setFb f).dataRead z = s.dataRead z := rfl
@[simp] theorem State.setFb_dataAddr (f : Framebuffer) (z : Nat) : (s.setFb f).dataAddr z = s.dataAddr z := rfl
@[simp] theorem State.setFb_width (f : Framebuffer) : (s.setFb f).width = s.width := rfl
@[simp] theorem State.setFb_height (f : Framebuffer) : (s.setFb f).height = s.height := rfl
@[simp] theorem State.setFb_firstKey (f : Framebuffer) : (s.setFb f).firstKey = s.firstKey := rfl

@[simp] theorem State.markDraw_v (z : Reg) : s.markDraw.v z = s.v z := rfl
@[simp] theorem State.markDraw_key (z : Nibble) : s.markDraw.key z = s.key z := rfl
@[simp] theorem State.markDraw_rplAt (z : BitVec 3) : s.markDraw.rplAt z = s.rplAt z := rfl
@[simp] theorem State.markDraw_memRead (z : Nat) : s.markDraw.memRead z = s.memRead z := rfl
@[simp] theorem State.markDraw_dataRead (z : Nat) : s.markDraw.dataRead z = s.dataRead z := rfl
@[simp] theorem State.markDraw_dataAddr (z : Nat) : s.markDraw.dataAddr z = s.dataAddr z := rfl
@[simp] theorem State.markDraw_width : s.markDraw.width = s.width := rfl
@[simp] theorem State.markDraw_height : s.markDraw.height = s.height := rfl
@[simp] theorem State.markDraw_firstKey : s.markDraw.firstKey = s.firstKey := rfl

@[simp] theorem State.setExtended_v (b : Bool) (z : Reg) : (s.setExtended b).v z = s.v z := rfl
@[simp] theorem State.setExtended_key (b : Bool) (z : Nibble) : (s.setExtended b).key z = s.key z := rfl
@[simp] theorem State.setExtended_rplAt (b : Bool) (z : BitVec 3) : (s.setExtended b).rplAt z = s.rplAt z := rfl
@[simp] theorem State.setExtended_memRead (b : Bool) (z : Nat) : (s.setExtended b).memRead z = s.memRead z := rfl
@[simp] theorem State.setExtended_dataRead (b : Bool) (z : Nat) : (s.setExtended b).dataRead z = s.dataRead z := rfl
@[simp] theorem State.setExtended_dataAddr (b : Bool) (z : Nat) : (s.setExtended b).dataAddr z = s.dataAddr z := rfl
@[simp] theorem State.setExtended_firstKey (b : Bool) : (s.setExtended b).firstKey = s.firstKey := rfl

@[simp] theorem State.requestExit_v (z : Reg) : s.requestExit.v z = s.v z := rfl
@[simp] theorem State.requestExit_key (z : Nibble) : s.requestExit.key z = s.key z := rfl
@[simp] theorem State.requestExit_rplAt (z : BitVec 3) : s.requestExit.rplAt z = s.rplAt z := rfl
@[simp] theorem State.requestExit_memRead (z : Nat) : s.requestExit.memRead z = s.memRead z := rfl
@[simp] theorem State.requestExit_dataRead (z : Nat) : s.requestExit.dataRead z = s.dataRead z := rfl
@[simp] theorem State.requestExit_dataAddr (z : Nat) : s.requestExit.dataAddr z = s.dataAddr z := rfl
@[simp] theorem State.requestExit_width : s.requestExit.width = s.width := rfl
@[simp] theorem State.requestExit_height : s.requestExit.height = s.height := rfl
@[simp] theorem State.requestExit_firstKey : s.requestExit.firstKey = s.firstKey := rfl

@[simp] theorem State.setAwaiting_v (b : Bool) (z : Reg) : (s.setAwaiting b).v z = s.v z := rfl
@[simp] theorem State.setAwaiting_key (b : Bool) (z : Nibble) : (s.setAwaiting b).key z = s.key z := rfl
@[simp] theorem State.setAwaiting_rplAt (b : Bool) (z : BitVec 3) : (s.setAwaiting b).rplAt z = s.rplAt z := rfl
@[simp] theorem State.setAwaiting_memRead (b : Bool) (z : Nat) : (s.setAwaiting b).memRead z = s.memRead z := rfl
@[simp] theorem State.setAwaiting_dataRead (b : Bool) (z : Nat) : (s.setAwaiting b).dataRead z = s.dataRead z := rfl
@[simp] theorem State.setAwaiting_dataAddr (b : Bool) (z : Nat) : (s.setAwaiting b).dataAddr z = s.dataAddr z := rfl
@[simp] theorem State.setAwaiting_width (b : Bool) : (s.setAwaiting b).width = s.width := rfl
@[simp] theorem State.setAwaiting_height (b : Bool) : (s.setAwaiting b).height = s.height := rfl
@[simp] theorem State.setAwaiting_firstKey (b : Bool) : (s.setAwaiting b).firstKey = s.firstKey := rfl

@[simp] theorem State.report_v (op : Word) (z : Reg) : (s.report op).v z = s.v z := rfl
@[simp] theorem State.report_key (op : Word) (z : Nibble) : (s.report op).key z = s.key z := rfl
@[simp] theorem State.report_rplAt (op : Word) (z : BitVec 3) : (s.report op).rplAt z = s.rplAt z := rfl
@[simp] theorem State.report_memRead (op : Word) (z : Nat) : (s.report op).memRead z = s.memRead z := rfl
@[simp] theorem State.report_dataRead (op : Word) (z : Nat) : (s.report op).dataRead z = s.dataRead z := rfl
@[simp] theorem State.report_dataAddr (op : Word) (z : Nat) : (s.report op).dataAddr z = s.dataAddr z := rfl
@[simp] theorem State.report_width (op : Word) : (s.report op).width = s.width := rfl
@[simp] theorem State.report_height (op : Word) : (s.report op).height = s.height := rfl
@[simp] theorem State.report_firstKey (op : Word) : (s.report op).firstKey = s.firstKey := rfl

@[simp] theorem State.raise_v (kind : FaultKind) (op : Option Word) (value : Option Byte) (z : Reg) : (s.raise kind op value).v z = s.v z := rfl
@[simp] theorem State.raise_key (kind : FaultKind) (op : Option Word) (value : Option Byte) (z : Nibble) : (s.raise kind op value).key z = s.key z := rfl
@[simp] theorem State.raise_rplAt (kind : FaultKind) (op : Option Word) (value : Option Byte) (z : BitVec 3) : (s.raise kind op value).rplAt z = s.rplAt z := rfl
@[simp] theorem State.raise_memRead (kind : FaultKind) (op : Option Word) (value : Option Byte) (z : Nat) : (s.raise kind op value).memRead z = s.memRead z := rfl
@[simp] theorem State.raise_dataRead (kind : FaultKind) (op : Option Word) (value : Option Byte) (z : Nat) : (s.raise kind op value).dataRead z = s.dataRead z := rfl
@[simp] theorem State.raise_dataAddr (kind : FaultKind) (op : Option Word) (value : Option Byte) (z : Nat) : (s.raise kind op value).dataAddr z = s.dataAddr z := rfl
@[simp] theorem State.raise_width (kind : FaultKind) (op : Option Word) (value : Option Byte) : (s.raise kind op value).width = s.width := rfl
@[simp] theorem State.raise_height (kind : FaultKind) (op : Option Word) (value : Option Byte) : (s.raise kind op value).height = s.height := rfl
@[simp] theorem State.raise_firstKey (kind : FaultKind) (op : Option Word) (value : Option Byte) : (s.raise kind op value).firstKey = s.firstKey := rfl

@[simp] theorem State.setDebug_v (b : Bool) (z : Reg) : (s.setDebug b).v z = s.v z := rfl
@[simp] theorem State.setDebug_key (b : Bool) (z : Nibble) : (s.setDebug b).key z = s.key z := rfl
@[simp] theorem State.setDebug_rplAt (b : Bool) (z : BitVec 3) : (s.setDebug b).rplAt z = s.rplAt z := rfl
@[simp] theorem State.setDebug_memRead (b : Bool) (z : Nat) : (s.setDebug b).memRead z = s.memRead z := rfl
@[simp] theorem State.setDebug_dataRead (b : Bool) (z : Nat) : (s.setDebug b).dataRead z = s.dataRead z := rfl
@[simp] theorem State.setDebug_dataAddr (b : Bool) (z : Nat) : (s.setDebug b).dataAddr z = s.dataAddr z := rfl
@[simp] theorem State.setDebug_width (b : Bool) : (s.setDebug b).width = s.width := rfl
@[simp] theorem State.setDebug_height (b : Bool) : (s.setDebug b).height = s.height := rfl
@[simp] theorem State.setDebug_firstKey (b : Bool) : (s.setDebug b).firstKey = s.firstKey := rfl

end Sys2Proof.Machine
end

