-- ==== Sys2Proof/Laws/Memory.lean ====
section
/-! SUPPORT. Memory: a read after a write, and the canonical form. -/

namespace Sys2Proof.Machine

theorem Memory.find?_insertCell_other {c : Host.Cell} {b : Nat} (h : c.1 ≠ b) (m : Memory) :
    (Memory.insertCell c m).find? (fun d => d.1 == b) = m.find? (fun d => d.1 == b) := by
  induction m with
  | nil => simp [Memory.insertCell, h]
  | cons d m ih =>
    unfold Memory.insertCell
    split
    · simp [h]
    · simp only [List.find?_cons, ih]

theorem Memory.find?_insertCell_same {c : Host.Cell} {m : Memory} (h : ∀ d ∈ m, d.1 ≠ c.1) :
    (Memory.insertCell c m).find? (fun d => d.1 == c.1) = some c := by
  induction m with
  | nil => simp [Memory.insertCell]
  | cons d m ih =>
    unfold Memory.insertCell
    split
    · simp
    · have hd : d.1 ≠ c.1 := h d (by simp)
      have := ih fun e he => h e (by simp [he])
      simp [hd, this]

theorem Memory.find?_filter_same (m : Memory) (a : Nat) :
    (m.filter (fun c => c.1 != a)).find? (fun c => c.1 == a) = none := by
  simp [List.find?_eq_none]

theorem Memory.find?_filter_other {a b : Nat} (h : b ≠ a) (m : Memory) :
    (m.filter (fun c => c.1 != a)).find? (fun c => c.1 == b) = m.find? (fun c => c.1 == b) := by
  induction m with
  | nil => rfl
  | cons c m ih =>
    by_cases hc : c.1 = a
    · simp [hc, ih, Ne.symm h]
    · simp [hc, List.find?_cons, ih]

/-- A read after a write to the same address gives the byte written (R66). -/
@[simp] theorem Memory.read_write_same (m : Memory) (a : Nat) (v : Byte) : (m.write a v).read a = v := by
  unfold Memory.write Memory.read
  dsimp only
  split_ifs with h
  · rw [Memory.find?_filter_same, h]
  · rw [Memory.find?_insertCell_same (c := (a, v))]
    simp

/-- A write leaves every other address alone. -/
theorem Memory.read_write_other {a b : Nat} (h : b ≠ a) (m : Memory) (v : Byte) :
    (m.write a v).read b = m.read b := by
  unfold Memory.write Memory.read
  dsimp only
  split_ifs with hv
  · rw [Memory.find?_filter_other h]
  · rw [Memory.find?_insertCell_other (c := (a, v)) (Ne.symm h), Memory.find?_filter_other h]

/-- A read after a write, in one equation. -/
theorem Memory.read_write (m : Memory) (a b : Nat) (v : Byte) :
    (m.write a v).read b = if b = a then v else m.read b := by
  split_ifs with h
  · subst h; simp
  · exact Memory.read_write_other h m v

theorem Memory.mem_insertCell {c d : Host.Cell} {m : Memory} :
    d ∈ Memory.insertCell c m ↔ d = c ∨ d ∈ m := by
  induction m with
  | nil => simp [Memory.insertCell]
  | cons e m ih =>
    unfold Memory.insertCell
    split
    · simp
    · simp only [List.mem_cons, ih]; tauto

theorem Memory.pairwise_insertCell {c : Host.Cell} {m : Memory}
    (hm : (m.map Prod.fst).Pairwise (· < ·)) (hc : ∀ d ∈ m, d.1 ≠ c.1) :
    ((Memory.insertCell c m).map Prod.fst).Pairwise (· < ·) := by
  induction m with
  | nil => simp [Memory.insertCell]
  | cons e m ih =>
    have hm' := hm
    simp only [List.map_cons, List.pairwise_cons, List.mem_map, forall_exists_index, and_imp,
      forall_apply_eq_imp_iff₂] at hm
    unfold Memory.insertCell
    split
    · rename_i h
      simp only [List.map_cons, List.pairwise_cons, List.mem_cons, List.mem_map, forall_eq_or_imp,
        forall_exists_index, and_imp, forall_apply_eq_imp_iff₂]
      exact ⟨⟨h, fun d hd => lt_trans h (hm.1 d hd)⟩, hm.1, hm.2⟩
    · rename_i h
      have he : e.1 ≠ c.1 := hc e (by simp)
      simp only [List.map_cons, List.pairwise_cons, List.mem_map, forall_exists_index, and_imp,
        forall_apply_eq_imp_iff₂]
      refine ⟨fun d hd => ?_, ih hm.2 fun d hd => hc d (by simp [hd])⟩
      rcases Memory.mem_insertCell.mp hd with rfl | hd
      · omega
      · exact hm.1 d hd

/-- A write keeps the canonical form. -/
theorem Memory.wf_write {m : Memory} (hm : m.wf) {a : Nat} (ha : a < memSize) (v : Byte) :
    (m.write a v).wf := by
  have hsub : (m.filter fun c => c.1 != a).Sublist m := List.filter_sublist
  have hp : ((m.filter fun c => c.1 != a).map Prod.fst).Pairwise (· < ·) := hm.1.sublist (hsub.map _)
  unfold Memory.write
  dsimp only
  split_ifs with hv
  · exact ⟨hp, fun c hc => hm.2 c (hsub.subset hc)⟩
  · refine ⟨Memory.pairwise_insertCell hp (fun d hd => by simpa using (List.mem_filter.mp hd).2), fun c hc => ?_⟩
    rcases Memory.mem_insertCell.mp hc with rfl | hc
    · exact ⟨ha, hv⟩
    · exact hm.2 c (hsub.subset hc)

/-- Memory with nothing listed is canonical. -/
theorem Memory.wf_nil : Memory.wf [] := by decide

/-- A memory given by its contents is canonical. -/
theorem Memory.wf_ofContents (f : Nat → Byte) : (Memory.ofContents f).wf := by
  unfold Memory.ofContents
  refine ⟨?_, fun c hc => ?_⟩
  · rw [List.pairwise_map, List.pairwise_filterMap]
    refine List.Pairwise.imp ?_ List.pairwise_lt_range
    intro a b hab c hc d hd
    split_ifs at hc hd
    simp only [Option.some.injEq] at hc hd
    rw [← hc, ← hd]; exact hab
  · obtain ⟨a, ha, h⟩ := List.mem_filterMap.mp hc
    split_ifs at h with hf
    simp only [Option.some.injEq] at h
    subst h
    exact ⟨by simpa using ha, hf⟩

/-- Reading a list of cells, one cell at a time. -/
theorem Memory.read_cons (c : Host.Cell) (m : Memory) (a : Nat) :
    Memory.read (c :: m) a = if c.1 = a then c.2 else m.read a := by
  unfold Memory.read
  by_cases h : c.1 = a <;> simp [h]

theorem Memory.read_filterMap (f : Nat → Byte) (a : Nat) (l : List Nat) :
    Memory.read (l.filterMap fun b => if f b = Memory.unlisted b then none else some (b, f b)) a =
      if a ∈ l then f a else Memory.unlisted a := by
  induction l with
  | nil => rfl
  | cons b l ih =>
    by_cases hf : f b = Memory.unlisted b
    · rw [List.filterMap_cons_none (by simp [hf]), ih]
      by_cases hab : a = b
      · subst hab; simp [hf]
      · simp [hab]
    · rw [List.filterMap_cons_some (b := (b, f b)) (by simp [hf]), Memory.read_cons, ih]
      by_cases hab : a = b
      · subst hab; simp
      · simp [hab, Ne.symm hab]

/-- A memory given by its contents reads as them. -/
theorem Memory.read_ofContents (f : Nat → Byte) {a : Nat} (ha : a < memSize) :
    (Memory.ofContents f).read a = f a := by
  simp [Memory.ofContents, Memory.read_filterMap, ha]

/-- With the default parameters `initialize` lists nothing. -/
theorem Memory.ofContents_default : Memory.ofContents (initialByte defaultParams) = [] := by
  simp [Memory.ofContents, Memory.unlisted]

/-- MemRead after MemWrite: the two addresses meet exactly when they agree modulo 4096 (R63, R66). -/
theorem State.memRead_memWrite (s : State) (a b : Nat) (v : Byte) :
    (s.memWrite a v).memRead b = if b % memSize = a % memSize then v else s.memRead b := by
  simp [State.memRead, Memory.read_write]

/-- A data write keeps the canonical form. -/
theorem State.wf_dataWrite {s : State} (h : s.mem.wf) (k : Nat) (v : Byte) : (s.dataWrite k v).mem.wf :=
  Memory.wf_write h (Nat.mod_lt _ (by decide)) v

/-- A write of any address keeps the canonical form. -/
theorem State.wf_memWrite {s : State} (h : s.mem.wf) (a : Nat) (v : Byte) : (s.memWrite a v).mem.wf :=
  Memory.wf_write h (Nat.mod_lt _ (by decide)) v

end Sys2Proof.Machine
end

