-- ==== Sys2Proof/Laws/Screen.lean ====
section
/-! SUPPORT. The framebuffer: a cell after a write, toggling a list of cells, and moving a region. -/

namespace Sys2Proof.Machine

theorem Framebuffer.mem_insertCell {j k : Nat} {f : Framebuffer} :
    j ∈ Framebuffer.insertCell k f ↔ j = k ∨ j ∈ f := by
  induction f with
  | nil => simp [Framebuffer.insertCell]
  | cons e f ih =>
    unfold Framebuffer.insertCell
    split
    · simp
    · simp only [List.mem_cons, ih]; tauto

theorem Framebuffer.pairwise_insertCell {k : Nat} {f : Framebuffer} (hf : f.Pairwise (· < ·))
    (hk : k ∉ f) : (Framebuffer.insertCell k f).Pairwise (· < ·) := by
  induction f with
  | nil => simp [Framebuffer.insertCell]
  | cons e f ih =>
    rw [List.pairwise_cons] at hf
    rw [List.mem_cons, not_or] at hk
    unfold Framebuffer.insertCell
    split
    · rename_i h
      simp only [List.pairwise_cons, List.mem_cons, forall_eq_or_imp]
      exact ⟨⟨h, fun j hj => lt_trans h (hf.1 j hj)⟩, hf⟩
    · rw [List.pairwise_cons]
      refine ⟨fun j hj => ?_, ih hf.2 hk.2⟩
      rcases Framebuffer.mem_insertCell.mp hj with rfl | hj
      · omega
      · exact hf.1 j hj

/-- A cell after a write. -/
theorem Framebuffer.cell_put (f : Framebuffer) (j k : Nat) (b : Bool) :
    (f.put k b).cell j = if j = k then b else f.cell j := by
  unfold Framebuffer.put Framebuffer.cell
  by_cases h : j = k <;> cases b <;> simp [h, Framebuffer.mem_insertCell]

/-- A write keeps the canonical form. -/
theorem Framebuffer.wf_put {f : Framebuffer} (hf : f.wf) {k : Nat} (hk : k < fbCells) (b : Bool) :
    (f.put k b).wf := by
  have hsub : (f.filter fun j => j != k).Sublist f := List.filter_sublist
  have hp := hf.1.sublist hsub
  unfold Framebuffer.put
  dsimp only
  split_ifs
  · refine ⟨Framebuffer.pairwise_insertCell hp (by simp), fun j hj => ?_⟩
    rcases Framebuffer.mem_insertCell.mp hj with rfl | hj
    · exact hk
    · exact hf.2 j (hsub.subset hj)
  · exact ⟨hp, fun j hj => hf.2 j (hsub.subset hj)⟩

/-- A cell after one toggle. -/
theorem Framebuffer.cell_toggle (p : Framebuffer × Bool) (j k : Nat) :
    (Framebuffer.toggle p k).1.cell j = if j = k then !p.1.cell k else p.1.cell j :=
  Framebuffer.cell_put _ _ _ _

/-- What toggling distinct cells in order does, from any start: each listed cell is inverted, every other one
kept, and the collision says whether some listed cell held 1. -/
theorem Framebuffer.foldl_toggle {ks : List Nat} (hks : ks.Nodup) (p : Framebuffer × Bool) :
    (∀ j, (ks.foldl Framebuffer.toggle p).1.cell j = if j ∈ ks then !p.1.cell j else p.1.cell j) ∧
    (ks.foldl Framebuffer.toggle p).2 = (p.2 || ks.any p.1.cell) := by
  induction ks generalizing p with
  | nil => simp
  | cons k ks ih =>
    rw [List.nodup_cons] at hks
    obtain ⟨h1, h2⟩ := ih hks.2 (Framebuffer.toggle p k)
    refine ⟨fun j => ?_, ?_⟩
    · rw [List.foldl_cons, h1 j, Framebuffer.cell_toggle]
      by_cases hjk : j = k
      · subst hjk; simp [hks.1]
      · simp [hjk]
    · rw [List.foldl_cons, h2]
      have : ks.any (Framebuffer.toggle p k).1.cell = ks.any p.1.cell := by
        rw [Bool.eq_iff_iff, List.any_eq_true, List.any_eq_true]
        refine exists_congr fun j => and_congr_right fun hj => ?_
        have hjk : j ≠ k := fun e => hks.1 (e ▸ hj)
        rw [Framebuffer.cell_toggle]; simp [hjk]
      rw [this]
      simp [Framebuffer.toggle, Bool.or_assoc]

/-- A cell after toggling distinct cells (R140). -/
theorem Framebuffer.cell_toggleAll {ks : List Nat} (hks : ks.Nodup) (f : Framebuffer) (j : Nat) :
    (f.toggleAll ks).1.cell j = if j ∈ ks then !f.cell j else f.cell j :=
  (Framebuffer.foldl_toggle hks (f, false)).1 j

/-- The collision of toggling distinct cells: one of them held 1 (R140). -/
theorem Framebuffer.hit_toggleAll {ks : List Nat} (hks : ks.Nodup) (f : Framebuffer) :
    (f.toggleAll ks).2 = ks.any f.cell := by
  simpa [Framebuffer.toggleAll] using (Framebuffer.foldl_toggle hks (f, false)).2

/-- Toggling cells of the framebuffer keeps the canonical form. -/
theorem Framebuffer.wf_toggleAll {f : Framebuffer} (hf : f.wf) {ks : List Nat} (hks : ∀ k ∈ ks, k < fbCells) :
    (f.toggleAll ks).1.wf := by
  have key : ∀ (ks : List Nat) (p : Framebuffer × Bool), p.1.wf → (∀ k ∈ ks, k < fbCells) →
      (ks.foldl Framebuffer.toggle p).1.wf := by
    intro ks
    induction ks with
    | nil => intro p hp _; exact hp
    | cons k ks ih =>
      intro p hp hks
      exact ih _ (Framebuffer.wf_put hp (hks k (by simp)) _) fun j hj => hks j (by simp [hj])
  exact key ks (f, false) hf hks

/-- A cell outside the region stays; a cell of the region is set exactly when a set pixel moves to it. -/
theorem Framebuffer.cell_moveRegion (f : Framebuffer) (w h : Nat) (move : Nat → Nat → Option (Nat × Nat))
    (hmove : ∀ x y q, x < w → y < h → move x y = some q → q.1 < w ∧ q.2 < h) (j : Nat) :
    (f.moveRegion w h move).cell j = true ↔
      if j < w * h then ∃ x y, x < w ∧ y < h ∧ f.cell (y * w + x) = true ∧ move x y = some (j % w, j / w)
      else f.cell j = true := by
  unfold Framebuffer.moveRegion Framebuffer.cell
  simp only [decide_eq_true_eq, List.mem_filterMap]
  split_ifs with hj
  · have hw : 0 < w := Nat.pos_of_ne_zero (by rintro rfl; simp at hj)
    constructor
    · rintro ⟨k, hk, he⟩
      split_ifs at he with hkr
      · obtain ⟨q, hq, rfl⟩ := Option.map_eq_some_iff.mp he
        have hx : k % w < w := Nat.mod_lt _ hw
        have hy : k / w < h := Nat.div_lt_of_lt_mul hkr
        obtain ⟨h1, h2⟩ := hmove _ _ _ hx hy hq
        refine ⟨k % w, k / w, hx, hy, ?_, ?_⟩
        · have : k / w * w + k % w = k := by rw [Nat.mul_comm]; exact Nat.div_add_mod k w
          rwa [this]
        · rw [hq]
          have e1 : (q.2 * w + q.1) % w = q.1 := by
            rw [Nat.add_comm, Nat.add_mul_mod_self_right]; exact Nat.mod_eq_of_lt h1
          have e2 : (q.2 * w + q.1) / w = q.2 := by
            rw [Nat.add_comm, Nat.add_mul_div_right _ _ hw, Nat.div_eq_of_lt h1, Nat.zero_add]
          rw [e1, e2]
      · simp only [Option.some.injEq] at he
        exact absurd hj (he ▸ hkr)
    · rintro ⟨x, y, hx, hy, hf, hm⟩
      refine ⟨y * w + x, hf, ?_⟩
      have hlt : y * w + x < w * h := by
        have : y * w + w ≤ h * w := by rw [← Nat.succ_mul]; exact Nat.mul_le_mul_right _ hy
        rw [Nat.mul_comm w h]; omega
      have e1 : (y * w + x) % w = x := by
        rw [Nat.add_comm, Nat.add_mul_mod_self_right]; exact Nat.mod_eq_of_lt hx
      have e2 : (y * w + x) / w = y := by
        rw [Nat.add_comm, Nat.add_mul_div_right _ _ hw, Nat.div_eq_of_lt hx, Nat.zero_add]
      rw [if_pos hlt, e1, e2, hm]
      simp only [Option.map_some, Option.some.injEq]
      rw [Nat.mul_comm]; exact Nat.div_add_mod j w
  · constructor
    · rintro ⟨k, hk, he⟩
      split_ifs at he with hkr
      · exfalso
        obtain ⟨q, hq, rfl⟩ := Option.map_eq_some_iff.mp he
        have hw : 0 < w := Nat.pos_of_ne_zero (by rintro rfl; simp at hkr)
        obtain ⟨h1, h2⟩ := hmove _ _ _ (Nat.mod_lt _ hw) (Nat.div_lt_of_lt_mul hkr) hq
        apply hj
        have : q.2 * w + w ≤ h * w := by rw [← Nat.succ_mul]; exact Nat.mul_le_mul_right _ h2
        rw [Nat.mul_comm w h]; omega
      · simp only [Option.some.injEq] at he
        exact he ▸ hk
    · intro hf
      exact ⟨j, hf, by rw [if_neg hj]⟩

theorem Framebuffer.pixel_lt {w h x y : Nat} (hx : x < w) (hy : y < h) : y * w + x < w * h := by
  have : y * w + w ≤ h * w := by rw [← Nat.succ_mul]; exact Nat.mul_le_mul_right _ hy
  rw [Nat.mul_comm w h]; omega

theorem Framebuffer.pixel_mod {w x : Nat} (hx : x < w) (y : Nat) : (y * w + x) % w = x := by
  rw [Nat.add_comm, Nat.add_mul_mod_self_right]; exact Nat.mod_eq_of_lt hx

theorem Framebuffer.pixel_div {w x : Nat} (hx : x < w) (y : Nat) : (y * w + x) / w = y := by
  rw [Nat.add_comm, Nat.add_mul_div_right _ _ (by omega), Nat.div_eq_of_lt hx, Nat.zero_add]

/-- Pixel (x, y) after a scroll down (R142). -/
theorem Framebuffer.cell_scrollDown (f : Framebuffer) {w h n x y : Nat} (hx : x < w) (hy : y < h) :
    (f.scrollDown w h n).cell (y * w + x) = if n ≤ y then f.cell ((y - n) * w + x) else false := by
  rw [Bool.eq_iff_iff, Framebuffer.scrollDown, Framebuffer.cell_moveRegion _ _ _ _ (by grind),
    if_pos (Framebuffer.pixel_lt hx hy), Framebuffer.pixel_mod hx, Framebuffer.pixel_div hx]
  split_ifs with hn
  · constructor
    · rintro ⟨x', y', _, _, hc, hm⟩
      split_ifs at hm
      simp only [Option.some.injEq, Prod.mk.injEq] at hm
      obtain ⟨rfl, rfl⟩ := hm
      simpa using hc
    · intro hc
      exact ⟨x, y - n, hx, by omega, hc, by rw [if_pos (by omega)]; simp; omega⟩
  · constructor
    · rintro ⟨x', y', _, _, _, hm⟩
      split_ifs at hm
      simp only [Option.some.injEq, Prod.mk.injEq] at hm
      omega
    · simp

/-- Pixel (x, y) after a scroll up (93 Part 1). -/
theorem Framebuffer.cell_scrollUp (f : Framebuffer) {w h n x y : Nat} (hx : x < w) (hy : y < h) :
    (f.scrollUp w h n).cell (y * w + x) = if y + n < h then f.cell ((y + n) * w + x) else false := by
  rw [Bool.eq_iff_iff, Framebuffer.scrollUp, Framebuffer.cell_moveRegion _ _ _ _ (by grind),
    if_pos (Framebuffer.pixel_lt hx hy), Framebuffer.pixel_mod hx, Framebuffer.pixel_div hx]
  split_ifs with hn
  · constructor
    · rintro ⟨x', y', _, _, hc, hm⟩
      split_ifs at hm
      simp only [Option.some.injEq, Prod.mk.injEq] at hm
      obtain ⟨rfl, rfl⟩ := hm
      rwa [Nat.sub_add_cancel (by omega)]
    · intro hc
      exact ⟨x, y + n, hx, hn, hc, by rw [if_pos (by omega)]; simp⟩
  · constructor
    · rintro ⟨x', y', _, _, _, hm⟩
      split_ifs at hm
      simp only [Option.some.injEq, Prod.mk.injEq] at hm
      omega
    · simp

/-- Pixel (x, y) after a scroll right (R143). -/
theorem Framebuffer.cell_scrollRight (f : Framebuffer) {w h n x y : Nat} (hx : x < w) (hy : y < h) :
    (f.scrollRight w h n).cell (y * w + x) = if n ≤ x then f.cell (y * w + (x - n)) else false := by
  rw [Bool.eq_iff_iff, Framebuffer.scrollRight, Framebuffer.cell_moveRegion _ _ _ _ (by grind),
    if_pos (Framebuffer.pixel_lt hx hy), Framebuffer.pixel_mod hx, Framebuffer.pixel_div hx]
  split_ifs with hn
  · constructor
    · rintro ⟨x', y', _, _, hc, hm⟩
      split_ifs at hm
      simp only [Option.some.injEq, Prod.mk.injEq] at hm
      obtain ⟨rfl, rfl⟩ := hm
      simpa using hc
    · intro hc
      exact ⟨x - n, y, by omega, hy, hc, by rw [if_pos (by omega)]; simp; omega⟩
  · constructor
    · rintro ⟨x', y', _, _, _, hm⟩
      split_ifs at hm
      simp only [Option.some.injEq, Prod.mk.injEq] at hm
      omega
    · simp

/-- Pixel (x, y) after a scroll left (R144). -/
theorem Framebuffer.cell_scrollLeft (f : Framebuffer) {w h n x y : Nat} (hx : x < w) (hy : y < h) :
    (f.scrollLeft w h n).cell (y * w + x) = if x + n < w then f.cell (y * w + (x + n)) else false := by
  rw [Bool.eq_iff_iff, Framebuffer.scrollLeft, Framebuffer.cell_moveRegion _ _ _ _ (by grind),
    if_pos (Framebuffer.pixel_lt hx hy), Framebuffer.pixel_mod hx, Framebuffer.pixel_div hx]
  split_ifs with hn
  · constructor
    · rintro ⟨x', y', _, _, hc, hm⟩
      split_ifs at hm
      simp only [Option.some.injEq, Prod.mk.injEq] at hm
      obtain ⟨rfl, rfl⟩ := hm
      rwa [Nat.sub_add_cancel (by omega)]
    · intro hc
      exact ⟨x + n, y, hn, hy, hc, by rw [if_pos (by omega)]; simp⟩
  · constructor
    · rintro ⟨x', y', _, _, _, hm⟩
      split_ifs at hm
      simp only [Option.some.injEq, Prod.mk.injEq] at hm
      omega
    · simp

/-- A move that stays in the region and keeps the row-major order keeps the canonical form. -/
theorem Framebuffer.wf_moveRegion {f : Framebuffer} (hf : f.wf) {w h : Nat} (hwh : w * h ≤ fbCells)
    {move : Nat → Nat → Option (Nat × Nat)}
    (hmove : ∀ x y q, x < w → y < h → move x y = some q → q.1 < w ∧ q.2 < h)
    (hmono : ∀ x y x' y' q q', x < w → x' < w → y * w + x < y' * w + x' → move x y = some q →
      move x' y' = some q' → q.2 * w + q.1 < q'.2 * w + q'.1) :
    (f.moveRegion w h move).wf := by
  have coord : ∀ k, k / w * w + k % w = k := fun k => by rw [Nat.mul_comm]; exact Nat.div_add_mod k w
  have inside : ∀ k, k < w * h → ∀ q, move (k % w) (k / w) = some q → q.2 * w + q.1 < w * h := by
    intro k hk q hq
    have hw : 0 < w := Nat.pos_of_ne_zero (by rintro rfl; simp at hk)
    obtain ⟨h1, h2⟩ := hmove _ _ _ (Nat.mod_lt _ hw) (Nat.div_lt_of_lt_mul hk) hq
    exact Framebuffer.pixel_lt h1 h2
  unfold Framebuffer.moveRegion
  refine ⟨?_, fun j hj => ?_⟩
  · rw [List.pairwise_filterMap]
    refine hf.1.imp ?_
    intro a b hab j hj k hk
    split_ifs at hj with ha <;> split_ifs at hk with hb
    · obtain ⟨q, hq, rfl⟩ := Option.map_eq_some_iff.mp hj
      obtain ⟨q', hq', rfl⟩ := Option.map_eq_some_iff.mp hk
      have hw : 0 < w := Nat.pos_of_ne_zero (by rintro rfl; simp at ha)
      exact hmono _ _ _ _ _ _ (Nat.mod_lt _ hw) (Nat.mod_lt _ hw) (by rw [coord, coord]; exact hab) hq hq'
    · obtain ⟨q, hq, rfl⟩ := Option.map_eq_some_iff.mp hj
      simp only [Option.some.injEq] at hk
      have := inside a ha q hq
      omega
    · omega
    · simp only [Option.some.injEq] at hj hk
      omega
  · obtain ⟨k, hk, he⟩ := List.mem_filterMap.mp hj
    split_ifs at he with hkr
    · obtain ⟨q, hq, rfl⟩ := Option.map_eq_some_iff.mp he
      exact lt_of_lt_of_le (inside k hkr q hq) hwh
    · simp only [Option.some.injEq] at he
      exact he ▸ hf.2 k hk

theorem Framebuffer.wf_scrollDown {f : Framebuffer} (hf : f.wf) {w h : Nat} (hwh : w * h ≤ fbCells) (n : Nat) :
    (f.scrollDown w h n).wf := by
  refine Framebuffer.wf_moveRegion hf hwh (by grind) ?_
  intro x y x' y' q q' hx hx' hlt hq hq'
  split_ifs at hq hq'
  simp only [Option.some.injEq] at hq hq'
  subst hq hq'
  simp only [Nat.add_mul]
  omega

theorem Framebuffer.wf_scrollUp {f : Framebuffer} (hf : f.wf) {w h : Nat} (hwh : w * h ≤ fbCells) (n : Nat) :
    (f.scrollUp w h n).wf := by
  refine Framebuffer.wf_moveRegion hf hwh (by grind) ?_
  intro x y x' y' q q' hx hx' hlt hq hq'
  split_ifs at hq hq' with h1 h2
  simp only [Option.some.injEq] at hq hq'
  subst hq hq'
  have e : n * w ≤ y * w := Nat.mul_le_mul_right _ h1
  have e' : n * w ≤ y' * w := Nat.mul_le_mul_right _ h2
  simp only [Nat.sub_mul]
  omega

theorem Framebuffer.wf_scrollRight {f : Framebuffer} (hf : f.wf) {w h : Nat} (hwh : w * h ≤ fbCells) (n : Nat) :
    (f.scrollRight w h n).wf := by
  refine Framebuffer.wf_moveRegion hf hwh (by grind) ?_
  intro x y x' y' q q' hx hx' hlt hq hq'
  split_ifs at hq hq'
  simp only [Option.some.injEq] at hq hq'
  subst hq hq'
  dsimp only
  omega

theorem Framebuffer.wf_scrollLeft {f : Framebuffer} (hf : f.wf) {w h : Nat} (hwh : w * h ≤ fbCells) (n : Nat) :
    (f.scrollLeft w h n).wf := by
  refine Framebuffer.wf_moveRegion hf hwh (by grind) ?_
  intro x y x' y' q q' hx hx' hlt hq hq'
  split_ifs at hq hq'
  simp only [Option.some.injEq] at hq hq'
  subst hq hq'
  rcases Nat.lt_trichotomy y y' with hy | hy | hy
  · have : y * w + w ≤ y' * w := by rw [← Nat.succ_mul]; exact Nat.mul_le_mul_right _ hy
    dsimp only; omega
  · subst hy; dsimp only; omega
  · have : y' * w + w ≤ y * w := by rw [← Nat.succ_mul]; exact Nat.mul_le_mul_right _ hy
    omega

/-- Every scroll leaves the cells outside the active region (R147). -/
theorem Framebuffer.cell_moveRegion_outside (f : Framebuffer) {w h j : Nat} (hj : w * h ≤ j)
    {move : Nat → Nat → Option (Nat × Nat)}
    (hmove : ∀ x y q, x < w → y < h → move x y = some q → q.1 < w ∧ q.2 < h) :
    (f.moveRegion w h move).cell j = f.cell j := by
  rw [Bool.eq_iff_iff, Framebuffer.cell_moveRegion _ _ _ _ hmove, if_neg (by omega)]

theorem Framebuffer.scrollDown_outside (f : Framebuffer) {w h j : Nat} (hj : w * h ≤ j) (n : Nat) :
    (f.scrollDown w h n).cell j = f.cell j := f.cell_moveRegion_outside hj (by grind)

theorem Framebuffer.scrollUp_outside (f : Framebuffer) {w h j : Nat} (hj : w * h ≤ j) (n : Nat) :
    (f.scrollUp w h n).cell j = f.cell j := f.cell_moveRegion_outside hj (by grind)

theorem Framebuffer.scrollRight_outside (f : Framebuffer) {w h j : Nat} (hj : w * h ≤ j) (n : Nat) :
    (f.scrollRight w h n).cell j = f.cell j := f.cell_moveRegion_outside hj (by grind)

theorem Framebuffer.scrollLeft_outside (f : Framebuffer) {w h j : Nat} (hj : w * h ≤ j) (n : Nat) :
    (f.scrollLeft w h n).cell j = f.cell j := f.cell_moveRegion_outside hj (by grind)

/-- The active region lies inside the framebuffer (R43). -/
theorem State.region_le (s : State) : s.width * s.height ≤ fbCells := by
  unfold State.width State.height
  cases s.extended <;> decide

theorem State.region_pos (s : State) : 0 < s.width * s.height := by
  unfold State.width State.height
  cases s.extended <;> decide

end Sys2Proof.Machine
end

