-- ==== Sys2Proof/Laws/Ops.lean ====
section
/-! SUPPORT. What each shared operation does, said once: registers, stack, keys, register ranges, sprites, the
cycle driver, the host's transactions. -/

namespace Sys2Proof.Machine

/-! ## Registers -/

/-- A register after a write (R21). -/
theorem State.v_setV (s : State) (x y : Reg) (w : Byte) :
    (s.setV x w).v y = if y = x then w else s.v y := by
  unfold State.v State.setV
  simp only [Vector.getElem_set]
  by_cases h : y = x
  · subst h; simp
  · rw [if_neg h, if_neg]
    intro e
    exact h (BitVec.eq_of_toNat_eq e.symm)

@[simp] theorem State.v_setV_same (s : State) (x : Reg) (w : Byte) : (s.setV x w).v x = w := by
  rw [State.v_setV, if_pos rfl]

theorem State.v_setV_other (s : State) {x y : Reg} (h : y ≠ x) (w : Byte) : (s.setV x w).v y = s.v y := by
  rw [State.v_setV, if_neg h]

/-- An RPL register after a write (R32). -/
theorem State.rplAt_setRpl (s : State) (j k : BitVec 3) (w : Byte) :
    (s.setRpl k w).rplAt j = if j = k then w else s.rplAt j := by
  unfold State.rplAt State.setRpl
  simp only [Vector.getElem_set]
  by_cases h : j = k
  · subst h; simp
  · rw [if_neg h, if_neg]
    intro e
    exact h (BitVec.eq_of_toNat_eq e.symm)

/-- A key flag after a release (R163). -/
theorem State.key_releaseKey (s : State) (j k : Nibble) :
    (s.releaseKey k).key j = if j = k then false else s.key j := by
  unfold State.key State.releaseKey
  simp only [Vector.getElem_set]
  by_cases h : j = k
  · subst h; simp
  · rw [if_neg h, if_neg]
    intro e
    exact h (BitVec.eq_of_toNat_eq e.symm)

@[simp] theorem State.key_clearKeys (s : State) (k : Nibble) : s.clearKeys.key k = false := by
  simp [State.key, State.clearKeys]

/-! ## Call stack -/

/-- A push succeeds exactly when fewer than 16 entries are in use, and then changes one entry and sp (R28). -/
theorem State.push_eq_some {s t : State} {w : Word} :
    s.push w = some t ↔ ∃ h : s.sp.val < 16,
      t = { s with stack := s.stack.set s.sp.val w h, sp := ⟨s.sp.val + 1, by omega⟩ } := by
  unfold State.push
  split
  · rename_i h
    simp only [Option.some.injEq]
    exact ⟨fun e => ⟨h, e.symm⟩, fun ⟨_, e⟩ => e.symm⟩
  · rename_i h
    simp [h]

theorem State.push_eq_none {s : State} {w : Word} : s.push w = none ↔ s.sp = 16 := by
  have := s.sp.isLt
  unfold State.push
  split
  · rename_i h
    simp only [reduceCtorEq, false_iff]
    intro e; rw [e] at h; exact absurd h (by decide)
  · rename_i h
    simp only [true_iff]
    exact Fin.ext (by simp; omega)

/-- A pop succeeds exactly when an entry is in use; it reads the last one and changes sp alone (R28). -/
theorem State.pop_eq_some {s t : State} {a : Word} :
    s.pop = some (a, t) ↔ ∃ h : 0 < s.sp.val,
      a = s.stack[s.sp.val - 1]'(by omega) ∧ t = { s with sp := ⟨s.sp.val - 1, by omega⟩ } := by
  unfold State.pop
  split
  · rename_i h
    simp only [Option.some.injEq, Prod.mk.injEq]
    exact ⟨fun ⟨e1, e2⟩ => ⟨h, e1.symm, e2.symm⟩, fun ⟨_, e1, e2⟩ => ⟨e1.symm, e2.symm⟩⟩
  · rename_i h
    simp [h]

theorem State.pop_eq_none {s : State} : s.pop = none ↔ s.sp = 0 := by
  unfold State.pop
  split
  · rename_i h
    simp only [reduceCtorEq, false_iff]
    intro e; rw [e] at h; exact absurd h (by decide)
  · rename_i h
    simp only [true_iff]
    exact Fin.ext (by simpa using h)

/-! ## Keys -/

/-- No key is pressed exactly when the scan finds none (R165). -/
theorem State.firstKey_eq_none {s : State} : s.firstKey = none ↔ ∀ k : Nibble, s.key k = false := by
  unfold State.firstKey State.key
  rw [List.findIdx?_eq_none_iff]
  constructor
  · intro h k
    exact h _ (by simp)
  · intro h b hb
    obtain ⟨j, hj, rfl⟩ := List.getElem_of_mem hb
    have hj' : j < 16 := by simpa using hj
    have := h (BitVec.ofNat 4 j)
    simp only [BitVec.toNat_ofNat, Nat.reducePow, Nat.mod_eq_of_lt hj'] at this
    simpa using this

/-- The scan finds the least pressed key (R165). -/
theorem State.firstKey_eq_some {s : State} {j : Nat} :
    s.firstKey = some j ↔ ∃ k : Nibble, k.toNat = j ∧ s.key k = true ∧
      ∀ i : Nibble, i.toNat < j → s.key i = false := by
  unfold State.firstKey State.key
  rw [List.findIdx?_eq_some_iff_getElem]
  constructor
  · rintro ⟨hj, h1, h2⟩
    have hj' : j < 16 := by simpa using hj
    refine ⟨BitVec.ofNat 4 j, by simp [Nat.mod_eq_of_lt hj'], ?_, fun i hi => ?_⟩
    · simpa [Nat.mod_eq_of_lt hj'] using h1
    · simpa using h2 i.toNat hi
  · rintro ⟨k, rfl, h1, h2⟩
    refine ⟨by simpa using k.isLt, by simpa using h1, fun i hi => ?_⟩
    have hi' : i < 16 := lt_trans hi k.isLt
    have := h2 (BitVec.ofNat 4 i) (by simpa [Nat.mod_eq_of_lt hi'] using hi)
    simpa [Nat.mod_eq_of_lt hi'] using this

/-- A register value names a key exactly when it is at most 15, and then the key of that number (R163). -/
theorem keyIndex_eq_some {v : Byte} {k : Nibble} : keyIndex v = some k ↔ v.toNat = k.toNat := by
  unfold keyIndex
  have hk : k.toNat < 16 := k.isLt
  split_ifs with h
  · simp only [Option.some.injEq]
    constructor
    · rintro rfl; simp; omega
    · intro e; exact BitVec.eq_of_toNat_eq (by simp; omega)
  · simp; omega

theorem keyIndex_eq_none {v : Byte} : keyIndex v = none ↔ 15 < v.toNat := by
  unfold keyIndex
  split_ifs with h
  · simp; omega
  · simp; omega

/-! ## Register ranges -/

@[simp] theorem regOf_toNat {k : Nat} (h : k < 16) : (regOf k).toNat = k := by
  simp [regOf, Nat.mod_eq_of_lt h]

@[simp] theorem rplOf_toNat {k : Nat} (h : k < 8) : (rplOf k).toNat = k := by
  simp [rplOf, Nat.mod_eq_of_lt h]

theorem mem_rangeTo {x : Reg} {k : Nat} : k ∈ rangeTo x ↔ k ≤ x.toNat := by
  simp [rangeTo]

theorem mem_rplRangeTo {x : Reg} {k : Nat} : k ∈ rplRangeTo x ↔ k ≤ x.toNat ∧ k ≤ 7 := by
  simp [rplRangeTo]

theorem rangeTo_lt {x : Reg} {k : Nat} (h : k ∈ rangeTo x) : k < 16 :=
  lt_of_le_of_lt (mem_rangeTo.mp h) x.isLt

/-- Loading registers changes registers alone. -/
theorem State.loadRegs_eq (s : State) (ks : List Nat) : s.loadRegs ks = { s with regs := (s.loadRegs ks).regs } := by
  induction ks using List.reverseRecOn with
  | nil => rfl
  | append_singleton ks k ih =>
    have : s.loadRegs (ks ++ [k]) = (s.loadRegs ks).setV (regOf k) ((s.loadRegs ks).dataRead k) := by
      simp [State.loadRegs]
    rw [this]; unfold State.setV; rw [ih]

/-- Restoring registers from the RPL bank changes registers alone. -/
theorem State.restoreRpl_eq (s : State) (ks : List Nat) :
    s.restoreRpl ks = { s with regs := (s.restoreRpl ks).regs } := by
  induction ks using List.reverseRecOn with
  | nil => rfl
  | append_singleton ks k ih =>
    have : s.restoreRpl (ks ++ [k]) = (s.restoreRpl ks).setV (regOf k) ((s.restoreRpl ks).rplAt (rplOf k)) := by
      simp [State.restoreRpl]
    rw [this]; unfold State.setV; rw [ih]

/-- Storing registers changes memory alone. -/
theorem State.storeRegs_eq (s : State) (ks : List Nat) : s.storeRegs ks = { s with mem := (s.storeRegs ks).mem } := by
  induction ks using List.reverseRecOn with
  | nil => rfl
  | append_singleton ks k ih =>
    have : s.storeRegs (ks ++ [k]) = (s.storeRegs ks).dataWrite k ((s.storeRegs ks).v (regOf k)) := by
      simp [State.storeRegs]
    rw [this]; unfold State.dataWrite State.memWrite; rw [ih]

/-- Saving registers changes the RPL bank alone. -/
theorem State.saveRpl_eq (s : State) (ks : List Nat) : s.saveRpl ks = { s with rpl := (s.saveRpl ks).rpl } := by
  induction ks using List.reverseRecOn with
  | nil => rfl
  | append_singleton ks k ih =>
    have : s.saveRpl (ks ++ [k]) = (s.saveRpl ks).setRpl (rplOf k) ((s.saveRpl ks).v (regOf k)) := by
      simp [State.saveRpl]
    rw [this]; unfold State.setRpl; rw [ih]

/-- A register after loading a range from memory (R186). -/
theorem State.v_loadRegs (s : State) {ks : List Nat} (hks : ∀ k ∈ ks, k < 16) (y : Reg) :
    (s.loadRegs ks).v y = if y.toNat ∈ ks then s.dataRead y.toNat else s.v y := by
  induction ks using List.reverseRecOn with
  | nil => rfl
  | append_singleton ks k ih =>
    have hk : k < 16 := hks k (by simp)
    have e : s.loadRegs (ks ++ [k]) = (s.loadRegs ks).setV (regOf k) ((s.loadRegs ks).dataRead k) := by
      simp [State.loadRegs]
    have er : (s.loadRegs ks).dataRead k = s.dataRead k := by rw [State.loadRegs_eq]; rfl
    rw [e, er, State.v_setV, ih fun j hj => hks j (by simp [hj])]
    by_cases hy : y = regOf k
    · subst hy; simp [hk]
    · have : y.toNat ≠ k := fun e => hy (BitVec.eq_of_toNat_eq (by rw [regOf_toNat hk, e]))
      simp [hy, this]

/-- A register after restoring a range from the RPL bank (R188). -/
theorem State.v_restoreRpl (s : State) {ks : List Nat} (hks : ∀ k ∈ ks, k < 8) (y : Reg) :
    (s.restoreRpl ks).v y = if y.toNat ∈ ks then s.rplAt (rplOf y.toNat) else s.v y := by
  induction ks using List.reverseRecOn with
  | nil => rfl
  | append_singleton ks k ih =>
    have hk : k < 8 := hks k (by simp)
    have e : s.restoreRpl (ks ++ [k]) = (s.restoreRpl ks).setV (regOf k) ((s.restoreRpl ks).rplAt (rplOf k)) := by
      simp [State.restoreRpl]
    have er : (s.restoreRpl ks).rplAt (rplOf k) = s.rplAt (rplOf k) := by rw [State.restoreRpl_eq]; rfl
    rw [e, er, State.v_setV, ih fun j hj => hks j (by simp [hj])]
    by_cases hy : y = regOf k
    · subst hy; simp [show k < 16 by omega]
    · have : y.toNat ≠ k := fun e => hy (BitVec.eq_of_toNat_eq (by rw [regOf_toNat (by omega), e]))
      simp [hy, this]

/-- An RPL register after saving a range (R187). -/
theorem State.rplAt_saveRpl (s : State) {ks : List Nat} (hks : ∀ k ∈ ks, k < 8) (j : BitVec 3) :
    (s.saveRpl ks).rplAt j = if j.toNat ∈ ks then s.v (regOf j.toNat) else s.rplAt j := by
  induction ks using List.reverseRecOn with
  | nil => rfl
  | append_singleton ks k ih =>
    have hk : k < 8 := hks k (by simp)
    have e : s.saveRpl (ks ++ [k]) = (s.saveRpl ks).setRpl (rplOf k) ((s.saveRpl ks).v (regOf k)) := by
      simp [State.saveRpl]
    have er : (s.saveRpl ks).v (regOf k) = s.v (regOf k) := by rw [State.saveRpl_eq]; rfl
    rw [e, er, State.rplAt_setRpl, ih fun j hj => hks j (by simp [hj])]
    by_cases hy : j = rplOf k
    · subst hy; simp [hk]
    · have : j.toNat ≠ k := fun e => hy (BitVec.eq_of_toNat_eq (by rw [rplOf_toNat hk, e]))
      simp [hy, this]

/-- Two data accesses less than 4096 apart address different bytes (R63, R74). -/
theorem State.dataAddr_inj (s : State) {j k : Nat} (hj : j < memSize) (hk : k < memSize) :
    s.dataAddr j = s.dataAddr k ↔ j = k := by
  unfold State.dataAddr memSize at *
  omega

theorem State.dataAddr_lt (s : State) (k : Nat) : s.dataAddr k < memSize := Nat.mod_lt _ (by decide)

/-- A byte of memory after storing a range of registers: the addressed bytes hold the registers and every other
byte is kept (R185). -/
theorem State.read_storeRegs (s : State) {ks : List Nat} (hks : ∀ k ∈ ks, k < 16) (a : Nat) :
    (∀ k ∈ ks, (s.storeRegs ks).mem.read (s.dataAddr k) = s.v (regOf k)) ∧
    ((∀ k ∈ ks, s.dataAddr k ≠ a) → (s.storeRegs ks).mem.read a = s.mem.read a) := by
  induction ks using List.reverseRecOn with
  | nil => simp [State.storeRegs]
  | append_singleton ks k ih =>
    have hk : k < 16 := hks k (by simp)
    obtain ⟨ih1, ih2⟩ := ih fun j hj => hks j (by simp [hj])
    have e : s.storeRegs (ks ++ [k]) = (s.storeRegs ks).dataWrite k ((s.storeRegs ks).v (regOf k)) := by
      simp [State.storeRegs]
    have er : (s.storeRegs ks).v (regOf k) = s.v (regOf k) := by rw [State.storeRegs_eq]; rfl
    have ea : (s.storeRegs ks).dataAddr k = s.dataAddr k := by rw [State.storeRegs_eq]; rfl
    rw [e, er]
    simp only [State.dataWrite_mem, ea, Memory.read_write]
    refine ⟨fun j hj => ?_, fun h => ?_⟩
    · rcases List.mem_append.mp hj with hj | hj
      · have hj16 : j < 16 := hks j (by simp [hj])
        split_ifs with hjk
        · have := (s.dataAddr_inj (by unfold memSize; omega) (by unfold memSize; omega)).mp hjk
          rw [this]
        · exact ih1 j hj
      · simp only [List.mem_singleton] at hj
        subst hj; simp
    · rw [if_neg (Ne.symm (h k (by simp)))]
      exact ih2 fun j hj => h j (by simp [hj])

/-- Storing a range of registers keeps the canonical form of memory. -/
theorem State.wf_storeRegs {s : State} (h : s.mem.wf) (ks : List Nat) : (s.storeRegs ks).mem.wf := by
  induction ks using List.reverseRecOn with
  | nil => exact h
  | append_singleton ks k ih =>
    have e : s.storeRegs (ks ++ [k]) = (s.storeRegs ks).dataWrite k ((s.storeRegs ks).v (regOf k)) := by
      simp [State.storeRegs]
    rw [e]
    exact State.wf_dataWrite ih k _

/-! ## Sprites -/

theorem State.spriteRows_le (s : State) (n : Nibble) : s.spriteRows n ≤ 16 := by
  have : n.toNat < 16 := n.isLt
  unfold State.spriteRows; split_ifs <;> omega

theorem State.spriteWidth_le (s : State) (n : Nibble) : s.spriteWidth n ≤ 16 := by
  unfold State.spriteWidth; split_ifs <;> omega

/-- Two pixels of one sprite reach different cells (R140). -/
theorem State.spriteCell_inj (s : State) (x0 y0 : Byte) {r c r' c' : Nat} (hr : r < 16) (hc : c < 16)
    (hr' : r' < 16) (hc' : c' < 16) (h : s.spriteCell x0 y0 r c = s.spriteCell x0 y0 r' c') :
    r = r' ∧ c = c' := by
  unfold State.spriteCell State.width State.height at h
  cases he : s.extended <;> simp only [he, Bool.false_eq_true, if_true, if_false] at h <;> omega

/-- Membership of a cell in a sprite: some row and column of the sprite has its bit set and reaches it
(R140). -/
theorem State.mem_spriteCells (s : State) (x0 y0 : Byte) (n : Nibble) (k : Nat) :
    k ∈ s.spriteCells x0 y0 n ↔ ∃ r c, r < s.spriteRows n ∧ c < s.spriteWidth n ∧
      s.spriteBit n r c = true ∧ s.spriteCell x0 y0 r c = k := by
  simp only [State.spriteCells, List.mem_flatMap, List.mem_range, List.mem_map, List.mem_filter]
  constructor
  · rintro ⟨r, hr, c, ⟨hc, hb⟩, rfl⟩; exact ⟨r, c, hr, hc, hb, rfl⟩
  · rintro ⟨r, c, hr, hc, hb, rfl⟩; exact ⟨r, hr, c, ⟨hc, hb⟩, rfl⟩

/-- No cell is toggled twice by one sprite (R140). -/
theorem State.nodup_spriteCells (s : State) (x0 y0 : Byte) (n : Nibble) : (s.spriteCells x0 y0 n).Nodup := by
  have h16 := s.spriteRows_le n
  have w16 := s.spriteWidth_le n
  unfold State.spriteCells
  rw [List.nodup_flatMap]
  refine ⟨fun r hr => ?_, ?_⟩
  · rw [List.mem_range] at hr
    refine List.Nodup.map_on ?_ (List.Nodup.filter _ List.nodup_range)
    intro c hc c' hc' h
    rw [List.mem_filter, List.mem_range] at hc hc'
    exact (s.spriteCell_inj x0 y0 (by omega) (by omega) (by omega) (by omega) h).2
  · refine List.Pairwise.imp_of_mem ?_ (List.nodup_range (n := s.spriteRows n))
    intro r r' hr hr' hne
    rw [List.mem_range] at hr hr'
    simp only [Function.onFun, List.disjoint_left, List.mem_map, List.mem_filter, List.mem_range, not_exists,
      not_and]
    rintro k ⟨c, ⟨hc, _⟩, rfl⟩ c' ⟨hc', _⟩ h
    exact hne (s.spriteCell_inj x0 y0 (by omega) (by omega) (by omega) (by omega) h).1.symm

/-- A sprite reaches only cells of the active region (R140, R147). -/
theorem State.spriteCells_lt (s : State) {x0 y0 : Byte} {n : Nibble} {k : Nat}
    (h : k ∈ s.spriteCells x0 y0 n) : k < s.width * s.height := by
  obtain ⟨r, c, -, -, -, rfl⟩ := (s.mem_spriteCells x0 y0 n k).mp h
  exact Nat.mod_lt _ s.region_pos

/-! ## Flags -/

/-- The flag write and the destination write, in one equation (R120). -/
theorem State.v_flagThenV (s : State) (x y : Reg) (flag : Byte) (f : State → Byte) :
    (s.flagThenV x flag f).v y =
      if y = x then f (s.operandState (s.setV vf flag)) else if y = vf then flag else s.v y := by
  unfold State.flagThenV
  rw [State.v_setV, State.v_setV]

/-- What an operand reads as (R120, D5). -/
theorem State.v_operandState (s : State) (flag : Byte) (y : Reg) :
    (s.operandState (s.setV vf flag)).v y =
      if s.params.vfOrder = .sequential ∧ y = vf then flag else s.v y := by
  unfold State.operandState
  split <;> rename_i h
  · simp [h, State.v_setV]
  · simp [h]

/-! ## The cycle driver -/

@[simp] theorem State.beginStep_params (s : State) : s.beginStep.params = s.params := rfl
@[simp] theorem State.beginStep_fault (s : State) : s.beginStep.fault = s.fault := rfl
@[simp] theorem State.beginStep_fetch (s : State) : s.beginStep.fetch = s.fetch := rfl

/-- What the tick does, field by field (R205). -/
theorem State.tick_eq (s : State) : s.tick =
    { s with
      dt := if s.dt = 0 then s.dt else s.dt - 1
      st := if s.st = 0 then s.st else s.st - 1
      beep := if s.st = 0 then s.beep else s.beep || s.st == 1 } := by
  unfold State.tick State.tickSound State.tickDelay
  cases s
  dsimp only
  split_ifs <;> simp_all

/-- A fetch succeeds exactly when pc ≤ 0xFFE (R61). -/
theorem State.fetch_eq_some {s : State} {op : Word} : s.fetch = some op ↔
    s.pc.toNat ≤ 0xFFE ∧ op = wordOfBytes (s.memRead s.pc.toNat) (s.memRead (s.pc.toNat + 1)) := by
  unfold State.fetch
  split_ifs with h
  · simp [h, eq_comm]
  · simp [h]

theorem State.fetch_eq_none {s : State} : s.fetch = none ↔ 0xFFE < s.pc.toNat := by
  unfold State.fetch
  split_ifs with h
  · simp; omega
  · simp; omega

/-- What a step can do: nothing under a set latch, a fetch fault, or one instruction of the fetched word
(R205, R206). -/
theorem step_cases (s : State) :
    (s.fault.isSome = true ∧ step s = .next s) ∨
    (s.fault = none ∧ s.fetch = none ∧ step s = .next s.beginStep.fetchFault) ∨
    (∃ op, s.fault = none ∧ s.fetch = some op ∧
      step s = match exec (decodeWith s.params op) s.beginStep with
        | .next t => .next t.endStep
        | .fault r => .fault r
        | .refused r => .refused r) := by
  by_cases hf : s.fault.isSome = true
  · exact .inl ⟨hf, by simp [step, hf]⟩
  · have hn : s.fault = none := by simpa using hf
    cases hw : s.fetch with
    | none => exact .inr (.inl ⟨hn, rfl, by simp [step, hn, hw]⟩)
    | some op => exact .inr (.inr ⟨op, hn, rfl, by
        first
        | (simp [step, hn, hw]; done)
        | (simp [step, hn, hw]; rfl)⟩)

/-- The next states of a step (R205, R206). -/
theorem step_next {s t : State} (h : step s = .next t) :
    (s.fault.isSome = true ∧ t = s) ∨
    (s.fault = none ∧ s.fetch = none ∧ t = s.beginStep.fetchFault) ∨
    (∃ op u, s.fault = none ∧ s.fetch = some op ∧ exec (decodeWith s.params op) s.beginStep = .next u ∧
      t = u.endStep) := by
  rcases step_cases s with ⟨hf, e⟩ | ⟨hf, hw, e⟩ | ⟨op, hf, hw, e⟩
  · rw [h] at e; cases e; exact .inl ⟨hf, rfl⟩
  · rw [h] at e; cases e; exact .inr (.inl ⟨hf, hw, rfl⟩)
  · rw [h] at e
    cases hx : exec (decodeWith s.params op) s.beginStep with
    | next u => rw [hx] at e; cases e; exact .inr (.inr ⟨op, u, hf, hw, hx, rfl⟩)
    | fault r => rw [hx] at e; cases e
    | refused r => rw [hx] at e; cases e

/-! ## The host's transactions -/

/-- Writing bytes changes memory alone. -/
theorem State.writeBytes_eq (s : State) (a : Nat) (bs : List Byte) :
    s.writeBytes a bs = { s with mem := (s.writeBytes a bs).mem } := by
  induction bs generalizing s a with
  | nil => rfl
  | cons b bs ih => unfold State.writeBytes; rw [ih]; rfl

/-- Writing bytes keeps the canonical form. -/
theorem State.wf_writeBytes {s : State} (h : s.mem.wf) (a : Nat) (bs : List Byte) : (s.writeBytes a bs).mem.wf := by
  induction bs generalizing s a with
  | nil => exact h
  | cons b bs ih => exact ih (State.wf_memWrite h a b) (a + 1)

/-! What `initialize` leaves in each field (R250). -/

@[simp] theorem State.initialized_regs (s : State) : s.initialized.regs = State.reset.regs := rfl
@[simp] theorem State.initialized_i (s : State) : s.initialized.i = State.reset.i := rfl
@[simp] theorem State.initialized_pc (s : State) : s.initialized.pc = State.reset.pc := rfl
@[simp] theorem State.initialized_stack (s : State) : s.initialized.stack = State.reset.stack := rfl
@[simp] theorem State.initialized_sp (s : State) : s.initialized.sp = State.reset.sp := rfl
@[simp] theorem State.initialized_dt (s : State) : s.initialized.dt = State.reset.dt := rfl
@[simp] theorem State.initialized_st (s : State) : s.initialized.st = State.reset.st := rfl
@[simp] theorem State.initialized_keys (s : State) : s.initialized.keys = State.reset.keys := rfl
@[simp] theorem State.initialized_rpl (s : State) : s.initialized.rpl = State.reset.rpl := rfl
@[simp] theorem State.initialized_fb (s : State) : s.initialized.fb = State.reset.fb := rfl
@[simp] theorem State.initialized_extended (s : State) : s.initialized.extended = State.reset.extended := rfl
@[simp] theorem State.initialized_exitRequested (s : State) : s.initialized.exitRequested = State.reset.exitRequested := rfl
@[simp] theorem State.initialized_awaitingKey (s : State) : s.initialized.awaitingKey = State.reset.awaitingKey := rfl
@[simp] theorem State.initialized_debug (s : State) : s.initialized.debug = State.reset.debug := rfl
@[simp] theorem State.initialized_draw (s : State) : s.initialized.draw = State.reset.draw := rfl
@[simp] theorem State.initialized_beep (s : State) : s.initialized.beep = State.reset.beep := rfl
@[simp] theorem State.initialized_fault (s : State) : s.initialized.fault = State.reset.fault := rfl
@[simp] theorem State.initialized_rom (s : State) : s.initialized.rom = State.reset.rom := rfl
@[simp] theorem State.initialized_unknown (s : State) : s.initialized.unknown = State.reset.unknown := rfl
@[simp] theorem State.initialized_draws (s : State) : s.initialized.draws = s.draws := rfl
@[simp] theorem State.initialized_params (s : State) : s.initialized.params = s.params := rfl

theorem State.initialized_mem (s : State) : s.initialized.mem = Memory.ofContents (initialByte s.params) := by
  unfold State.initialized
  with_reducible rfl

/-- Memory after `initialize` reads as the machine's two font tables and 0 elsewhere (R55, R250). -/
theorem State.memRead_initialized (s : State) {a : Nat} (ha : a < memSize) :
    s.initialized.memRead a = initialByte s.params a := by
  unfold State.memRead
  rw [State.initialized_mem, Nat.mod_eq_of_lt ha, Memory.read_ofContents _ ha]

/-- `initialize` leaves memory canonical. -/
theorem State.wf_initialized (s : State) : s.initialized.mem.wf := by
  rw [State.initialized_mem]
  exact Memory.wf_ofContents _

/-- What `reset` leaves before it loads is an `initialize` but for the debug bit and the RPL bank (R251, R253). -/
theorem State.reinitialized_eq (s : State) : s.reinitialized =
    { s.initialized with debug := s.debug, rpl := s.reinitialized.rpl } := rfl

theorem State.reinitialized_mem (s : State) : s.reinitialized.mem = s.initialized.mem := by
  rw [State.reinitialized_eq]

/-- The RPL bank that `reset` leaves (R251). -/
theorem State.rplAt_reinitialized (s : State) (k : BitVec 3) :
    s.reinitialized.rplAt k = match s.params.rplOnReset with | .preserve => s.rplAt k | .clear => 0 := by
  unfold State.rplAt State.reinitialized
  cases s.params.rplOnReset
  · rfl
  · simp [State.reset]

/-- A load fails and changes nothing, or copies the bytes and remembers them (R256). -/
theorem State.load_cases (s : State) (bytes : List Byte) (readable : Bool) :
    ((readable = false ∨ 3583 < bytes.length) ∧ s.load bytes readable = .error .rejected) ∨
    (readable = true ∧ bytes.length ≤ 3583 ∧
      s.load bytes readable = .ok { s.writeBytes progBase bytes with rom := some bytes }) := by
  unfold State.load maxRom
  split_ifs with h
  · exact .inl ⟨h, rfl⟩
  · simp only [not_or, Bool.not_eq_false, not_lt] at h
    exact .inr ⟨h.1, h.2, rfl⟩

/-- The machine right after reset is an `initialize` with the default parameters (R250, D19). -/
theorem State.initialized_reset : State.reset.initialized = State.reset := by
  unfold State.initialized
  rw [show State.reset.params = defaultParams from rfl, Memory.ofContents_default]
  rfl

end Sys2Proof.Machine
end

