-- ==== Sys2Proof/Laws/Frame.lean ====
section
/-! SUPPORT. The frame of each shared operation, said once with `KeepsAllBut`, and how frames compose: a frame of an
instruction is the frames of its operations, one after the other. -/

namespace Sys2Proof.Machine

/-! ## Composing frames -/

theorem Part.same_refl (s : State) (p : Part) : p.same s s := by cases p <;> exact rfl

theorem Part.same_trans {s t u : State} {p : Part} (h : p.same s t) (k : p.same t u) : p.same s u := by
  cases p <;> exact Eq.trans k h

theorem KeepsAllBut.refl (c : Part → Prop) (s : State) : KeepsAllBut c s s := fun p _ => p.same_refl s

/-- A frame may name more parts than it must. -/
theorem KeepsAllBut.mono {c d : Part → Prop} {s t : State} (h : KeepsAllBut c s t) (hcd : ∀ p, c p → d p) :
    KeepsAllBut d s t := fun p hp => h p fun hc => hp (hcd p hc)

/-- Two changes in a row change what either changes. -/
theorem KeepsAllBut.trans {c : Part → Prop} {s t u : State} (h : KeepsAllBut c s t) (k : KeepsAllBut c t u) :
    KeepsAllBut c s u := fun p hp => Part.same_trans (h p hp) (k p hp)

/-! ## The operations -/

variable (s : State)

theorem State.keeps_setV (x : Reg) (w : Byte) : KeepsAllBut (fun p => p = .v x) s (s.setV x w) := by
  intro p hp
  cases p
  case v y => exact State.v_setV_other s (fun e => hp (by rw [e])) w
  all_goals exact rfl

theorem State.keeps_setI (w : Word) : KeepsAllBut (fun p => p = .i) s (s.setI w) := by
  intro p hp
  cases p
  case i => exact absurd rfl hp
  all_goals exact rfl

theorem State.keeps_setPc (w : Word) : KeepsAllBut (fun p => p = .pc) s (s.setPc w) := by
  intro p hp
  cases p
  case pc => exact absurd rfl hp
  all_goals exact rfl

theorem State.keeps_advance : KeepsAllBut (fun p => p = .pc) s s.advance := s.keeps_setPc _

theorem State.keeps_skipIf (b : Bool) : KeepsAllBut (fun p => p = .pc) s (s.skipIf b) := s.keeps_setPc _

theorem State.keeps_setDt (w : Byte) : KeepsAllBut (fun p => p = .dt) s (s.setDt w) := by
  intro p hp
  cases p
  case dt => exact absurd rfl hp
  all_goals exact rfl

theorem State.keeps_setSt (w : Byte) : KeepsAllBut (fun p => p = .st) s (s.setSt w) := by
  intro p hp
  cases p
  case st => exact absurd rfl hp
  all_goals exact rfl

theorem State.keeps_setRpl (k : BitVec 3) (w : Byte) : KeepsAllBut (fun p => p = .rpl k) s (s.setRpl k w) := by
  intro p hp
  cases p
  case rpl j => exact (State.rplAt_setRpl s j k w).trans (if_neg fun e => hp (by rw [e]))
  all_goals exact rfl

theorem State.keeps_countDraw : KeepsAllBut (fun p => p = .draws) s s.countDraw := by
  intro p hp
  cases p
  case draws => exact absurd rfl hp
  all_goals exact rfl

theorem State.keeps_memWrite (a : Nat) (b : Byte) :
    KeepsAllBut (fun p => p = .byte (a % memSize)) s (s.memWrite a b) := by
  intro p hp
  cases p
  case byte c => exact Memory.read_write_other (fun e => hp (by rw [e])) s.mem b
  all_goals exact rfl

theorem State.keeps_dataWrite (k : Nat) (b : Byte) :
    KeepsAllBut (fun p => p = .byte (s.dataAddr k)) s (s.dataWrite k b) := s.keeps_memWrite _ b

theorem State.keeps_releaseKey (k : Nibble) : KeepsAllBut (fun p => p = .key k) s (s.releaseKey k) := by
  intro p hp
  cases p
  case key j => exact (State.key_releaseKey s j k).trans (if_neg fun e => hp (by rw [e]))
  all_goals exact rfl

theorem State.keeps_clearKeys : KeepsAllBut (fun p => ∃ k, p = .key k) s s.clearKeys := by
  intro p hp
  cases p
  case key j => exact absurd ⟨j, rfl⟩ hp
  all_goals exact rfl

/-- A framebuffer that differs inside the active region alone. -/
theorem State.keeps_setFb {f : Framebuffer} {c : Nat → Prop} (h : ∀ k, ¬ c k → f.cell k = s.fb.cell k) :
    KeepsAllBut (fun p => ∃ k, c k ∧ p = .cell k) s (s.setFb f) := by
  intro p hp
  cases p
  case cell k => exact h k fun hk => hp ⟨k, hk, rfl⟩
  all_goals exact rfl

theorem State.keeps_markDraw : KeepsAllBut (fun p => p = .draw) s s.markDraw := by
  intro p hp
  cases p
  case draw => exact absurd rfl hp
  all_goals exact rfl

theorem State.keeps_setExtended (b : Bool) : KeepsAllBut (fun p => p = .extended) s (s.setExtended b) := by
  intro p hp
  cases p
  case extended => exact absurd rfl hp
  all_goals exact rfl

theorem State.keeps_requestExit : KeepsAllBut (fun p => p = .exitRequested) s s.requestExit := by
  intro p hp
  cases p
  case exitRequested => exact absurd rfl hp
  all_goals exact rfl

theorem State.keeps_setAwaiting (b : Bool) : KeepsAllBut (fun p => p = .awaitingKey) s (s.setAwaiting b) := by
  intro p hp
  cases p
  case awaitingKey => exact absurd rfl hp
  all_goals exact rfl

theorem State.keeps_report (op : Word) : KeepsAllBut (fun p => p = .unknown) s (s.report op) := by
  intro p hp
  cases p
  case unknown => exact absurd rfl hp
  all_goals exact rfl

theorem State.keeps_raise (k : FaultKind) (op : Option Word) (v : Option Byte) :
    KeepsAllBut (fun p => p = .fault) s (s.raise k op v) := by
  intro p hp
  cases p
  case fault => exact absurd rfl hp
  all_goals exact rfl

theorem State.keeps_beginStep : KeepsAllBut (fun p => p = .draw ∨ p = .beep ∨ p = .unknown) s s.beginStep := by
  intro p hp
  cases p
  case draw => exact absurd (.inl rfl) hp
  case beep => exact absurd (.inr (.inl rfl)) hp
  case unknown => exact absurd (.inr (.inr rfl)) hp
  all_goals exact rfl

theorem State.keeps_tick : KeepsAllBut (fun p => p = .dt ∨ p = .st ∨ p = .beep) s s.tick := by
  intro p hp
  rw [State.tick_eq]
  cases p
  case dt => exact absurd (.inl rfl) hp
  case st => exact absurd (.inr (.inl rfl)) hp
  case beep => exact absurd (.inr (.inr rfl)) hp
  all_goals exact rfl

theorem State.keeps_endStep : KeepsAllBut (fun p => p = .dt ∨ p = .st ∨ p = .beep) s s.endStep := by
  unfold State.endStep
  split
  · exact .refl _ _
  · exact s.keeps_tick

/-- The two writes of a flag-writing instruction (R120). -/
theorem State.keeps_flagThenV (x : Reg) (flag : Byte) (f : State → Byte) :
    KeepsAllBut (fun p => p = .v x ∨ p = .v vf) s (s.flagThenV x flag f) :=
  ((s.keeps_setV vf flag).mono fun _ => .inr).trans ((State.keeps_setV _ x _).mono fun _ => .inl)

/-- The two writes of FX1E (R181). -/
theorem State.keeps_flagThenI (flag : Byte) (f : State → Word) :
    KeepsAllBut (fun p => p = .i ∨ p = .v vf) s (s.flagThenI flag f) :=
  ((s.keeps_setV vf flag).mono fun _ => .inr).trans ((State.keeps_setI _ _).mono fun _ => .inl)

/-- The common end of the graphics family, over the cells it may change. -/
theorem State.keeps_drawn {f : Framebuffer} {c : Nat → Prop} (h : ∀ k, ¬ c k → f.cell k = s.fb.cell k) :
    KeepsAllBut (fun p => (∃ k, c k ∧ p = .cell k) ∨ p = .draw ∨ p = .pc) s (s.drawn f) :=
  (((s.keeps_setFb h).mono fun _ => .inl).trans ((State.keeps_markDraw _).mono fun _ h => .inr (.inl h))).trans
    ((State.keeps_advance _).mono fun _ h => .inr (.inr h))

/-- A push changes one stack entry and sp (R28). -/
theorem State.keeps_push {s t : State} {w : Word} (h : s.push w = some t) :
    KeepsAllBut (fun p => (∃ hk : s.sp.val < 16, p = .stackEntry ⟨s.sp.val, hk⟩) ∨ p = .sp) s t := by
  obtain ⟨hs, rfl⟩ := State.push_eq_some.mp h
  intro p hp
  cases p
  case sp => exact absurd (.inr rfl) hp
  case stackEntry k =>
    have hk : s.sp.val ≠ k.val := fun e => hp (.inl ⟨hs, by congr 1; exact Fin.ext e.symm⟩)
    exact Vector.getElem_set_ne hs k.isLt hk
  all_goals exact rfl

/-- A pop changes sp alone (R28). -/
theorem State.keeps_pop {s t : State} {a : Word} (h : s.pop = some (a, t)) :
    KeepsAllBut (fun p => p = .sp) s t := by
  obtain ⟨hs, -, rfl⟩ := State.pop_eq_some.mp h
  intro p hp
  cases p
  case sp => exact absurd rfl hp
  all_goals exact rfl

/-- Loading a range changes its registers alone (R186). -/
theorem State.keeps_loadRegs {ks : List Nat} (hks : ∀ k ∈ ks, k < 16) :
    KeepsAllBut (fun p => ∃ y : Reg, y.toNat ∈ ks ∧ p = .v y) s (s.loadRegs ks) := by
  intro p hp
  cases p
  case v y => exact (s.v_loadRegs hks y).trans (if_neg fun h => hp ⟨y, h, rfl⟩)
  all_goals rw [State.loadRegs_eq]; exact rfl

/-- Restoring a range from the RPL bank changes its registers alone (R188). -/
theorem State.keeps_restoreRpl {ks : List Nat} (hks : ∀ k ∈ ks, k < 8) :
    KeepsAllBut (fun p => ∃ y : Reg, y.toNat ∈ ks ∧ p = .v y) s (s.restoreRpl ks) := by
  intro p hp
  cases p
  case v y => exact (s.v_restoreRpl hks y).trans (if_neg fun h => hp ⟨y, h, rfl⟩)
  all_goals rw [State.restoreRpl_eq]; exact rfl

/-- Saving a range changes its RPL registers alone (R187). -/
theorem State.keeps_saveRpl {ks : List Nat} (hks : ∀ k ∈ ks, k < 8) :
    KeepsAllBut (fun p => ∃ j : BitVec 3, j.toNat ∈ ks ∧ p = .rpl j) s (s.saveRpl ks) := by
  intro p hp
  cases p
  case rpl j => exact (s.rplAt_saveRpl hks j).trans (if_neg fun h => hp ⟨j, h, rfl⟩)
  all_goals rw [State.saveRpl_eq]; exact rfl

/-- Storing a range changes its bytes alone (R185). -/
theorem State.keeps_storeRegs {ks : List Nat} (hks : ∀ k ∈ ks, k < 16) :
    KeepsAllBut (fun p => ∃ k, k ∈ ks ∧ p = .byte (s.dataAddr k)) s (s.storeRegs ks) := by
  intro p hp
  cases p
  case byte a => exact (s.read_storeRegs hks a).2 fun k hk e => hp ⟨k, hk, by rw [e]⟩
  all_goals rw [State.storeRegs_eq]; exact rfl

/-- What `reset` leaves before it loads, against `initialize` (R251, R253). -/
theorem State.keeps_reinitialized :
    KeepsAllBut (fun p => p = .debug ∨ ∃ k, p = .rpl k) s.initialized s.reinitialized := by
  intro p hp
  rw [State.reinitialized_eq]
  cases p
  case debug => exact absurd (.inl rfl) hp
  case rpl k => exact absurd (.inr ⟨k, rfl⟩) hp
  case byte a => simp only [Part.same]
  all_goals exact rfl

/-- Writing bytes from an address on changes those bytes alone, where they do not wrap (R256). -/
theorem State.keeps_writeBytes (a : Nat) (bs : List Byte) (h : a + bs.length ≤ memSize) :
    KeepsAllBut (fun p => ∃ k, k < bs.length ∧ p = .byte (a + k)) s (s.writeBytes a bs) := by
  induction bs generalizing s a with
  | nil => exact .refl _ _
  | cons b bs ih =>
    rw [List.length_cons] at h
    refine ((s.keeps_memWrite a b).mono ?_).trans ((ih (s.memWrite a b) (a + 1) (by omega)).mono ?_)
    · rintro p rfl
      exact ⟨0, by simp, by rw [Nat.mod_eq_of_lt (by omega), Nat.add_zero]⟩
    · rintro p ⟨k, hk, rfl⟩
      exact ⟨k + 1, by simpa using hk, by rw [Nat.add_assoc, Nat.add_comm 1 k]⟩

/-- Bytes written from an address on read back, where they do not wrap (R256). -/
theorem State.memRead_writeBytes (a : Nat) (bs : List Byte) (h : a + bs.length ≤ memSize) (k : Nat)
    (hk : k < bs.length) : (s.writeBytes a bs).memRead (a + k) = bs.getD k 0 := by
  induction bs generalizing s a k with
  | nil => simp at hk
  | cons b bs ih =>
    rw [List.length_cons] at h hk
    cases k with
    | zero =>
      have hb := State.keeps_writeBytes (s.memWrite a b) (a + 1) bs (by omega) (.byte a)
        (by rintro ⟨k, -, e⟩; simp only [Part.byte.injEq] at e; omega)
      change (((s.memWrite a b).writeBytes (a + 1) bs).mem.read ((a + 0) % memSize)) = b
      rw [Nat.add_zero, Nat.mod_eq_of_lt (by omega)]
      refine Eq.trans hb ?_
      simp [Nat.mod_eq_of_lt (show a < memSize by omega)]
    | succ k =>
      have := ih (s.memWrite a b) (a + 1) (by omega) k (by omega)
      rw [Nat.add_assoc, Nat.add_comm 1 k] at this
      simpa [State.writeBytes] using this

end Sys2Proof.Machine
end

