-- ==== Sys2Proof/Laws/PerInstr.lean ====
section
/-! SUPPORT. Per instruction: its word matches the mask and the pattern that spec/opcode_table.json gives its
row. -/

namespace Sys2Proof.Laws.RowPattern

/-- The mask of an instruction's row in spec/opcode_table.json. -/
def rowMask : Instr → Word
  | .cls _ => 0xF0FF
  | .ret _ => 0xF0FF
  | .scd _ _ => 0xF0F0
  | .scr _ => 0xF0FF
  | .scl _ => 0xF0FF
  | .exit _ => 0xF0FF
  | .low _ => 0xF0FF
  | .high _ => 0xF0FF
  | .jp _ => 0xF000
  | .call _ => 0xF000
  | .seImm _ _ => 0xF000
  | .sneImm _ _ => 0xF000
  | .seReg _ _ _ => 0xF000
  | .ldImm _ _ => 0xF000
  | .addImm _ _ => 0xF000
  | .ldReg _ _ => 0xF00F
  | .orReg _ _ => 0xF00F
  | .andReg _ _ => 0xF00F
  | .xorReg _ _ => 0xF00F
  | .addReg _ _ => 0xF00F
  | .subReg _ _ => 0xF00F
  | .shr _ _ => 0xF00F
  | .subn _ _ => 0xF00F
  | .shl _ _ => 0xF00F
  | .sneReg _ _ _ => 0xF000
  | .ldI _ => 0xF000
  | .jpV0 _ => 0xF000
  | .rnd _ _ => 0xF000
  | .drw _ _ _ => 0xF000
  | .skp _ _ => 0xF0F0
  | .sknp _ _ => 0xF0F0
  | .ldVxDt _ => 0xF0FF
  | .ldVxK _ => 0xF0FF
  | .ldDtVx _ => 0xF0FF
  | .ldStVx _ => 0xF0FF
  | .addIVx _ => 0xF0FF
  | .ldFVx _ => 0xF0FF
  | .ldHfVx _ => 0xF0FF
  | .ldBVx _ => 0xF0FF
  | .ldMemVx _ => 0xF0FF
  | .ldVxMem _ => 0xF0FF
  | .ldRVx _ => 0xF0FF
  | .ldVxR _ => 0xF0FF
  | .unmodelledFx00 _ => 0xF0FF
  | .unmodelledFxFn _ _ => 0xF0F0
  | .unknown _ => 0x0000

/-- The pattern of an instruction's row in spec/opcode_table.json. -/
def rowMatch : Instr → Word
  | .cls _ => 0x00E0
  | .ret _ => 0x00EE
  | .scd _ _ => 0x00C0
  | .scr _ => 0x00FB
  | .scl _ => 0x00FC
  | .exit _ => 0x00FD
  | .low _ => 0x00FE
  | .high _ => 0x00FF
  | .jp _ => 0x1000
  | .call _ => 0x2000
  | .seImm _ _ => 0x3000
  | .sneImm _ _ => 0x4000
  | .seReg _ _ _ => 0x5000
  | .ldImm _ _ => 0x6000
  | .addImm _ _ => 0x7000
  | .ldReg _ _ => 0x8000
  | .orReg _ _ => 0x8001
  | .andReg _ _ => 0x8002
  | .xorReg _ _ => 0x8003
  | .addReg _ _ => 0x8004
  | .subReg _ _ => 0x8005
  | .shr _ _ => 0x8006
  | .subn _ _ => 0x8007
  | .shl _ _ => 0x800E
  | .sneReg _ _ _ => 0x9000
  | .ldI _ => 0xA000
  | .jpV0 _ => 0xB000
  | .rnd _ _ => 0xC000
  | .drw _ _ _ => 0xD000
  | .skp _ _ => 0xE090
  | .sknp _ _ => 0xE0A0
  | .ldVxDt _ => 0xF007
  | .ldVxK _ => 0xF00A
  | .ldDtVx _ => 0xF015
  | .ldStVx _ => 0xF018
  | .addIVx _ => 0xF01E
  | .ldFVx _ => 0xF029
  | .ldHfVx _ => 0xF030
  | .ldBVx _ => 0xF033
  | .ldMemVx _ => 0xF055
  | .ldVxMem _ => 0xF065
  | .ldRVx _ => 0xF075
  | .ldVxR _ => 0xF085
  | .unmodelledFx00 _ => 0xF000
  | .unmodelledFxFn _ _ => 0xF0F0
  | .unknown _ => 0x0000

/-- The word of the instruction, under its row's mask, is its row's pattern (R93). -/
def Statement (i : Instr) : Prop := encode i &&& rowMask i = rowMatch i

theorem hxyn (h x y n a b c d : Nibble) :
    wordHXYN h x y n &&& wordHXYN a b c d = wordHXYN (h &&& a) (x &&& b) (y &&& c) (n &&& d) :=
  BitVec.and_append.trans (congrArg (fun z : BitVec 12 => z ++ (n &&& d))
    (BitVec.and_append.trans (congrArg (fun z : BitVec 8 => z ++ (y &&& c)) BitVec.and_append)))

theorem hxnn (h x a b : Nibble) (nn c : Byte) :
    wordHXNN h x nn &&& wordHXNN a b c = wordHXNN (h &&& a) (x &&& b) (nn &&& c) :=
  BitVec.and_append.trans (congrArg (fun z : BitVec 8 => z ++ (nn &&& c)) BitVec.and_append)

theorem hnnn (h a : Nibble) (nnn b : Addr) :
    wordHNNN h nnn &&& wordHNNN a b = wordHNNN (h &&& a) (nnn &&& b) :=
  BitVec.and_append

theorem cls (ign : Nibble) : Statement (.cls ign) := by
  show wordHXNN _ _ _ &&& wordHXNN 0xf 0x0 0xff = _
  rw [hxnn]; simp; rfl

theorem ret (ign : Nibble) : Statement (.ret ign) := by
  show wordHXNN _ _ _ &&& wordHXNN 0xf 0x0 0xff = _
  rw [hxnn]; simp; rfl

theorem scd (ign n : Nibble) : Statement (.scd ign n) := by
  show wordHXYN _ _ _ _ &&& wordHXYN 0xf 0x0 0xf 0x0 = _
  rw [hxyn]; simp; rfl

theorem scr (ign : Nibble) : Statement (.scr ign) := by
  show wordHXNN _ _ _ &&& wordHXNN 0xf 0x0 0xff = _
  rw [hxnn]; simp; rfl

theorem scl (ign : Nibble) : Statement (.scl ign) := by
  show wordHXNN _ _ _ &&& wordHXNN 0xf 0x0 0xff = _
  rw [hxnn]; simp; rfl

theorem exit (ign : Nibble) : Statement (.exit ign) := by
  show wordHXNN _ _ _ &&& wordHXNN 0xf 0x0 0xff = _
  rw [hxnn]; simp; rfl

theorem low (ign : Nibble) : Statement (.low ign) := by
  show wordHXNN _ _ _ &&& wordHXNN 0xf 0x0 0xff = _
  rw [hxnn]; simp; rfl

theorem high (ign : Nibble) : Statement (.high ign) := by
  show wordHXNN _ _ _ &&& wordHXNN 0xf 0x0 0xff = _
  rw [hxnn]; simp; rfl

theorem jp (nnn : Addr) : Statement (.jp nnn) := by
  show wordHNNN _ _ &&& wordHNNN 0xf 0x0 = _
  rw [hnnn]; simp; rfl

theorem call (nnn : Addr) : Statement (.call nnn) := by
  show wordHNNN _ _ &&& wordHNNN 0xf 0x0 = _
  rw [hnnn]; simp; rfl

theorem seImm (x : Reg) (nn : Byte) : Statement (.seImm x nn) := by
  show wordHXNN _ _ _ &&& wordHXNN 0xf 0x0 0x0 = _
  rw [hxnn]; simp; rfl

theorem sneImm (x : Reg) (nn : Byte) : Statement (.sneImm x nn) := by
  show wordHXNN _ _ _ &&& wordHXNN 0xf 0x0 0x0 = _
  rw [hxnn]; simp; rfl

theorem seReg (x y : Reg) (ign : Nibble) : Statement (.seReg x y ign) := by
  show wordHXYN _ _ _ _ &&& wordHXYN 0xf 0x0 0x0 0x0 = _
  rw [hxyn]; simp; rfl

theorem ldImm (x : Reg) (nn : Byte) : Statement (.ldImm x nn) := by
  show wordHXNN _ _ _ &&& wordHXNN 0xf 0x0 0x0 = _
  rw [hxnn]; simp; rfl

theorem addImm (x : Reg) (nn : Byte) : Statement (.addImm x nn) := by
  show wordHXNN _ _ _ &&& wordHXNN 0xf 0x0 0x0 = _
  rw [hxnn]; simp; rfl

theorem ldReg (x y : Reg) : Statement (.ldReg x y) := by
  show wordHXYN _ _ _ _ &&& wordHXYN 0xf 0x0 0x0 0xf = _
  rw [hxyn]; simp; rfl

theorem orReg (x y : Reg) : Statement (.orReg x y) := by
  show wordHXYN _ _ _ _ &&& wordHXYN 0xf 0x0 0x0 0xf = _
  rw [hxyn]; simp; rfl

theorem andReg (x y : Reg) : Statement (.andReg x y) := by
  show wordHXYN _ _ _ _ &&& wordHXYN 0xf 0x0 0x0 0xf = _
  rw [hxyn]; simp; rfl

theorem xorReg (x y : Reg) : Statement (.xorReg x y) := by
  show wordHXYN _ _ _ _ &&& wordHXYN 0xf 0x0 0x0 0xf = _
  rw [hxyn]; simp; rfl

theorem addReg (x y : Reg) : Statement (.addReg x y) := by
  show wordHXYN _ _ _ _ &&& wordHXYN 0xf 0x0 0x0 0xf = _
  rw [hxyn]; simp; rfl

theorem subReg (x y : Reg) : Statement (.subReg x y) := by
  show wordHXYN _ _ _ _ &&& wordHXYN 0xf 0x0 0x0 0xf = _
  rw [hxyn]; simp; rfl

theorem shr (x y : Reg) : Statement (.shr x y) := by
  show wordHXYN _ _ _ _ &&& wordHXYN 0xf 0x0 0x0 0xf = _
  rw [hxyn]; simp; rfl

theorem subn (x y : Reg) : Statement (.subn x y) := by
  show wordHXYN _ _ _ _ &&& wordHXYN 0xf 0x0 0x0 0xf = _
  rw [hxyn]; simp; rfl

theorem shl (x y : Reg) : Statement (.shl x y) := by
  show wordHXYN _ _ _ _ &&& wordHXYN 0xf 0x0 0x0 0xf = _
  rw [hxyn]; simp; rfl

theorem sneReg (x y : Reg) (ign : Nibble) : Statement (.sneReg x y ign) := by
  show wordHXYN _ _ _ _ &&& wordHXYN 0xf 0x0 0x0 0x0 = _
  rw [hxyn]; simp; rfl

theorem ldI (nnn : Addr) : Statement (.ldI nnn) := by
  show wordHNNN _ _ &&& wordHNNN 0xf 0x0 = _
  rw [hnnn]; simp; rfl

theorem jpV0 (nnn : Addr) : Statement (.jpV0 nnn) := by
  show wordHNNN _ _ &&& wordHNNN 0xf 0x0 = _
  rw [hnnn]; simp; rfl

theorem rnd (x : Reg) (nn : Byte) : Statement (.rnd x nn) := by
  show wordHXNN _ _ _ &&& wordHXNN 0xf 0x0 0x0 = _
  rw [hxnn]; simp; rfl

theorem drw (x y : Reg) (n : Nibble) : Statement (.drw x y n) := by
  show wordHXYN _ _ _ _ &&& wordHXYN 0xf 0x0 0x0 0x0 = _
  rw [hxyn]; simp; rfl

theorem skp (x : Reg) (ign : Nibble) : Statement (.skp x ign) := by
  show wordHXYN _ _ _ _ &&& wordHXYN 0xf 0x0 0xf 0x0 = _
  rw [hxyn]; simp; rfl

theorem sknp (x : Reg) (ign : Nibble) : Statement (.sknp x ign) := by
  show wordHXYN _ _ _ _ &&& wordHXYN 0xf 0x0 0xf 0x0 = _
  rw [hxyn]; simp; rfl

theorem ldVxDt (x : Reg) : Statement (.ldVxDt x) := by
  show wordHXNN _ _ _ &&& wordHXNN 0xf 0x0 0xff = _
  rw [hxnn]; simp; rfl

theorem ldVxK (x : Reg) : Statement (.ldVxK x) := by
  show wordHXNN _ _ _ &&& wordHXNN 0xf 0x0 0xff = _
  rw [hxnn]; simp; rfl

theorem ldDtVx (x : Reg) : Statement (.ldDtVx x) := by
  show wordHXNN _ _ _ &&& wordHXNN 0xf 0x0 0xff = _
  rw [hxnn]; simp; rfl

theorem ldStVx (x : Reg) : Statement (.ldStVx x) := by
  show wordHXNN _ _ _ &&& wordHXNN 0xf 0x0 0xff = _
  rw [hxnn]; simp; rfl

theorem addIVx (x : Reg) : Statement (.addIVx x) := by
  show wordHXNN _ _ _ &&& wordHXNN 0xf 0x0 0xff = _
  rw [hxnn]; simp; rfl

theorem ldFVx (x : Reg) : Statement (.ldFVx x) := by
  show wordHXNN _ _ _ &&& wordHXNN 0xf 0x0 0xff = _
  rw [hxnn]; simp; rfl

theorem ldHfVx (x : Reg) : Statement (.ldHfVx x) := by
  show wordHXNN _ _ _ &&& wordHXNN 0xf 0x0 0xff = _
  rw [hxnn]; simp; rfl

theorem ldBVx (x : Reg) : Statement (.ldBVx x) := by
  show wordHXNN _ _ _ &&& wordHXNN 0xf 0x0 0xff = _
  rw [hxnn]; simp; rfl

theorem ldMemVx (x : Reg) : Statement (.ldMemVx x) := by
  show wordHXNN _ _ _ &&& wordHXNN 0xf 0x0 0xff = _
  rw [hxnn]; simp; rfl

theorem ldVxMem (x : Reg) : Statement (.ldVxMem x) := by
  show wordHXNN _ _ _ &&& wordHXNN 0xf 0x0 0xff = _
  rw [hxnn]; simp; rfl

theorem ldRVx (x : Reg) : Statement (.ldRVx x) := by
  show wordHXNN _ _ _ &&& wordHXNN 0xf 0x0 0xff = _
  rw [hxnn]; simp; rfl

theorem ldVxR (x : Reg) : Statement (.ldVxR x) := by
  show wordHXNN _ _ _ &&& wordHXNN 0xf 0x0 0xff = _
  rw [hxnn]; simp; rfl

theorem unmodelledFx00 (x : Reg) : Statement (.unmodelledFx00 x) := by
  show wordHXNN _ _ _ &&& wordHXNN 0xf 0x0 0xff = _
  rw [hxnn]; simp; rfl

theorem unmodelledFxFn (x : Reg) (n : Nibble) : Statement (.unmodelledFxFn x n) := by
  show wordHXYN _ _ _ _ &&& wordHXYN 0xf 0x0 0xf 0x0 = _
  rw [hxyn]; simp; rfl

theorem unknown (op : Word) : Statement (.unknown op) := by
  simp [Statement, rowMask, rowMatch]

end Sys2Proof.Laws.RowPattern
end

