-- ==== Sys2Proof/Machine/Assembly.lean ====
section
/-! DEFINITION. The spec's notation for instructions: the formats of R96, the syntax of R93 and R94, and the
assembler's word with canonical ignored bits (R95, D33). No rule of execution uses it (G8; assumption log 12). -/

namespace Sys2Proof.Machine

/-- The formats, by which fields an instruction uses (R96). -/
inductive Format where
  | ctl
  | nnn
  | xnn
  | xy
  | xyf
  | xyn
  | x
  deriving DecidableEq, Repr

/-- The format of an instruction; the refused and the unknown words have none (R96). -/
def formatOf : Instr → Option Format
  | .cls _ | .ret _ | .scd _ _ | .scr _ | .scl _ | .exit _ | .low _ | .high _ => some .ctl
  | .jp _ | .call _ | .ldI _ | .jpV0 _ => some .nnn
  | .seImm _ _ | .sneImm _ _ | .ldImm _ _ | .addImm _ _ | .rnd _ _ => some .xnn
  | .seReg _ _ _ | .sneReg _ _ _ => some .xy
  | .ldReg _ _ | .orReg _ _ | .andReg _ _ | .xorReg _ _ | .addReg _ _ | .subReg _ _ => some .xyf
  | .shr _ _ | .subn _ _ | .shl _ _ => some .xyf
  | .drw _ _ _ => some .xyn
  | .skp _ _ | .sknp _ _ | .ldVxDt _ | .ldVxK _ | .ldDtVx _ | .ldStVx _ | .addIVx _ => some .x
  | .ldFVx _ | .ldHfVx _ | .ldBVx _ | .ldMemVx _ | .ldVxMem _ | .ldRVx _ | .ldVxR _ => some .x
  | .unmodelledFx00 _ | .unmodelledFxFn _ _ | .unknown _ => none

/-- One hexadecimal digit. -/
def hexDigit (n : Nat) : String :=
  match n with
  | 0 => "0" | 1 => "1" | 2 => "2" | 3 => "3" | 4 => "4" | 5 => "5" | 6 => "6" | 7 => "7"
  | 8 => "8" | 9 => "9" | 10 => "A" | 11 => "B" | 12 => "C" | 13 => "D" | 14 => "E" | _ => "F"

/-- A register operand, `V0` to `VF` (R94). -/
def regText (x : Reg) : String := "V" ++ hexDigit x.toNat

/-- An immediate in hex with a `0x` prefix (R94). -/
def byteText (nn : Byte) : String := "0x" ++ hexDigit (nn.toNat / 16) ++ hexDigit (nn.toNat % 16)

/-- An address as three hex digits (R94). -/
def addrText (nnn : Addr) : String :=
  hexDigit (nnn.toNat / 256) ++ hexDigit (nnn.toNat / 16 % 16) ++ hexDigit (nnn.toNat % 16)

/-- Two operands after a mnemonic. -/
def pairText (mnemonic a b : String) : String := mnemonic ++ " " ++ a ++ ", " ++ b

/-- The syntax of an instruction (R93, R94); the refused and the unknown words have none. The operand VY that
SHR and SHL accept and ignore is not written. -/
def textOf : Instr → Option String
  | .cls _ => some "CLS"
  | .ret _ => some "RET"
  | .scd _ n => some ("SCD " ++ hexDigit n.toNat)
  | .scr _ => some "SCR"
  | .scl _ => some "SCL"
  | .exit _ => some "EXIT"
  | .low _ => some "LOW"
  | .high _ => some "HIGH"
  | .jp nnn => some ("JP " ++ addrText nnn)
  | .call nnn => some ("CALL " ++ addrText nnn)
  | .seImm x nn => some (pairText "SE" (regText x) (byteText nn))
  | .sneImm x nn => some (pairText "SNE" (regText x) (byteText nn))
  | .seReg x y _ => some (pairText "SE" (regText x) (regText y))
  | .ldImm x nn => some (pairText "LD" (regText x) (byteText nn))
  | .addImm x nn => some (pairText "ADD" (regText x) (byteText nn))
  | .ldReg x y => some (pairText "LD" (regText x) (regText y))
  | .orReg x y => some (pairText "OR" (regText x) (regText y))
  | .andReg x y => some (pairText "AND" (regText x) (regText y))
  | .xorReg x y => some (pairText "XOR" (regText x) (regText y))
  | .addReg x y => some (pairText "ADD" (regText x) (regText y))
  | .subReg x y => some (pairText "SUB" (regText x) (regText y))
  | .shr x _ => some ("SHR " ++ regText x)
  | .subn x y => some (pairText "SUBN" (regText x) (regText y))
  | .shl x _ => some ("SHL " ++ regText x)
  | .sneReg x y _ => some (pairText "SNE" (regText x) (regText y))
  | .ldI nnn => some (pairText "LD" "I" (addrText nnn))
  | .jpV0 nnn => some (pairText "JP" "V0" (addrText nnn))
  | .rnd x nn => some (pairText "RND" (regText x) (byteText nn))
  | .drw x y n => some (pairText "DRW" (regText x) (regText y) ++ ", " ++ hexDigit n.toNat)
  | .skp x _ => some ("SKP " ++ regText x)
  | .sknp x _ => some ("SKNP " ++ regText x)
  | .ldVxDt x => some (pairText "LD" (regText x) "DT")
  | .ldVxK x => some (pairText "LD" (regText x) "K")
  | .ldDtVx x => some (pairText "LD" "DT" (regText x))
  | .ldStVx x => some (pairText "LD" "ST" (regText x))
  | .addIVx x => some (pairText "ADD" "I" (regText x))
  | .ldFVx x => some (pairText "LD" "F" (regText x))
  | .ldHfVx x => some (pairText "LD" "HF" (regText x))
  | .ldBVx x => some (pairText "LD" "B" (regText x))
  | .ldMemVx x => some (pairText "LD" "[I]" (regText x))
  | .ldVxMem x => some (pairText "LD" (regText x) "[I]")
  | .ldRVx x => some (pairText "LD" "R" (regText x))
  | .ldVxR x => some (pairText "LD" (regText x) "R")
  | .unmodelledFx00 _ | .unmodelledFxFn _ _ | .unknown _ => none

/-- The instruction with its ignored bits at the values the spec's assembler writes: 0 in op[11:8] of group 0,
5XY0, 9XY0, EX9E, EXA1 (R95, D33). -/
def canonicalForm : Instr → Instr
  | .cls _ => .cls 0x0
  | .ret _ => .ret 0x0
  | .scd _ n => .scd 0x0 n
  | .scr _ => .scr 0x0
  | .scl _ => .scl 0x0
  | .exit _ => .exit 0x0
  | .low _ => .low 0x0
  | .high _ => .high 0x0
  | .seReg x y _ => .seReg x y 0x0
  | .sneReg x y _ => .sneReg x y 0x0
  | .skp x _ => .skp x 0xE
  | .sknp x _ => .sknp x 0x1
  | .jp nnn => .jp nnn
  | .call nnn => .call nnn
  | .seImm x nn => .seImm x nn
  | .sneImm x nn => .sneImm x nn
  | .ldImm x nn => .ldImm x nn
  | .addImm x nn => .addImm x nn
  | .ldReg x y => .ldReg x y
  | .orReg x y => .orReg x y
  | .andReg x y => .andReg x y
  | .xorReg x y => .xorReg x y
  | .addReg x y => .addReg x y
  | .subReg x y => .subReg x y
  | .shr x y => .shr x y
  | .subn x y => .subn x y
  | .shl x y => .shl x y
  | .ldI nnn => .ldI nnn
  | .jpV0 nnn => .jpV0 nnn
  | .rnd x nn => .rnd x nn
  | .drw x y n => .drw x y n
  | .ldVxDt x => .ldVxDt x
  | .ldVxK x => .ldVxK x
  | .ldDtVx x => .ldDtVx x
  | .ldStVx x => .ldStVx x
  | .addIVx x => .addIVx x
  | .ldFVx x => .ldFVx x
  | .ldHfVx x => .ldHfVx x
  | .ldBVx x => .ldBVx x
  | .ldMemVx x => .ldMemVx x
  | .ldVxMem x => .ldVxMem x
  | .ldRVx x => .ldRVx x
  | .ldVxR x => .ldVxR x
  | .unmodelledFx00 x => .unmodelledFx00 x
  | .unmodelledFxFn x n => .unmodelledFxFn x n
  | .unknown op => .unknown op

/-- The word the spec's assembler writes for an instruction (R95, D33). -/
def assemble (i : Instr) : Word := encode (canonicalForm i)

end Sys2Proof.Machine
end

