-- ==== Sys2Proof/Tests/Slice0.lean ====
section
/-! SUPPORT. Tests of the model's own work, each with its source in the spec, and for every statement with
hypotheses a named state and operands that meet them all together. -/

namespace Sys2Proof.Tests

open Sys2Proof.Machine

/-! ## Helpers -/

/-- The outcome is a next state that passes a check. -/
def nextWith (o : Host.Outcome State Fault Refusal) (check : State → Bool) : Bool :=
  match o with
  | .next t => check t
  | .fault _ => false
  | .refused _ => false

theorem nextWith_iff {o : Host.Outcome State Fault Refusal} {check : State → Bool} :
    nextWith o check = true ↔ ∃ t, o = .next t ∧ check t = true := by
  cases o <;> simp [nextWith]

/-- One step of a state with a given word where it fetches, and a check of the next state. -/
def after (s : State) (w : Nat) (check : State → Bool) : Bool := nextWith (step (s.withFetchWord 16 w)) check

/-- A state with pixels of its active region set. -/
def withPixels (s : State) (ps : List (Nat × Nat)) : State :=
  ps.foldl (fun t p => t.setFb (t.fb.put (p.2 * t.width + p.1) true)) s

/-- A state with VF_ORDER = Snapshot. -/
def snapshotOf (s : State) : State := { s with params := { s.params with vfOrder := .snapshot } }

/-- The default parameters with STRICT_DECODE on. -/
def strictParams : Params := { defaultParams with strictDecode := true }

/-- A state whose machine scrolls up with 00Bn (93 Part 1). -/
def scrollUpOf (s : State) : State := { s with params := { s.params with scrollUp := .bn } }

/-- A state with the latch set. -/
def latched : State := State.reset.raise .stackUnderflow (some 0x00EE) none

/-- A state with data in every structure the invariant speaks of: a byte of memory, two pixels, one key. -/
def busy : State := ((withPixels (State.reset.memWrite 0x300 7) [(1, 1), (63, 31)])).setKey 7

/-! ## Well-formedness: the one check, refusing and accepting -/

/-- 00E0 is CLS, so an `unknown` that carries it is ill formed (R89). -/
theorem test_wf_refuses_known_word : (Instr.unknown 0x00E0).wf = false := by decide

/-- F107 is LD VX, DT, and F100 is a refused word: neither is unknown (R87, R90). -/
theorem test_wf_refuses_group_f : (Instr.unknown 0xF107).wf = false ∧ (Instr.unknown 0xF100).wf = false := by decide

theorem test_wf_accepts : (Instr.unknown 0x8018).wf = true ∧ (Instr.drw 0x1 0x2 0x0).wf = true := by decide

/-! ## Decoding: a word written out from R93's patterns for every constructor -/

/-- Group 0, 0000 xxxx and the low byte (R84). -/
theorem test_decode_group0 :
    decode 0x00E0 = .cls 0x0 ∧ decode 0x00EE = .ret 0x0 ∧ decode 0x00C5 = .scd 0x0 0x5 ∧
    decode 0x00FB = .scr 0x0 ∧ decode 0x00FC = .scl 0x0 ∧ decode 0x00FD = .exit 0x0 ∧
    decode 0x00FE = .low 0x0 ∧ decode 0x00FF = .high 0x0 := by decide

/-- op[11:8] of group 0 is not examined, and low bytes outside the table are unknown (R84, R89; C1). -/
theorem test_decode_group0_ignored :
    decode 0x0AEE = .ret 0xA ∧ decode 0x0FC1 = .scd 0xF 0x1 ∧ decode 0x00FA = .unknown 0x00FA := by decide

/-- 1NNN, 2NNN, ANNN, BNNN (R83, R93). -/
theorem test_decode_addresses :
    decode 0x1ABC = .jp 0xABC ∧ decode 0x2ABC = .call 0xABC ∧ decode 0xA2F0 = .ldI 0x2F0 ∧
    decode 0xB300 = .jpV0 0x300 := by decide

/-- 3XNN, 4XNN, 5XY?, 9XY? (R83, R88, R93). -/
theorem test_decode_skips :
    decode 0x3342 = .seImm 0x3 0x42 ∧ decode 0x4300 = .sneImm 0x3 0x00 ∧ decode 0x512F = .seReg 0x1 0x2 0xF ∧
    decode 0x9120 = .sneReg 0x1 0x2 0x0 := by decide

/-- 6XNN, 7XNN, CXNN, DXYN (R83, R93). -/
theorem test_decode_immediates :
    decode 0x6005 = .ldImm 0x0 0x05 ∧ decode 0x71FF = .addImm 0x1 0xFF ∧ decode 0xC30F = .rnd 0x3 0x0F ∧
    decode 0xD125 = .drw 0x1 0x2 0x5 := by decide

/-- Group 8, the low nibble (R85). -/
theorem test_decode_group8 :
    decode 0x8120 = .ldReg 0x1 0x2 ∧ decode 0x8121 = .orReg 0x1 0x2 ∧ decode 0x8122 = .andReg 0x1 0x2 ∧
    decode 0x8123 = .xorReg 0x1 0x2 ∧ decode 0x8124 = .addReg 0x1 0x2 ∧ decode 0x8125 = .subReg 0x1 0x2 ∧
    decode 0x8126 = .shr 0x1 0x2 ∧ decode 0x8127 = .subn 0x1 0x2 ∧ decode 0x812E = .shl 0x1 0x2 := by decide

/-- Group E, the middle nibble; op[3:0] is not examined (R86, C9). -/
theorem test_decode_groupE :
    decode 0xE29E = .skp 0x2 0xE ∧ decode 0xE290 = .skp 0x2 0x0 ∧ decode 0xE2A1 = .sknp 0x2 0x1 ∧
    decode 0xE2B1 = .unknown 0xE2B1 := by decide

/-- Group F, the low byte (R87, R90). -/
theorem test_decode_groupF :
    decode 0xF307 = .ldVxDt 0x3 ∧ decode 0xF30A = .ldVxK 0x3 ∧ decode 0xF315 = .ldDtVx 0x3 ∧
    decode 0xF318 = .ldStVx 0x3 ∧ decode 0xF31E = .addIVx 0x3 ∧ decode 0xF329 = .ldFVx 0x3 ∧
    decode 0xF330 = .ldHfVx 0x3 ∧ decode 0xF333 = .ldBVx 0x3 ∧ decode 0xF355 = .ldMemVx 0x3 ∧
    decode 0xF365 = .ldVxMem 0x3 ∧ decode 0xF375 = .ldRVx 0x3 ∧ decode 0xF385 = .ldVxR 0x3 := by decide

/-- The refused words and an unknown one between them (R89, R90; 95 K20, K21). -/
theorem test_decode_refused :
    decode 0xF100 = .unmodelledFx00 0x1 ∧ decode 0xF1F5 = .unmodelledFxFn 0x1 0x5 ∧
    decode 0xF0E0 = .unknown 0xF0E0 := by decide

/-- Unknown words of group 8 (R85, D21). -/
theorem test_decode_unknown : decode 0x8018 = .unknown 0x8018 ∧ decode 0x801F = .unknown 0x801F := by decide

/-- Words are big-endian, and one byte alone does not decode (R61, R64, R80). -/
theorem test_decode_bytes :
    decodeBytes [0x1A, 0xBC, 0x55] = .ok (.jp 0xABC, [0x55]) ∧ decodeBytes [0x1A] = .error .truncated := by decide

/-- STRICT_DECODE on: a non-canonical spelling is unknown, a canonical one decodes as ever (93 Part 1). -/
theorem test_decode_strict :
    decodeWith strictParams 0x01E0 = .unknown 0x01E0 ∧ decodeWith strictParams 0x5121 = .unknown 0x5121 ∧
    decodeWith strictParams 0xE29E = .skp 0x2 0xE ∧ decodeWith strictParams 0x8366 = .shr 0x3 0x6 := by decide

/-- Encodings written out from R93's patterns (R95). -/
theorem test_encode :
    encode (.drw 0x1 0x2 0x5) = 0xD125 ∧ encode (.ldVxMem 0xF) = 0xFF65 ∧ encode (.scd 0x0 0x3) = 0x00C3 ∧
    encode (.call 0xABC) = 0x2ABC ∧ encode (.shl 0x3 0x4) = 0x834E := by decide

/-- The spec's notation: the syntax of three instructions as R93 and R94 write it. -/
theorem test_text :
    textOf (.drw 0x1 0x2 0x5) = some "DRW V1, V2, 5" ∧ textOf (.ldI 0x2F0) = some "LD I, 2F0" ∧
    textOf (.ldVxMem 0xA) = some "LD VA, [I]" := by decide

/-- R95: the assembler's word has the canonical ignored bits. -/
theorem test_assemble :
    assemble (.seReg 0x1 0x2 0xF) = 0x5120 ∧ assemble (.skp 0x2 0x0) = 0xE29E ∧ assemble (.sknp 0x2 0x0) = 0xE2A1 ∧
    assemble (.cls 0xA) = 0x00E0 ∧ assemble (.shl 0x3 0x4) = 0x834E := by decide

/-! ## One step, from the vectors of 95_test_vectors.md -/

/-- C1, R100. -/
theorem test_jp : after State.reset 0x1ABC (fun t => t.pc == 0xABC) = true := by decide

/-- C3, R101. -/
theorem test_call_pushes_own_pc :
    after State.reset 0x2300
      (fun t => t.stack[0] == 0x200 && t.sp == 1 && t.pc == 0x300) = true := by decide

/-- C4, R101, R223. -/
theorem test_call_full_faults :
    after { State.reset with sp := 16, stack := Vector.replicate 16 0x300 } 0x2300
      (fun t => t.fault == some ⟨.stackOverflow, 0x200, some 0x2300, none⟩ && t.sp == 16 && t.pc == 0x200) = true := by decide

/-- C5, R102. -/
theorem test_ret_goes_past_call :
    after { State.reset with pc := 0x300, sp := 1, stack := State.reset.stack.set 0 0x200 } 0x00EE
      (fun t => t.sp == 0 && t.pc == 0x202 && t.stack[0] == 0x200) = true := by decide

/-- C6, Y10, R102, R223. -/
theorem test_ret_empty_faults :
    after { State.reset with dt := 1, st := 1 } 0x00EE
      (fun t => t.fault == some ⟨.stackUnderflow, 0x200, some 0x00EE, none⟩ && t.dt == 1 && t.st == 1 && !t.beep) = true := by decide

/-- C7, R103. -/
theorem test_seImm_skips : after (State.reset.setV 3 0x42) 0x3342 (fun t => t.pc == 0x204) = true := by decide

/-- C7, R103. -/
theorem test_seImm_stays : after (State.reset.setV 3 0x42) 0x3343 (fun t => t.pc == 0x202) = true := by decide

/-- C8, R104. -/
theorem test_sneImm_stays : after (State.reset.setV 3 0x42) 0x4342 (fun t => t.pc == 0x202) = true := by decide

/-- C8, R104. -/
theorem test_sneImm_skips : after (State.reset.setV 3 0x42) 0x4300 (fun t => t.pc == 0x204) = true := by decide

/-- C9, R105, R88. -/
theorem test_seReg_ignores_low_nibble :
    after ((State.reset.setV 1 7).setV 2 7) 0x512F
      (fun t => t.pc == 0x204) = true := by decide

/-- C10, R105. -/
theorem test_seReg_stays : after ((State.reset.setV 1 7).setV 2 8) 0x5120 (fun t => t.pc == 0x202) = true := by decide

/-- C11, R106. -/
theorem test_sneReg_skips :
    after ((State.reset.setV 1 7).setV 2 8) 0x9120
      (fun t => t.pc == 0x204) = true := by decide

/-- C12, R106. -/
theorem test_sneReg_same_register : after (State.reset.setV 1 7) 0x9110 (fun t => t.pc == 0x202) = true := by decide

/-- C13, R107. -/
theorem test_jpV0 : after (State.reset.setV 0 0x10) 0xB300 (fun t => t.pc == 0x310) = true := by decide

/-- C14, R107. -/
theorem test_jpV0_not_masked : after (State.reset.setV 0 0xFF) 0xBF80 (fun t => t.pc == 0x107F) = true := by decide

/-- A1, R121. -/
theorem test_ldReg : after (State.reset.setV 1 0x3C) 0x8010 (fun t => t.v 0 == 0x3C) = true := by decide

/-- A2, R122, D7. -/
theorem test_orReg_keeps_vf :
    after (((State.reset.setV 0 0xF0).setV 1 0x0F).setV 15 0x55) 0x8011
      (fun t => t.v 0 == 0xFF && t.v 15 == 0x55) = true := by decide

/-- A3, R123. -/
theorem test_andReg :
    after ((State.reset.setV 0 0xF0).setV 1 0x3C) 0x8012
      (fun t => t.v 0 == 0x30) = true := by decide

/-- A4, R124. -/
theorem test_xorReg :
    after ((State.reset.setV 0 0xF0).setV 1 0x3C) 0x8013
      (fun t => t.v 0 == 0xCC) = true := by decide

/-- A5, R124. -/
theorem test_xorReg_same_register :
    after (State.reset.setV 0 0x5A) 0x8003
      (fun t => t.v 0 == 0x00) = true := by decide

/-- S4, A6, R125. -/
theorem test_addReg_carry :
    after ((State.reset.setV 0 0xFF).setV 1 1) 0x8014
      (fun t => t.v 0 == 0 && t.v 15 == 1 && t.pc == 0x202) = true := by decide

/-- S5, R126. -/
theorem test_subReg_borrow :
    after ((State.reset.setV 0 5).setV 1 10) 0x8015
      (fun t => t.v 0 == 0xFB && t.v 15 == 0) = true := by decide

/-- A7, R126. -/
theorem test_subReg_equal :
    after ((State.reset.setV 0 7).setV 1 7) 0x8015
      (fun t => t.v 0 == 0 && t.v 15 == 1) = true := by decide

/-- A9, R128. -/
theorem test_subn_borrow :
    after ((State.reset.setV 0 10).setV 1 5) 0x8017
      (fun t => t.v 0 == 0xFB && t.v 15 == 0) = true := by decide

/-- A11, R127, D6. -/
theorem test_shr_ignores_y :
    after ((State.reset.setV 2 4).setV 3 0xFF) 0x8236
      (fun t => t.v 2 == 2 && t.v 15 == 0) = true := by decide

/-- A12, R132. -/
theorem test_shl_out : after (State.reset.setV 2 0x81) 0x826E (fun t => t.v 2 == 2 && t.v 15 == 1) = true := by decide

/-- A14, R129. -/
theorem test_ldImm : after State.reset 0x6005 (fun t => t.v 0 == 5 && t.pc == 0x202) = true := by decide

/-- A15, R130. -/
theorem test_addImm_wraps_without_flag :
    after ((State.reset.setV 0 0xFF).setV 15 0x77) 0x7001
      (fun t => t.v 0 == 0 && t.v 15 == 0x77) = true := by decide

/-- A17, R131. -/
theorem test_rnd_zero_mask :
    after (State.reset.setV 3 9) 0xC300
      (fun t => t.draws == 1 && t.pc == 0x202) = true := by decide

/-- A19, D21. -/
theorem test_unknown_801F :
    after State.reset 0x801F
      (fun t => t.pc == 0x202 && t.unknown == some 0x801F) = true := by decide

/-- F1, R120. -/
theorem test_addReg_vf_sequential :
    after ((State.reset.setV 15 0xFF).setV 1 1) 0x8F14
      (fun t => t.v 15 == 2) = true := by decide

/-- F7, R120. -/
theorem test_subn_vf_sequential :
    after ((State.reset.setV 15 3).setV 1 0x10) 0x8F17
      (fun t => t.v 15 == 0x0F) = true := by decide

/-- F8, R120. -/
theorem test_shr_vf_sequential : after (State.reset.setV 15 3) 0x8F06 (fun t => t.v 15 == 0) = true := by decide

/-- G2, R140. -/
theorem test_drw_wraps_flattened :
    after ((((State.reset.setI 0x300).memWrite 0x300 0xFF).setV 0 62).setV 1 0) 0xD011
      (fun t => t.fb == [62, 63, 64, 65, 66, 67, 68, 69] && t.v 15 == 0 && t.draw && t.pc == 0x202) = true := by decide

/-- G5, R140. -/
theorem test_drw_collides :
    after (withPixels ((State.reset.setI 0x300).memWrite 0x300 0xC0) [(1, 0)]) 0xD011
      (fun t => t.fb == [0] && t.v 15 == 1 && t.draw) = true := by decide

/-- S2, G10, R141. -/
theorem test_cls :
    after (withPixels (State.reset.setV 15 3) [(1, 1), (63, 31)]) 0x00E0
      (fun t => t.fb == [] && t.v 15 == 3 && t.draw) = true := by decide

/-- Y5, R84, R141. -/
theorem test_cls_ignores_x :
    after (withPixels State.reset [(0, 0)]) 0x01E0
      (fun t => t.fb == [] && t.draw) = true := by decide

/-- G11, R142. -/
theorem test_scd :
    after (withPixels State.reset [(5, 0), (5, 30)]) 0x00C3
      (fun t => t.fb == [3*64+5] && t.draw && t.pc == 0x202) = true := by decide

/-- G12, R142. -/
theorem test_scd_zero :
    after (withPixels State.reset [(5, 0)]) 0x00C0
      (fun t => t.fb == [5] && t.draw) = true := by decide

/-- G13, R144. -/
theorem test_scl :
    after (withPixels State.reset [(4, 0), (2, 1)]) 0x00FC
      (fun t => t.fb == [0] && t.draw) = true := by decide

/-- S10, R143. -/
theorem test_scr :
    after (withPixels State.reset [(0, 0), (62, 0)]) 0x00FB
      (fun t => t.fb == [4] && t.draw) = true := by decide

/-- G14, R143. -/
theorem test_scr_extended :
    after { State.reset with extended := true, fb := [0, 63*128+124] } 0x00FB
      (fun t => t.fb == [4]) = true := by decide

/-- G15, R145. -/
theorem test_low :
    after { State.reset with extended := true, fb := [67] } 0x00FE
      (fun t => !t.extended && t.fb == [67] && t.pixel 3 1 && t.draw) = true := by decide

/-- G16, R146. -/
theorem test_high :
    after (withPixels State.reset [(3, 1)]) 0x00FF
      (fun t => t.extended && t.fb == [67] && t.pixel 67 0 && t.draw) = true := by decide

/-- T1, R160. -/
theorem test_ldVxDt_before_tick :
    after { State.reset with dt := 0x20 } 0xF307
      (fun t => t.v 3 == 0x20 && t.dt == 0x1F) = true := by decide

/-- T2, R161. -/
theorem test_ldDtVx_ticks : after (State.reset.setV 0 3) 0xF015 (fun t => t.dt == 2) = true := by decide

/-- T4, R162. -/
theorem test_ldStVx_beeps : after (State.reset.setV 0 1) 0xF018 (fun t => t.st == 0 && t.beep) = true := by decide

/-- T5, R162. -/
theorem test_ldStVx_silences :
    after { State.reset with st := 5 } 0xF018
      (fun t => t.st == 0 && !t.beep) = true := by decide

/-- T7, T10, R163, R88. -/
theorem test_skp_skips_and_releases :
    after ((State.reset.setV 2 7).setKey 7) 0xE290
      (fun t => t.pc == 0x204 && !t.key 7) = true := by decide

/-- T12, R164. -/
theorem test_sknp_keeps_key :
    after ((State.reset.setV 2 7).setKey 7) 0xE2A1
      (fun t => t.pc == 0x202 && t.key 7) = true := by decide

/-- T13, R163, D4. -/
theorem test_skp_out_of_range :
    after (State.reset.setV 2 16) 0xE29E
      (fun t => t.fault == some ⟨.keyIndexOutOfRange, 0x200, some 0xE29E, some 16⟩ && t.pc == 0x200) = true := by decide

/-- T14, R164, D4. -/
theorem test_sknp_out_of_range :
    after (State.reset.setV 2 0xFF) 0xE2A1
      (fun t => t.fault == some ⟨.keyIndexOutOfRange, 0x200, some 0xE2A1, some 0xFF⟩) = true := by decide

/-- T16, R165. -/
theorem test_ldVxK_waits :
    after { State.reset with dt := 2 } 0xF20A
      (fun t => t.awaitingKey && t.pc == 0x200 && t.dt == 1) = true := by decide

/-- T17, R165, D18. -/
theorem test_ldVxK_completes :
    after ({ State.reset with awaitingKey := true }.setKey 3) 0xF20A
      (fun t => t.v 2 == 3 && !t.key 3 && !t.awaitingKey && t.pc == 0x202) = true := by decide

/-- K1, R180. -/
theorem test_ldI : after State.reset 0xA2F0 (fun t => t.i == 0x2F0) = true := by decide

/-- K2, R181. -/
theorem test_addIVx_overflow :
    after ((State.reset.setI 0xFFE).setV 1 3) 0xF11E
      (fun t => t.i == 0x1001 && t.v 15 == 1) = true := by decide

/-- K5, R181. -/
theorem test_addIVx_wraps_at_16_bits :
    after ((State.reset.setI 0xFFFF).setV 1 1) 0xF11E
      (fun t => t.i == 0 && t.v 15 == 1) = true := by decide

/-- K6, R182. -/
theorem test_ldFVx : after (State.reset.setV 0 0x0A) 0xF029 (fun t => t.i == 0x032) = true := by decide

/-- K6, R182, D10. -/
theorem test_ldFVx_whole_value : after (State.reset.setV 0 0x10) 0xF029 (fun t => t.i == 0x050) = true := by decide

/-- K7, R183. -/
theorem test_ldHfVx : after (State.reset.setV 0 0xFF) 0xF030 (fun t => t.i == 0xA46) = true := by decide

/-- S6, R184. -/
theorem test_ldBVx :
    after ((State.reset.setI 0x300).setV 0 234) 0xF033
      (fun t => t.memRead 0x300 == 2 && t.memRead 0x301 == 3 && t.memRead 0x302 == 4 && t.pc == 0x202) = true := by decide

/-- K11, R184, R63. -/
theorem test_ldBVx_wraps :
    after ((State.reset.setI 0xFFE).setV 0 123) 0xF033
      (fun t => t.memRead 0xFFE == 1 && t.memRead 0xFFF == 2 && t.memRead 0 == 3 && t.i == 0xFFE) = true := by decide

/-- K12, R185, D11. -/
theorem test_ldMemVx :
    after ((((State.reset.setI 0x300).setV 0 1).setV 1 2).setV 2 3) 0xF255
      (fun t => t.memRead 0x300 == 1 && t.memRead 0x301 == 2 && t.memRead 0x302 == 3 && t.memRead 0x303 == 0 && t.i == 0x300) = true := by decide

/-- K13, R185, R63. -/
theorem test_ldMemVx_wraps :
    after (((State.reset.setI 0xFFF).setV 0 0xAA).setV 1 0xBB) 0xF155
      (fun t => t.memRead 0xFFF == 0xAA && t.memRead 0 == 0xBB) = true := by decide

/-- K15, R186, D11. -/
theorem test_ldVxMem :
    after ((((State.reset.setI 0x300).memWrite 0x300 2).memWrite 0x301 3).memWrite 0x302 4) 0xF265
      (fun t => t.v 0 == 2 && t.v 1 == 3 && t.v 2 == 4 && t.v 3 == 0 && t.i == 0x300) = true := by decide

/-- K16, R186. -/
theorem test_ldVxMem_loads_vf :
    after ((State.reset.setI 0x300).memWrite 0x30F 0x5A) 0xFF65
      (fun t => t.v 14 == 0 && t.v 15 == 0x5A) = true := by decide

/-- S9, K17, R187. -/
theorem test_ldRVx_clamps :
    after (((((State.reset.setV 0 1).setV 1 2).setV 7 8).setV 8 9).setV 9 10) 0xF975
      (fun t => t.rplAt 0 == 1 && t.rplAt 1 == 2 && t.rplAt 2 == 0 && t.rplAt 7 == 8) = true := by decide

/-- K18, R187. -/
theorem test_ldRVx_keeps_rest :
    after (((({ State.reset with rpl := Vector.replicate 8 9 }.setV 0 1).setV 1 2).setV 2 3).setV 3 4) 0xF275
      (fun t => t.rplAt 0 == 1 && t.rplAt 2 == 3 && t.rplAt 3 == 9) = true := by decide

/-- S9, K19, R188. -/
theorem test_ldVxR_clamps :
    after (({ State.reset with rpl := #v[1, 2, 3, 4, 5, 6, 7, 8] }.setV 8 0xEE).setV 9 0xEE) 0xF985
      (fun t => t.v 0 == 1 && t.v 7 == 8 && t.v 8 == 0xEE && t.v 9 == 0xEE) = true := by decide

/-- Y1, R200. -/
theorem test_exit :
    after { State.reset with pc := 0x20C } 0x00FD
      (fun t => t.exitRequested && t.pc == 0x20E) = true := by decide

/-- Y3, R201. -/
theorem test_unknown_zero_word :
    after State.reset 0x0000
      (fun t => t.pc == 0x202 && t.unknown == some 0x0000 && t.fault == none) = true := by decide

/-! ## The cycle driver and the lifecycle -/

/-- C2, R61, R221: a fetch at 0xFFF faults, and the pc stays. -/
theorem test_fetch_out_of_range :
    nextWith (step { State.reset with pc := 0xFFF, dt := 2 }) (fun t =>
      t.fault == some ⟨.fetchOutOfRange, 0xFFF, none, none⟩ && t.pc == 0xFFF && t.dt == 2) = true := by decide

/-- Y8, R206: a latched machine does nothing. -/
theorem test_latched : nextWith (step { latched with dt := 5 }) (fun t =>
    t.dt == 5 && t.fault == latched.fault && t.pc == 0x200) = true := by decide

/-- K20, R189, R202: the word F1F5 is refused. -/
theorem test_refused_FxFn : step (State.reset.withFetchWord 16 0xF1F5) = .refused (.setIndexFormUnspecified 0xF1F5) := by
  rfl

/-- R189, R202: the word F300 is refused. -/
theorem test_refused_Fx00 : step (State.reset.withFetchWord 16 0xF300) = .refused (.setIndexFormUnspecified 0xF300) := by
  rfl

/-- 93 Part 1: with SCROLL_UP_ENCODING = 00Bn the word 00B2 scrolls up by two rows. -/
theorem test_scroll_up : after (scrollUpOf (State.reset.setFb [5, 133])) 0x00B2
    (fun t => t.fb == [5] && t.draw && t.pc == 0x202 && t.unknown == none) = true := by decide

/-- 93 Part 1, Y6: with SCROLL_UP_ENCODING = none the word 00B2 is unknown. -/
theorem test_scroll_up_absent : after (State.reset.setFb [5, 133]) 0x00B2
    (fun t => t.fb == [5, 133] && t.unknown == some 0x00B2 && !t.draw) = true := by decide

/-- R40, R55: the ends of the two font tables after reset, and the byte after them. -/
theorem test_fonts : State.reset.memRead 0x05 = 0x20 ∧ State.reset.memRead 0x4F = 0x80 ∧
    State.reset.memRead 0x50 = 0xFF ∧ State.reset.memRead 0xEF = 0xC0 ∧ State.reset.memRead 0xF0 = 0 := by decide

/-- R232: a key pressed is the sole one, and a number out of range does nothing. -/
theorem test_setKey : ((State.reset.setKey 3).setKey 15).key 3 = false ∧ ((State.reset.setKey 3).setKey 15).key 15 = true ∧
    ((State.reset.setKey 3).setKey 16).keys = (State.reset.setKey 3).keys := by decide

/-- L3, R253, D28: `reset` reloads the ROM and keeps the debug bit; with an unreadable source it returns a
LoadError and the machine holds no program. -/
theorem test_reset :
    (let s := (State.reset.setDebug true).transact (.load [0x60, 0x07] true)
     (s.hostReset true).1.memRead 0x200 = 0x60 ∧ (s.hostReset true).1.debug = true ∧ (s.hostReset true).2 = none ∧
     (s.hostReset false).1.memRead 0x200 = 0 ∧ (s.hostReset false).1.rom = none ∧
     (s.hostReset false).2 = some .rejected) := by decide +kernel

/-- L6, R253: `reset` with no remembered ROM. -/
theorem test_reset_noRom : (State.reset.hostReset true).2 = some .noRom := by decide +kernel

/-! ## Witnesses: for each statement with hypotheses, a state and operands that meet them -/

/-- DecodeOfEncode. -/
theorem witness_DecodeOfEncode : (Instr.drw 0xF 0xF 0x0).wf = true ∧ (Instr.unknown 0xFFE0).wf = true := by decide

/-- StrictDecodeWords: the hypothesis, and a word in each of the four groups and outside them. -/
theorem witness_StrictDecodeWords : strictParams.strictDecode = true ∧
    ((0x0FEE : Word).toNat / 4096 = 0x0 ∧ (0x0FEE : Word).toNat / 256 % 16 ≠ 0) ∧
    ((0x9121 : Word).toNat / 4096 = 0x9 ∧ (0x9121 : Word).toNat % 16 ≠ 0) ∧
    ((0xE29F : Word).toNat / 4096 = 0xE ∧ (0xE29F : Word).toNat / 16 % 16 = 0x9 ∧ (0xE29F : Word).toNat % 16 ≠ 0xE) ∧
    ((0xE2A0 : Word).toNat / 4096 = 0xE ∧ (0xE2A0 : Word).toNat / 16 % 16 = 0xA ∧ (0xE2A0 : Word).toNat % 16 ≠ 0x1) ∧
    decodeWith strictParams 0xE2A1 = decode 0xE2A1 := by decide

/-- StepRunsDecodedInstruction, at the highest fetchable pc: an instruction that goes on. -/
theorem witness_StepRunsDecodedInstruction :
    (let s := ({ State.reset with pc := 0xFFE }).withFetchWord 16 0x6105
     s.fault = none ∧ s.pc.toNat ≤ 0xFFE ∧
     decodeBytes [s.memRead s.pc.toNat, s.memRead (s.pc.toNat + 1)] = .ok (.ldImm 0x1 0x05, []) ∧
     nextWith (exec (.ldImm 0x1 0x05) s.beginStep) (fun _ => true) = true) := by decide

/-- StepRunsDecodedInstruction: a refused instruction, and a non-canonical one under STRICT_DECODE. -/
theorem witness_StepRunsDecodedInstruction_refused :
    (let s := State.reset.withFetchWord 16 0xF100
     decodeBytes [s.memRead s.pc.toNat, s.memRead (s.pc.toNat + 1)] = .ok (.unmodelledFx00 0x1, [])) ∧
    (let s := ({ State.reset with params := strictParams }).withFetchWord 16 0x01E0
     decodeBytes [s.memRead s.pc.toNat, s.memRead (s.pc.toNat + 1)] = .ok (.cls 0x1, []) ∧
     s.params.strictDecode = true ∧ (Instr.cls 0x1).canonical = false) := by decide

/-- StepBeginsAndEnds: a state whose step ended well, and one whose step faulted. -/
theorem witness_StepBeginsAndEnds : ({ State.reset with st := 1 }).fault = none ∧ latched.fault ≠ none := by decide

/-- BeepExactlyWhenSoundTimerEnds: an instruction that leaves ST at 1. -/
theorem witness_BeepExactlyWhenSoundTimerEnds :
    (let s := (State.reset.setV 0 1).withFetchWord 16 0xF018
     s.fault = none ∧ s.fetch = some 0xF018 ∧ decodeWith s.params 0xF018 = .ldStVx 0x0 ∧
     nextWith (exec (.ldStVx 0x0) s.beginStep) (fun u => u.fault == none && u.st == 1) = true) := by decide

/-- FetchOutOfRangeFaults, at the first pc that no fetch can use. -/
theorem witness_FetchOutOfRangeFaults :
    ({ State.reset with pc := 0xFFF }).fault = none ∧ 0xFFE < ({ State.reset with pc := 0xFFF }).pc.toNat := by decide

/-- LatchedMachineIsStuck. -/
theorem witness_LatchedMachineIsStuck : latched.fault ≠ none := by decide

/-- FaultingStepIsPrecise: a step that faults. -/
theorem witness_FaultingStepIsPrecise :
    (State.reset.withFetchWord 16 0x00EE).fault = none ∧
    ∃ t, step (State.reset.withFetchWord 16 0x00EE) = .next t ∧ (t.fault.isSome) = true :=
  ⟨by decide, nextWith_iff.mp (by decide)⟩

/-- FaultCausesAreTheFour: each of the four causes at its boundary. -/
theorem witness_FaultCausesAreTheFour :
    ({ State.reset with pc := 0xFFF }).fetch = none ∧
    (({ State.reset with sp := 16 }).withFetchWord 16 0x2300).fetch = some 0x2300 ∧
    (State.reset.withFetchWord 16 0x00EE).fetch = some 0x00EE ∧
    ((State.reset.setV 2 16).withFetchWord 16 0xE29E).fetch = some 0xE29E := by decide

/-- StepRefusesExactlyRefusedWords: both sides of the test. -/
theorem witness_StepRefusesExactlyRefusedWords :
    (State.reset.withFetchWord 16 0xF0F0).fetch = some 0xF0F0 ∧ refusedWord 0xF0F0 = true ∧
    refusedWord 0xF0EF = false ∧ refusedWord 0xF000 = true := by decide

/-- PlacedWordIsFetched: the greatest word, at the highest fetchable pc. -/
theorem witness_PlacedWordIsFetched : (65535 : Nat) < 65536 ∧ ({ State.reset with pc := 0xFFE }).pc.toNat ≤ 0xFFE := by
  decide

/-- StoredBytesAreFetched, with the last word of memory. -/
theorem witness_StoredBytesAreFetched :
    (let s := (State.reset.setI 0xFFE).setV 0 0x12
     1 ≤ (0x1 : Reg).toNat ∧ s.dataAddr 0 ≤ 0xFFE ∧
     nextWith (exec (.ldMemVx 0x1) s) (fun t => t.mem == ({ t with pc := 0xFFE }).mem) = true ∧
     (0xFFE : Word).toNat = s.dataAddr 0) := by decide

/-- StepKeepsDataInvariant and TransactionsKeepDataInvariant: a state with data in every structure, whose step
happens. -/
theorem witness_StepKeepsDataInvariant :
    busy.Inv ∧ ∃ t, step (busy.withFetchWord 16 0xE29E) = .next t ∧ true = true :=
  ⟨⟨by decide, by decide, by decide, by decide⟩, nextWith_iff.mp (by decide)⟩

theorem witness_StepKeepsDataInvariant_placed : (busy.withFetchWord 16 0xE29E).Inv :=
  ⟨by decide, by decide, by decide, by decide⟩

/-- StepKeepsPcInRange, at the bounds. -/
theorem witness_StepKeepsPcInRange :
    ({ State.reset with pc := 0x10FE, stack := Vector.replicate 16 0xFFE }).PcInRange ∧
    ({ State.reset with pc := 0xFFE, stack := Vector.replicate 16 0xFFE }).PcInRange :=
  ⟨⟨by decide, by decide⟩, ⟨by decide, by decide⟩⟩

/-- StepKeepsAwaitingAtFx0a: a waiting machine. -/
theorem witness_StepKeepsAwaitingAtFx0a :
    (let s := ({ State.reset with awaitingKey := true }).withFetchWord 16 0xF30A
     s.awaitingKey = true ∧ s.AwaitsAtFx0a) :=
  ⟨by decide, fun _ => ⟨0xF30A, 0x3, by decide, by decide⟩⟩

/-- StepsKeepHostState: a state with a ROM, whose step happens. -/
theorem witness_StepsKeepHostState :
    ∃ t, step ({ State.reset with debug := true, rom := some [1] }) = .next t ∧ true = true :=
  nextWith_iff.mp (by decide)

/-- ExitRequestedIsSticky: a step that sets it, and a state that has it. -/
theorem witness_ExitRequestedIsSticky :
    (State.reset.withFetchWord 16 0x00FD).fetch = some 0x00FD ∧
    (∃ t, step (State.reset.withFetchWord 16 0x00FD) = .next t ∧ t.exitRequested = true) ∧
    ({ State.reset with exitRequested := true }).exitRequested = true :=
  ⟨by decide, nextWith_iff.mp (by decide), by decide⟩

/-- RegisterWriters and PartWriters: ADD VX, VY writes neither V2 nor I. -/
theorem witness_RegisterWriters :
    mayWriteV (.addReg 0x0 0x1) 0x2 = false ∧ mayWritePart .i (.addReg 0x0 0x1) = false ∧
    ∃ t, exec (.addReg 0x0 0x1) State.reset = .next t ∧ true = true :=
  ⟨by decide, by decide, nextWith_iff.mp (by decide)⟩

/-- CallPushesItsAddress: the last free entry, and none. -/
theorem witness_CallPushesItsAddress :
    ({ State.reset with sp := 15 }).sp.val < 16 ∧ ({ State.reset with sp := 16 }).sp.val = 16 := by decide

/-- RetReturnsPastTheCall: one entry in use, and none. -/
theorem witness_RetReturnsPastTheCall :
    0 < ({ State.reset with sp := 1 }).sp.val ∧ State.reset.sp.val = 0 := by decide

/-- CallThenRet: the sixteenth CALL, and its RET. -/
theorem witness_CallThenRet :
    ({ State.reset with sp := 15 }).sp.val < 16 ∧
    ∃ t, exec (.call 0x300) { State.reset with sp := 15 } = .next t ∧ (t.sp == 16) = true :=
  ⟨by decide, nextWith_iff.mp (by decide)⟩

/-- Skips: a condition that holds, and one that does not. -/
theorem witness_SkipsTestTheirCondition :
    ((State.reset.setV 1 7).v 1).toNat = (0x07 : Byte).toNat ∧ ((State.reset.setV 1 7).v 1).toNat ≠ (State.reset.v 2).toNat := by
  decide

/-- AddSetsCarry, SubtractionsSetNoBorrow and ShiftsMoveOneBitOut: a destination other than VF. -/
theorem witness_FlagDestination : (0x0 : Reg) ≠ vf ∧ (0xE : Reg) ≠ vf := by decide

/-- The scrolls: the corner pixel of either mode. -/
theorem witness_Scrolls :
    63 < State.reset.width ∧ 31 < State.reset.height ∧
    127 < ({ State.reset with extended := true }).width ∧ 63 < ({ State.reset with extended := true }).height := by decide

/-- DrawXorsSprite: the form with no rows. -/
theorem witness_DrawXorsSprite : ¬ ((0x0 : Nibble) = 0x0 ∧ State.reset.extended = true) := by decide

/-- DrawingTwiceErases: a sprite over a blank screen. -/
theorem witness_DrawingTwiceErases :
    (0x0 : Reg) ≠ vf ∧ (0x1 : Reg) ≠ vf ∧ (∀ k, State.reset.fb.cell k = false) ∧
    ∃ t, exec (.drw 0x0 0x1 0x5) State.reset = .next t ∧ (t.fb.cell 0) = true :=
  ⟨by decide, by decide, fun _ => rfl, nextWith_iff.mp (by decide)⟩

/-- KeySkipsTestTheKey and KeyIndexOutOfRangeFaults: the greatest key, and the value after it. -/
theorem witness_KeySkips :
    ((State.reset.setV 2 15).v 2).toNat = (0xF : Nibble).toNat ∧ 15 < ((State.reset.setV 2 16).v 2).toNat := by decide

/-- AwaitKeyWaitsOrTakesTheLeast: no key, and the greatest key as the least one pressed. -/
theorem witness_AwaitKey :
    (∀ k, State.reset.key k = false) ∧ (State.reset.setKey 15).key 0xF = true ∧
    (∀ j : Nibble, j.toNat < (0xF : Nibble).toNat → (State.reset.setKey 15).key j = false) := by decide

/-- FontAddresses, with the small font at the highest base of its range and the big font at its own. -/
theorem witness_FontAddresses :
    (let s : State := { State.reset with params := { defaultParams with fontSmallBase := 0x1B0, fontBigBase := 0x160 } }
     s.params.fontSmallBase + 80 ≤ 0x200 ∧ s.params.fontBigBase + 160 ≤ 0x200) := by decide

/-- The transfers: the last register of a range, and the last RPL register. -/
theorem witness_Ranges :
    (0xF : Reg).toNat ≤ (0xF : Reg).toNat ∧ (0x7 : BitVec 3).toNat ≤ (0xF : Reg).toNat := by decide

/-- LoadAfterStoreGivesRegisters: a store that wraps past the end of memory. -/
theorem witness_LoadAfterStoreGivesRegisters :
    ∃ t, exec (.ldMemVx 0xF) (State.reset.setI 0xFFE) = .next t ∧ (t.i == 0xFFE) = true :=
  nextWith_iff.mp (by decide)

/-- UnknownIsReportedNoOp: the no-op where nothing scrolls up, where the word is no 00Bn, and where STRICT_DECODE
takes it. -/
theorem witness_UnknownIsReportedNoOp :
    State.reset.params.scrollUp = .absent ∧ (0x801F : Word).toNat / 4096 ≠ 0x0 ∧
    (0x00A0 : Word).toNat / 16 % 16 ≠ 0xB ∧
    (strictParams.strictDecode = true ∧ (0x01B2 : Word).toNat / 256 % 16 ≠ 0x0) := by decide

/-- UnknownIsReportedNoOp: a word 00Bn that scrolls up. -/
theorem witness_UnknownIsReportedNoOp_scroll :
    (scrollUpOf State.reset).params.scrollUp = .bn ∧ (0x0FBF : Word).toNat / 4096 = 0x0 ∧
    (0x0FBF : Word).toNat / 16 % 16 = 0xB ∧ (scrollUpOf State.reset).params.strictDecode = false := by decide

/-- InitializeSetsEveryValue. -/
theorem witness_InitializeSetsEveryValue : paramsWf State.reset.params := by decide +kernel

/-- LoadCopiesOrFails: the greatest ROM, and one byte more. -/
theorem witness_LoadCopiesOrFails :
    (List.replicate 3583 (0x60 : Byte)).length ≤ 3583 ∧ 3583 < (List.replicate 3584 (0x60 : Byte)).length := by
  rw [List.length_replicate, List.length_replicate]
  omega

/-- ResetReloadsTheRom: a reload that succeeds, and one that fails. -/
theorem witness_ResetReloadsTheRom :
    (let s : State := { State.reset with rom := some [0x60, 0x07] }
     (s.hostReset true).2 = none ∧ (s.hostReset false).2 ≠ none) ∧ State.reset.rom = none := by decide +kernel

/-- KeyTransactions: the greatest key, and the numbers on both sides of the range. -/
theorem witness_KeyTransactions :
    (15 : Int) = (0xF : Nibble).toNat ∧ ((-1 : Int) < 0 ∨ 15 < (-1 : Int)) ∧ ((16 : Int) < 0 ∨ 15 < (16 : Int)) := by
  decide

end Sys2Proof.Tests
end

section
/-! PROOFS. The control flow family (40_control_flow.md): the next state of CALL, RET and the conditional skips, and
the statements about them. -/

namespace Sys2Proof.Machine

/-! ## What each instruction answers -/

@[simp] theorem zext16_toNat (nnn : Addr) : (zext16 nnn).toNat = nnn.toNat :=
  BitVec.toNat_setWidth_of_le (by decide)

theorem exec_call_of_push {s t : State} (nnn : Addr) (h : s.push s.pc = some t) :
    exec (.call nnn) s = .next (t.setPc (zext16 nnn)) := by
  simp only [exec, execCall, h]

theorem exec_call_of_full {s : State} (nnn : Addr) (h : s.push s.pc = none) :
    exec (.call nnn) s = .next (s.raise .stackOverflow (some (encode (.call nnn))) none) := by
  simp only [exec, execCall, h]

theorem exec_ret_of_pop {s t : State} {a : Word} (g : Nibble) (h : s.pop = some (a, t)) :
    exec (.ret g) s = .next (t.setPc (a + 2)) := by
  simp only [exec, execRet, h]

theorem exec_ret_of_empty {s : State} (g : Nibble) (h : s.pop = none) :
    exec (.ret g) s = .next (s.raise .stackUnderflow (some (encode (.ret g))) none) := by
  simp only [exec, execRet, h]

theorem exec_seImm (x : Reg) (nn : Byte) (s : State) : exec (.seImm x nn) s = .next (s.skipIf (s.v x == nn)) := rfl

theorem exec_sneImm (x : Reg) (nn : Byte) (s : State) : exec (.sneImm x nn) s = .next (s.skipIf (s.v x != nn)) := rfl

theorem exec_seReg (x y : Reg) (g : Nibble) (s : State) :
    exec (.seReg x y g) s = .next (s.skipIf (s.v x == s.v y)) := rfl

theorem exec_sneReg (x y : Reg) (g : Nibble) (s : State) :
    exec (.sneReg x y g) s = .next (s.skipIf (s.v x != s.v y)) := rfl

/-! ## The conditional skips -/

/-- R108: the end of a skip, with its condition said as a proposition `p`. -/
theorem State.skipIf_pc_toNat (s : State) {c : Bool} {p : Prop} [Decidable p] (hc : c = true ↔ p) :
    (s.skipIf c).pc.toNat = (s.pc.toNat + if p then 4 else 2) % 65536 := by
  rw [State.skipIf_pc]
  by_cases hp : p
  · rw [if_pos (hc.mpr hp), if_pos hp, BitVec.toNat_add]; rfl
  · rw [if_neg (mt hc.mp hp), if_neg hp, BitVec.toNat_add]; rfl

theorem exec_skip {i : Instr} {s : State} {c : Bool} {p : Prop} [Decidable p]
    (hi : exec i s = .next (s.skipIf c)) (hc : c = true ↔ p) :
    ∃ t, exec i s = .next t ∧ t.pc.toNat = (s.pc.toNat + if p then 4 else 2) % 65536 ∧
      KeepsAllBut (fun q => q = .pc) s t :=
  ⟨_, hi, s.skipIf_pc_toNat hc, s.keeps_skipIf c⟩

theorem beq_iff_toNat_eq (a b : Byte) : (a == b) = true ↔ a.toNat = b.toNat :=
  beq_iff_eq.trans BitVec.toNat_inj.symm

theorem bne_iff_toNat_ne (a b : Byte) : (a != b) = true ↔ a.toNat ≠ b.toNat :=
  bne_iff_ne.trans BitVec.toNat_inj.not.symm

/-! ## The statements -/

/-- Settles O27: the two clauses are a push that succeeds and one that finds no free entry. -/
theorem callPushesItsAddress : Obligations.CallPushesItsAddress := by
  intro nnn s
  constructor
  · intro h
    have hpush := State.push_eq_some (w := s.pc).mpr ⟨h, rfl⟩
    refine ⟨_, exec_call_of_push nnn hpush, Vector.getElem_set_self h, rfl, zext16_toNat nnn, ?_⟩
    refine ((State.keeps_push hpush).mono ?_).trans ((State.keeps_setPc _ _).mono fun _ hp => .inr (.inr hp))
    rintro p (⟨_, hp⟩ | hp)
    · exact .inl hp
    · exact .inr (.inl hp)
  · intro h
    have hpush : s.push s.pc = none := State.push_eq_none.mpr (Fin.ext h)
    exact ⟨_, exec_call_of_full nnn hpush, rfl, s.keeps_raise _ _ _⟩

/-- Settles O28: the two clauses are a pop that succeeds and one that finds no entry in use. -/
theorem retReturnsPastTheCall : Obligations.RetReturnsPastTheCall := by
  intro g s
  constructor
  · intro h
    have hpop := State.pop_eq_some.mpr ⟨h, rfl, rfl⟩
    refine ⟨_, exec_ret_of_pop g hpop, rfl, BitVec.toNat_add _ _, ?_⟩
    exact ((State.keeps_pop hpop).mono fun _ => .inl).trans ((State.keeps_setPc _ _).mono fun _ => .inr)
  · intro h
    have hpop : s.pop = none := State.pop_eq_none.mpr (Fin.ext h)
    exact ⟨_, exec_ret_of_empty g hpop, rfl, s.keeps_raise _ _ _⟩

/-- Settles O30: each of the four is a skip on its own condition. -/
theorem skipsTestTheirCondition : Obligations.SkipsTestTheirCondition := fun x y nn g s =>
  ⟨exec_skip (exec_seImm x nn s) (beq_iff_toNat_eq _ _),
   exec_skip (exec_sneImm x nn s) (bne_iff_toNat_ne _ _),
   exec_skip (exec_seReg x y g s) (beq_iff_toNat_eq _ _),
   exec_skip (exec_sneReg x y g s) (bne_iff_toNat_ne _ _)⟩

end Sys2Proof.Machine
end

section
/-! PROOFS. The arithmetic and logic family (41_alu.md): its two shapes, a write of VX alone and a flag and then VX,
the flags and the byte arithmetic as numbers, and the statements about them. -/

namespace Sys2Proof.Machine

/-! ## What each instruction answers -/

theorem exec_ldReg (x y : Reg) (s : State) : exec (.ldReg x y) s = .next (s.setV x (s.v y)).advance := rfl

theorem exec_orReg (x y : Reg) (s : State) : exec (.orReg x y) s = .next (s.setV x (s.v x ||| s.v y)).advance := rfl

theorem exec_andReg (x y : Reg) (s : State) : exec (.andReg x y) s = .next (s.setV x (s.v x &&& s.v y)).advance := rfl

theorem exec_xorReg (x y : Reg) (s : State) : exec (.xorReg x y) s = .next (s.setV x (s.v x ^^^ s.v y)).advance := rfl

theorem exec_ldImm (x : Reg) (nn : Byte) (s : State) : exec (.ldImm x nn) s = .next (s.setV x nn).advance := rfl

theorem exec_addImm (x : Reg) (nn : Byte) (s : State) :
    exec (.addImm x nn) s = .next (s.setV x (s.v x + nn)).advance := rfl

theorem exec_addReg (x y : Reg) (s : State) : exec (.addReg x y) s =
    .next (s.flagThenV x (carryFlag (s.v x) (s.v y)) fun t => t.v x + t.v y).advance := rfl

theorem exec_subReg (x y : Reg) (s : State) : exec (.subReg x y) s =
    .next (s.flagThenV x (noBorrowFlag (s.v x) (s.v y)) fun t => t.v x - t.v y).advance := rfl

theorem exec_subn (x y : Reg) (s : State) : exec (.subn x y) s =
    .next (s.flagThenV x (noBorrowFlag (s.v y) (s.v x)) fun t => t.v y - t.v x).advance := rfl

theorem exec_shr (x y : Reg) (s : State) : exec (.shr x y) s =
    .next (s.flagThenV x (shiftedOutRight (s.v x)) fun t => t.v x >>> 1).advance := rfl

theorem exec_shl (x y : Reg) (s : State) : exec (.shl x y) s =
    .next (s.flagThenV x (shiftedOutLeft (s.v x)) fun t => t.v x <<< 1).advance := rfl

/-! ## A write of VX alone -/

theorem State.v_setV_advance (s : State) (x : Reg) (w : Byte) : (s.setV x w).advance.v x = w := by
  rw [State.advance_v, State.v_setV_same]

theorem State.keeps_setV_advance (s : State) (x : Reg) (w : Byte) :
    KeepsAllBut (fun p => p = .v x ∨ p = .pc) s (s.setV x w).advance :=
  ((s.keeps_setV x w).mono fun _ => .inl).trans ((State.keeps_advance _).mono fun _ => .inr)

/-! ## A flag and then VX -/

theorem State.v_operandState_eq_operandValue (s : State) (flag : Byte) (y : Reg) :
    (s.operandState (s.setV vf flag)).v y = operandValue s.params.vfOrder y (s.v y) flag :=
  s.v_operandState flag y

theorem State.keeps_flagThenV_advance (s : State) (x : Reg) (flag : Byte) (f : State → Byte) :
    KeepsAllBut (fun p => p = .v x ∨ p = .v vf ∨ p = .pc) s (s.flagThenV x flag f).advance := by
  refine ((s.keeps_flagThenV x flag f).mono ?_).trans ((State.keeps_advance _).mono fun _ => .inr ∘ .inr)
  rintro p (hx | hvf)
  · exact .inl hx
  · exact .inr (.inl hvf)

/-- R120: an instruction that writes a flag and then VX, with the flag said as `c` and the result as a number. -/
theorem exec_flagThenV {i : Instr} {s : State} {x : Reg} {flag c : Byte} {f : State → Byte} {n : Nat}
    (hi : exec i s = .next (s.flagThenV x flag f).advance) (hflag : flag = c)
    (hn : (f (s.operandState (s.setV vf c))).toNat = n) :
    ∃ t, exec i s = .next t ∧ (t.v x).toNat = n ∧ (x ≠ vf → t.v vf = c) ∧ t.pc = s.pc + 2 ∧
      KeepsAllBut (fun p => p = .v x ∨ p = .v vf ∨ p = .pc) s t := by
  subst hflag
  refine ⟨_, hi, ?_, fun hx => ?_, rfl, s.keeps_flagThenV_advance x flag f⟩
  · rw [State.advance_v, State.v_flagThenV, if_pos rfl, hn]
  · rw [State.advance_v, State.v_flagThenV, if_neg hx.symm, if_pos rfl]

/-! ## The flags -/

theorem flagByte_decide (p : Prop) [Decidable p] : flagByte (decide p) = if p then 1 else 0 := by
  simp only [flagByte, decide_eq_true_eq]

theorem carryFlag_eq (a b : Byte) : carryFlag a b = if a.toNat + b.toNat > 0xFF then 1 else 0 := flagByte_decide _

theorem noBorrowFlag_eq (a b : Byte) : noBorrowFlag a b = if a.toNat ≥ b.toNat then 1 else 0 := flagByte_decide _

theorem shiftedOutRight_toNat (a : Byte) : (shiftedOutRight a).toNat = a.toNat % 2 :=
  (BitVec.toNat_and _ _).trans (Nat.and_one_is_mod _)

theorem shiftedOutRight_eq (a : Byte) : shiftedOutRight a = if a.toNat % 2 = 1 then 1 else 0 := by
  apply BitVec.eq_of_toNat_eq
  rw [shiftedOutRight_toNat]
  split
  next hbit => exact hbit
  next hbit => exact Nat.mod_two_ne_one.mp hbit

theorem shiftedOutLeft_toNat (a : Byte) : (shiftedOutLeft a).toNat = a.toNat / 0x80 :=
  (BitVec.toNat_ushiftRight _ _).trans (Nat.shiftRight_eq_div_pow _ _)

theorem shiftedOutLeft_eq (a : Byte) : shiftedOutLeft a = if a.toNat ≥ 0x80 then 1 else 0 := by
  have ha : a.toNat < 256 := a.isLt
  apply BitVec.eq_of_toNat_eq
  rw [shiftedOutLeft_toNat]
  split
  next hbit => exact Nat.div_eq_of_lt_le hbit ha
  next hbit => exact Nat.div_eq_of_lt (not_le.mp hbit)

/-! ## Byte arithmetic as numbers -/

theorem byte_sub_toNat (a b : Byte) : (a - b).toNat = (a.toNat + 256 - b.toNat) % 256 := by
  have hb : b.toNat < 256 := b.isLt
  rw [BitVec.toNat_sub]
  omega

theorem byte_shiftLeft_one_toNat (a : Byte) : (a <<< 1).toNat = 2 * a.toNat % 256 := by
  rw [BitVec.toNat_shiftLeft, Nat.shiftLeft_eq, Nat.mul_comm]

/-! ## The statements -/

/-- Settles O33: the carry and then the sum of the operands as VF_ORDER reads them. -/
theorem addSetsCarry : Obligations.AddSetsCarry := by
  intro x y s
  refine exec_flagThenV (exec_addReg x y s) (carryFlag_eq _ _) ?_
  rw [BitVec.toNat_add, State.v_operandState_eq_operandValue, State.v_operandState_eq_operandValue]

/-- Settles O34: the no-borrow and then the difference, VX − VY for SUB and VY − VX for SUBN. -/
theorem subtractionsSetNoBorrow : Obligations.SubtractionsSetNoBorrow := by
  intro x y s
  constructor
  · refine exec_flagThenV (exec_subReg x y s) (noBorrowFlag_eq _ _) ?_
    rw [byte_sub_toNat, State.v_operandState_eq_operandValue, State.v_operandState_eq_operandValue]
  · refine exec_flagThenV (exec_subn x y s) (noBorrowFlag_eq _ _) ?_
    rw [byte_sub_toNat, State.v_operandState_eq_operandValue, State.v_operandState_eq_operandValue]

/-- Settles O35: bit 0 and then half for SHR, bit 7 and then twice for SHL; what is executed does not name Y. -/
theorem shiftsMoveOneBitOut : Obligations.ShiftsMoveOneBitOut := by
  intro x y s
  constructor
  · refine exec_flagThenV (exec_shr x y s) (shiftedOutRight_eq _) ?_
    rw [State.v_operandState_eq_operandValue, BitVec.toNat_ushiftRight, Nat.shiftRight_one]
  · refine exec_flagThenV (exec_shl x y s) (shiftedOutLeft_eq _) ?_
    rw [byte_shiftLeft_one_toNat, State.v_operandState_eq_operandValue]

/-- Settles O31: each of the four is a write of VX alone. -/
theorem movesAndLogic : Obligations.MovesAndLogic := by
  intro x y s
  refine ⟨⟨_, exec_ldReg x y s, s.v_setV_advance x _, rfl, s.keeps_setV_advance x _⟩,
    ⟨_, exec_orReg x y s, fun b => ?_, rfl, s.keeps_setV_advance x _⟩,
    ⟨_, exec_andReg x y s, fun b => ?_, rfl, s.keeps_setV_advance x _⟩,
    ⟨_, exec_xorReg x y s, fun b => ?_, rfl, s.keeps_setV_advance x _⟩⟩
  · rw [State.v_setV_advance, BitVec.getLsbD_or]
  · rw [State.v_setV_advance, BitVec.getLsbD_and]
  · rw [State.v_setV_advance, BitVec.getLsbD_xor]

/-- Settles O32: both are a write of VX alone, and the sum wraps at 256. -/
theorem immediatesWriteNoFlag : Obligations.ImmediatesWriteNoFlag := by
  intro x nn s
  refine ⟨⟨_, exec_ldImm x nn s, s.v_setV_advance x nn, rfl, s.keeps_setV_advance x nn⟩,
    ⟨_, exec_addImm x nn s, ?_, rfl, s.keeps_setV_advance x _⟩⟩
  rw [State.v_setV_advance, BitVec.toNat_add]

end Sys2Proof.Machine
end

section
/-! PROOFS. The graphics family (42_graphics.md): what the common end of the family, `State.drawn`, leaves, and the
statements about CLS and SCD. -/

namespace Sys2Proof.Machine

/-! ## What each instruction answers -/

theorem exec_cls (g : Nibble) (s : State) : exec (.cls g) s = .next (s.drawn []) := rfl

theorem exec_scd (g n : Nibble) (s : State) :
    exec (.scd g n) s = .next (s.drawn (s.fb.scrollDown s.width s.height n.toNat)) := rfl

/-! ## The common end of the family -/

@[simp] theorem State.drawn_fb (s : State) (f : Framebuffer) : (s.drawn f).fb = f := rfl

@[simp] theorem State.drawn_draw (s : State) (f : Framebuffer) : (s.drawn f).draw = true := rfl

@[simp] theorem State.drawn_pc (s : State) (f : Framebuffer) : (s.drawn f).pc = s.pc + 2 := rfl

@[simp] theorem Framebuffer.cell_nil (k : Nat) : Framebuffer.cell [] k = false := rfl

/-- The frame of `State.drawn` when every cell may change. -/
theorem State.keeps_drawn_anyCell (s : State) (f : Framebuffer) :
    KeepsAllBut (fun p => (∃ k, p = .cell k) ∨ p = .draw ∨ p = .pc) s (s.drawn f) := by
  have hframe := s.keeps_drawn (f := f) (c := fun _ => True) fun _ hk => absurd trivial hk
  refine hframe.mono fun p hp => hp.imp_left ?_
  rintro ⟨k, -, hcell⟩
  exact ⟨k, hcell⟩

/-- The frame of `State.drawn` when the cells outside the active region are kept (R147). -/
theorem State.keeps_drawn_region (s : State) {f : Framebuffer}
    (houtside : ∀ k, s.width * s.height ≤ k → f.cell k = s.fb.cell k) :
    KeepsAllBut (fun p => (∃ k, k < s.width * s.height ∧ p = .cell k) ∨ p = .draw ∨ p = .pc) s (s.drawn f) :=
  s.keeps_drawn fun k hk => houtside k (Nat.le_of_not_lt hk)

/-! ## The statements -/

/-- Settles O38: a pixel of the active region is one of the scrolled framebuffer, and the scroll moves no cell
outside the region. -/
theorem scrollDownMovesRows : Obligations.ScrollDownMovesRows := by
  intro g n s
  refine ⟨_, exec_scd g n s, fun x y hx hy => ?_, State.drawn_draw _ _, State.drawn_pc _ _,
    s.keeps_drawn_region fun k hk => s.fb.scrollDown_outside hk n.toNat⟩
  rw [State.drawn_fb, Framebuffer.cell_scrollDown s.fb hx hy]

/-- Settles O37: the framebuffer of the end state is the empty one. -/
theorem clsClearsEveryCell : Obligations.ClsClearsEveryCell := by
  intro g s
  refine ⟨_, exec_cls g s, fun k => ?_, State.drawn_draw _ _, State.drawn_pc _ _, s.keeps_drawn_anyCell _⟩
  rw [State.drawn_fb, Framebuffer.cell_nil]

end Sys2Proof.Machine
end

section
/-! PROOFS. The index and memory family (44_index_memory.md): a transfer of a register range, read through register
names, and its end, and the statements about the block and RPL transfers. -/

namespace Sys2Proof.Machine

/-! ## What each instruction answers -/

theorem exec_ldMemVx (x : Reg) (s : State) : exec (.ldMemVx x) s = .next (s.storeRegs (rangeTo x)).advance := rfl

theorem exec_ldVxMem (x : Reg) (s : State) : exec (.ldVxMem x) s = .next (s.loadRegs (rangeTo x)).advance := rfl

theorem exec_ldRVx (x : Reg) (s : State) : exec (.ldRVx x) s = .next (s.saveRpl (rplRangeTo x)).advance := rfl

theorem exec_ldVxR (x : Reg) (s : State) : exec (.ldVxR x) s = .next (s.restoreRpl (rplRangeTo x)).advance := rfl

/-! ## The registers of a range -/

theorem regOf_reg_toNat (k : Reg) : regOf k.toNat = k :=
  (BitVec.ofNat_toNat 4 k).trans (BitVec.setWidth_eq k)

theorem rplOf_rpl_toNat (k : BitVec 3) : rplOf k.toNat = k :=
  (BitVec.ofNat_toNat 3 k).trans (BitVec.setWidth_eq k)

theorem regOf_rpl_toNat (k : BitVec 3) : regOf k.toNat = k.setWidth 4 := BitVec.ofNat_toNat 4 k

theorem rpl_setWidth_toNat (k : BitVec 3) : (k.setWidth 4).toNat = k.toNat :=
  BitVec.toNat_setWidth_of_le (by decide)

theorem rplRangeTo_lt {x : Reg} {k : Nat} (h : k ∈ rplRangeTo x) : k < 8 :=
  Nat.lt_succ_of_le (mem_rplRangeTo.mp h).2

/-- The clamp leaves every RPL register up to X in the range (R187, R188). -/
theorem rpl_toNat_mem_rplRangeTo {x : Reg} {k : BitVec 3} : k.toNat ∈ rplRangeTo x ↔ k.toNat ≤ x.toNat :=
  mem_rplRangeTo.trans (and_iff_left (Nat.le_of_lt_succ k.isLt))

/-- A stored register reads back at its address (R185). -/
theorem State.memRead_storeRegs (s : State) {ks : List Nat} (hks : ∀ k ∈ ks, k < 16) {y : Reg} (hy : y.toNat ∈ ks) :
    (s.storeRegs ks).memRead (s.i.toNat + y.toNat) = s.v y := by
  have hread := (s.read_storeRegs hks 0).1 y.toNat hy
  rwa [regOf_reg_toNat] at hread

/-! ## The end of a transfer -/

/-- A transfer that keeps the pc, and then the advance: the pc of the end and the frame of both. -/
theorem KeepsAllBut.advance {c d : Part → Prop} {s u : State} (h : KeepsAllBut c s u) (hpc : ¬ c .pc)
    (hcd : ∀ p, c p → d p) :
    u.advance.pc = s.pc + 2 ∧ KeepsAllBut (fun p => d p ∨ p = .pc) s u.advance := by
  have hkept : u.pc = s.pc := h .pc hpc
  refine ⟨by rw [State.advance_pc, hkept], (h.mono fun p hp => .inl (hcd p hp)).trans ?_⟩
  exact u.keeps_advance.mono fun _ => .inr

/-! ## The statements -/

/-- Settles O50: the stored range, read back address by address. -/
theorem storeWritesTheRange : Obligations.StoreWritesTheRange := by
  intro x s
  have hks : ∀ k ∈ rangeTo x, k < 16 := fun _ => rangeTo_lt
  refine ⟨_, exec_ldMemVx x s, fun k hk => ?_, (s.keeps_storeRegs hks).advance ?_ ?_⟩
  · rw [State.advance_memRead, s.memRead_storeRegs hks (mem_rangeTo.mpr hk)]
  · rintro ⟨_, -, ⟨⟩⟩
  · exact fun p ⟨k, hk, hp⟩ => ⟨k, mem_rangeTo.mp hk, hp⟩

/-- Settles O51: the loaded range, register by register. -/
theorem loadReadsTheRange : Obligations.LoadReadsTheRange := by
  intro x s
  have hks : ∀ k ∈ rangeTo x, k < 16 := fun _ => rangeTo_lt
  refine ⟨_, exec_ldVxMem x s, fun k hk => ?_, (s.keeps_loadRegs hks).advance ?_ ?_⟩
  · rw [State.advance_v, s.v_loadRegs hks, if_pos (mem_rangeTo.mpr hk), State.dataRead]
  · rintro ⟨_, -, ⟨⟩⟩
  · exact fun p ⟨y, hy, hp⟩ => ⟨y, mem_rangeTo.mp hy, hp⟩

/-- Settles O53: the clamped range, saved to the bank and restored from it. -/
theorem rplTransfersClamp : Obligations.RplTransfersClamp := by
  intro x s
  have hks : ∀ k ∈ rplRangeTo x, k < 8 := fun _ => rplRangeTo_lt
  constructor
  · refine ⟨_, exec_ldRVx x s, fun k hk => ?_, (s.keeps_saveRpl hks).advance ?_ ?_⟩
    · rw [State.advance_rplAt, s.rplAt_saveRpl hks, if_pos (rpl_toNat_mem_rplRangeTo.mpr hk), regOf_rpl_toNat]
    · rintro ⟨_, -, ⟨⟩⟩
    · exact fun p ⟨j, hj, hp⟩ => ⟨j, rpl_toNat_mem_rplRangeTo.mp hj, hp⟩
  · refine ⟨_, exec_ldVxR x s, fun k hk => ?_, (s.keeps_restoreRpl hks).advance ?_ ?_⟩
    · rw [State.advance_v, s.v_restoreRpl hks, rpl_setWidth_toNat, if_pos (rpl_toNat_mem_rplRangeTo.mpr hk),
        rplOf_rpl_toNat]
    · rintro ⟨_, -, ⟨⟩⟩
    · rintro p ⟨y, hy, hp⟩
      obtain ⟨hyx, hy7⟩ := mem_rplRangeTo.mp hy
      exact ⟨y, hyx, hy7, hp⟩

end Sys2Proof.Machine
end

section
/-! PROOFS. The lifecycle family (70_reset_and_hazards.md): what a load that succeeds leaves, when a reset returns
an error and what it leaves in each case, and the statements about the two transactions. -/

namespace Sys2Proof.Machine

/-! ## A load -/

section
variable {s t : State} {bytes : List Byte} {readable : Bool}

/-- R256: the greatest ROM ends at the last byte of memory. -/
theorem progBase_add_le_memSize {n : Nat} (h : n ≤ 3583) : progBase + n ≤ memSize := by
  unfold progBase memSize
  omega

theorem State.load_eq_error (h : readable = false ∨ 3583 < bytes.length) :
    s.load bytes readable = .error .rejected := if_pos h

theorem State.load_eq_ok : s.load bytes readable = .ok t ↔
    (readable = true ∧ bytes.length ≤ 3583) ∧ t = { s.writeBytes progBase bytes with rom := some bytes } := by
  rcases s.load_cases bytes readable with ⟨hfails, herror⟩ | ⟨hreadable, hlength, hok⟩
  · simp only [herror, reduceCtorEq, false_iff, not_and]
    rintro ⟨hreadable, hlength⟩
    exact absurd hfails (by simp [hreadable, hlength])
  · rw [hok, Except.ok.injEq, and_iff_right ⟨hreadable, hlength⟩]
    exact eq_comm

theorem State.rom_of_load (h : s.load bytes readable = .ok t) : t.rom = some bytes := by
  obtain ⟨-, rfl⟩ := State.load_eq_ok.mp h
  rfl

theorem State.memRead_of_load (h : s.load bytes readable = .ok t) {k : Nat} (hk : k < bytes.length) :
    t.memRead (progBase + k) = bytes.getD k 0 := by
  obtain ⟨⟨-, hlength⟩, rfl⟩ := State.load_eq_ok.mp h
  exact s.memRead_writeBytes progBase bytes (progBase_add_le_memSize hlength) k hk

theorem State.keeps_setRom (s : State) (rom : Option (List Byte)) :
    KeepsAllBut (fun p => p = .rom) s { s with rom := rom } := by
  intro p hp
  cases p
  case rom => exact absurd rfl hp
  all_goals exact rfl

theorem State.keeps_load (h : s.load bytes readable = .ok t) :
    KeepsAllBut (fun p => (∃ k, k < bytes.length ∧ p = .byte (progBase + k)) ∨ p = .rom) s t := by
  obtain ⟨⟨-, hlength⟩, rfl⟩ := State.load_eq_ok.mp h
  have hwrite := s.keeps_writeBytes progBase bytes (progBase_add_le_memSize hlength)
  exact (hwrite.mono fun _ => .inl).trans ((State.keeps_setRom _ _).mono fun _ => .inr)

theorem State.transact_load_of_ok (h : s.load bytes readable = .ok t) : s.transact (.load bytes readable) = t := by
  simp only [State.transact, h]

theorem State.transact_load_of_error {e : LoadError} (h : s.load bytes readable = .error e) :
    s.transact (.load bytes readable) = s := by
  simp only [State.transact, h]

end

/-! ## A reset -/

section
variable {s t : State} {rom : List Byte} {readable : Bool}

theorem State.hostReset_of_no_rom (h : s.rom = none) : s.hostReset readable = (s.reinitialized, some .noRom) := by
  simp only [State.hostReset, h]

theorem State.hostReset_of_load_ok (hrom : s.rom = some rom) (hload : s.reinitialized.load rom readable = .ok t) :
    s.hostReset readable = (t, none) := by
  simp only [State.hostReset, hrom, hload]

theorem State.hostReset_of_load_error {e : LoadError} (hrom : s.rom = some rom)
    (hload : s.reinitialized.load rom readable = .error e) : s.hostReset readable = (s.reinitialized, some e) := by
  simp only [State.hostReset, hrom, hload]

end

/-- What `reset` can do (R253): it finds no remembered ROM, or its reload fails, or its reload succeeds. -/
theorem State.hostReset_cases (s : State) (readable : Bool) :
    (s.rom = none ∧ s.hostReset readable = (s.reinitialized, some .noRom)) ∨
    (∃ rom, s.rom = some rom ∧ (readable = false ∨ 3583 < rom.length) ∧
      s.hostReset readable = (s.reinitialized, some .rejected)) ∨
    (∃ rom t, s.rom = some rom ∧ s.reinitialized.load rom readable = .ok t ∧ s.hostReset readable = (t, none)) := by
  cases hrom : s.rom with
  | none => exact .inl ⟨rfl, State.hostReset_of_no_rom hrom⟩
  | some rom =>
    rcases s.reinitialized.load_cases rom readable with ⟨hfails, hload⟩ | ⟨-, -, hload⟩
    · exact .inr (.inl ⟨rom, rfl, hfails, State.hostReset_of_load_error hrom hload⟩)
    · exact .inr (.inr ⟨rom, _, rfl, hload, State.hostReset_of_load_ok hrom hload⟩)

section
variable {s : State} {readable : Bool}

theorem State.hostReset_of_failure (h : (s.hostReset readable).2 ≠ none) :
    (s.hostReset readable).1 = s.reinitialized := by
  rcases s.hostReset_cases readable with ⟨-, hreset⟩ | ⟨_, -, -, hreset⟩ | ⟨_, _, -, -, hreset⟩
  · rw [hreset]
  · rw [hreset]
  · exact absurd (by rw [hreset]) h

theorem State.hostReset_of_success (h : (s.hostReset readable).2 = none) :
    ∃ rom, s.rom = some rom ∧ s.reinitialized.load rom readable = .ok (s.hostReset readable).1 := by
  rcases s.hostReset_cases readable with ⟨-, hreset⟩ | ⟨_, -, -, hreset⟩ | ⟨rom, t, hrom, hload, hreset⟩
  · rw [hreset] at h; cases h
  · rw [hreset] at h; cases h
  · exact ⟨rom, hrom, by rw [hreset, hload]⟩

/-- R253: a reset succeeds exactly when the load of its remembered ROM does. -/
theorem State.hostReset_succeeds_iff : (s.hostReset readable).2 = none ↔
    readable = true ∧ ∃ rom, s.rom = some rom ∧ rom.length ≤ 3583 := by
  constructor
  · intro h
    obtain ⟨rom, hrom, hload⟩ := State.hostReset_of_success h
    obtain ⟨⟨hreadable, hlength⟩, -⟩ := State.load_eq_ok.mp hload
    exact ⟨hreadable, rom, hrom, hlength⟩
  · rintro ⟨hreadable, rom, hrom, hlength⟩
    have hload := State.load_eq_ok (s := s.reinitialized).mpr ⟨⟨hreadable, hlength⟩, rfl⟩
    rw [State.hostReset_of_load_ok hrom hload]

end

/-- The reload of a reset changes memory and the remembered ROM alone. -/
theorem State.keeps_hostReset (s : State) (readable : Bool) :
    KeepsAllBut (fun p => (∃ a, p = .byte a) ∨ p = .rom) s.reinitialized (s.hostReset readable).1 := by
  by_cases h : (s.hostReset readable).2 = none
  · obtain ⟨_, -, hload⟩ := State.hostReset_of_success h
    refine (State.keeps_load hload).mono fun p hp => hp.imp_left ?_
    rintro ⟨k, -, hbyte⟩
    exact ⟨_, hbyte⟩
  · rw [State.hostReset_of_failure h]
    exact .refl _ _

theorem State.debug_hostReset (s : State) (readable : Bool) : (s.hostReset readable).1.debug = s.debug :=
  s.keeps_hostReset readable .debug (by simp)

theorem State.rplAt_hostReset (s : State) (readable : Bool) (k : BitVec 3) :
    (s.hostReset readable).1.rplAt k = s.reinitialized.rplAt k :=
  s.keeps_hostReset readable (.rpl k) (by simp)

/-- A reset that succeeds, against the initialized state (R253). -/
theorem State.keeps_hostReset_of_load {s t : State} {rom : List Byte} {readable : Bool}
    (h : s.reinitialized.load rom readable = .ok t) :
    KeepsAllBut (fun p => p = .debug ∨ (∃ k, p = .rpl k) ∨ p = .rom ∨
      ∃ k, k < rom.length ∧ p = .byte (progBase + k)) s.initialized t :=
  (s.keeps_reinitialized.mono fun _ hp => hp.imp_right .inl).trans
    ((State.keeps_load h).mono fun _ hp => .inr (.inr hp.symm))

/-! ## The statements -/

/-- Settles O58: the two clauses are a load that fails and one that succeeds. -/
theorem loadCopiesOrFails : Obligations.LoadCopiesOrFails := by
  intro s bytes readable
  constructor
  · intro h
    have hload := State.load_eq_error (s := s) h
    exact ⟨hload, State.transact_load_of_error hload⟩
  · intro hreadable hlength
    have hload := State.load_eq_ok (s := s).mpr ⟨⟨hreadable, hlength⟩, rfl⟩
    exact ⟨_, hload, State.transact_load_of_ok hload, State.rom_of_load hload,
      fun _ => State.memRead_of_load hload, State.keeps_load hload⟩

/-- Settles O59: what reset leaves is what it reinitialized, under the reload where that succeeds. -/
theorem resetReloadsTheRom : Obligations.ResetReloadsTheRom := by
  intro s readable
  refine ⟨State.hostReset_succeeds_iff, fun hrom => ?_, s.debug_hostReset readable, fun k => ?_, fun hfails => ?_,
    fun rom hsucceeds hrom => ?_⟩
  · rw [State.hostReset_of_no_rom hrom]
  · exact (s.rplAt_hostReset readable k).trans (s.rplAt_reinitialized k)
  · rw [State.hostReset_of_failure hfails]
    exact s.keeps_reinitialized
  · obtain ⟨rom', hrom', hload⟩ := State.hostReset_of_success hsucceeds
    obtain rfl : rom' = rom := Option.some.inj (hrom'.symm.trans hrom)
    exact ⟨State.rom_of_load hload, fun _ => State.memRead_of_load hload, State.keeps_hostReset_of_load hload⟩

end Sys2Proof.Machine
end

section
/-! PROOFS. The encoding (30_encoding.md): the words of each group of the decoder that are unknown, the instruction
and its word as inverses, and the statements about the words of each kind. -/

namespace Sys2Proof

/-! ## Fields of a word put together, where the low byte and the nibbles meet -/

@[simp] theorem lowByte_wordHXYN_eq_iff (h x y n : Nibble) (c : Byte) :
    lowByte (wordHXYN h x y n) = c ↔ y = c.extractLsb' 4 4 ∧ n = c.extractLsb' 0 4 := by
  rw [← BitVec.toNat_inj, ← BitVec.toNat_inj, ← BitVec.toNat_inj, lowByte_wordHXYN]
  simp only [BitVec.extractLsb'_toNat, Nat.shiftRight_eq_div_pow]
  omega

@[simp] theorem nibY_wordHXNN_eq (h x : Nibble) (nn : Byte) : nibY (wordHXNN h x nn) = nn.extractLsb' 4 4 := by
  apply BitVec.eq_of_toNat_eq
  rw [nibY_wordHXNN, BitVec.extractLsb'_toNat, Nat.shiftRight_eq_div_pow]
  omega

theorem wordHXYN_of_fields {op : Word} {h y n : Nibble} (hh : nibH op = h) (hy : nibY op = y) (hn : nibN op = n) :
    wordHXYN h (nibX op) y n = op := by
  subst hh hy hn
  exact wordHXYN_fields op

theorem wordHXNN_of_fields {op : Word} {h : Nibble} {nn : Byte} (hh : nibH op = h) (hlow : lowByte op = nn) :
    wordHXNN h (nibX op) nn = op := by
  subst hh hlow
  exact wordHXNN_fields op

theorem wordHNNN_of_fields {op : Word} {h : Nibble} (hh : nibH op = h) : wordHNNN h (lowAddr op) = op := by
  subst hh
  exact wordHNNN_fields op

/-! ## The groups that a second field decides -/

section
variable {op : Word}

theorem decode_group0 (h : nibH op = 0x0) : decode op = decodeGroup0 op := by simp only [decode, h, if_true]

theorem decode_group8 (h : nibH op = 0x8) : decode op = decodeGroup8 op := by simp [decode, h]

theorem decode_groupE (h : nibH op = 0xE) : decode op = decodeGroupE op := by simp [decode, h]

theorem decode_groupF (h : nibH op = 0xF) : decode op = decodeGroupF op := by simp [decode, h]

/-! ## The unknown words of a group are decoded as unknown -/

theorem decodeGroup0_of_unknown (hE0 : op.toNat % 256 ≠ 0xE0) (hEE : op.toNat % 256 ≠ 0xEE)
    (hC : op.toNat / 16 % 16 ≠ 0xC) (hFB : op.toNat % 256 < 0xFB) : decodeGroup0 op = .unknown op := by
  have hhigh : ∀ c, 0xFB ≤ c → op.toNat % 256 ≠ c := fun c hc => by omega
  simp [decodeGroup0, lowByte_eq_iff, nibY_eq_iff, hE0, hEE, hC, hhigh]

theorem decodeGroup8_of_unknown (h : (0x8 ≤ op.toNat % 16 ∧ op.toNat % 16 ≤ 0xD) ∨ op.toNat % 16 = 0xF) :
    decodeGroup8 op = .unknown op := by
  have hlow : ∀ c, c < 0x8 → op.toNat % 16 ≠ c := fun c hc => by omega
  have hE : op.toNat % 16 ≠ 0xE := by omega
  simp [decodeGroup8, nibN_eq_iff, hlow, hE]

theorem decodeGroupE_of_unknown (h9 : op.toNat / 16 % 16 ≠ 0x9) (hA : op.toNat / 16 % 16 ≠ 0xA) :
    decodeGroupE op = .unknown op := by
  simp [decodeGroupE, nibY_eq_iff, h9, hA]

theorem decodeGroupF_of_unknown (hlow : op.toNat % 256 ∉ groupFLowBytes) (h0 : op.toNat % 256 ≠ 0x00)
    (hF : op.toNat / 16 % 16 ≠ 0xF) : decodeGroupF op = .unknown op := by
  simp only [groupFLowBytes, List.mem_cons, List.not_mem_nil, or_false, not_or] at hlow
  simp [decodeGroupF, lowByte_eq_iff, nibY_eq_iff, hlow, h0, hF]

theorem unknownWord_iff : unknownWord op = true ↔
    (op.toNat / 4096 = 0x0 ∧ op.toNat % 256 ≠ 0xE0 ∧ op.toNat % 256 ≠ 0xEE ∧ op.toNat / 16 % 16 ≠ 0xC ∧
      op.toNat % 256 < 0xFB) ∨
    (op.toNat / 4096 = 0x8 ∧ ((0x8 ≤ op.toNat % 16 ∧ op.toNat % 16 ≤ 0xD) ∨ op.toNat % 16 = 0xF)) ∨
    (op.toNat / 4096 = 0xE ∧ op.toNat / 16 % 16 ≠ 0x9 ∧ op.toNat / 16 % 16 ≠ 0xA) ∨
    (op.toNat / 4096 = 0xF ∧ op.toNat % 256 ∉ groupFLowBytes ∧ op.toNat % 256 ≠ 0x00 ∧
      op.toNat / 16 % 16 ≠ 0xF) := by
  have hy : op.toNat % 256 / 16 = op.toNat / 16 % 16 := by omega
  simp [unknownWord, hy, or_assoc, and_assoc]

/-- R89: every word of the list is decoded as unknown. -/
theorem decode_of_unknownWord (h : unknownWord op = true) : decode op = .unknown op := by
  rcases unknownWord_iff.mp h with ⟨hh, hE0, hEE, hC, hFB⟩ | ⟨hh, hn⟩ | ⟨hh, h9, hA⟩ | ⟨hh, hlow, h0, hF⟩
  · rw [decode_group0 ((nibH_eq_iff op _).mpr hh), decodeGroup0_of_unknown hE0 hEE hC hFB]
  · rw [decode_group8 ((nibH_eq_iff op _).mpr hh), decodeGroup8_of_unknown hn]
  · rw [decode_groupE ((nibH_eq_iff op _).mpr hh), decodeGroupE_of_unknown h9 hA]
  · rw [decode_groupF ((nibH_eq_iff op _).mpr hh), decodeGroupF_of_unknown hlow h0 hF]

end

/-! ## Decoding what was encoded -/

/-- The fields that decode examines are those that encode wrote, in the group of the instruction (R92, R93). -/
theorem decode_encode {i : Instr} (h : i.wf = true) : decode (encode i) = i := by
  cases i
  case unknown op => exact decode_of_unknownWord h
  case cls | ret | scd | scr | scl | exit | low | high =>
    rw [decode_group0 (by simp [encode])]
    simp [encode, decodeGroup0]
  case ldReg | orReg | andReg | xorReg | addReg | subReg | shr | subn | shl =>
    rw [decode_group8 (by simp [encode])]
    simp [encode, decodeGroup8]
  case skp | sknp =>
    rw [decode_groupE (by simp [encode])]
    simp [encode, decodeGroupE]
  case ldVxDt | ldVxK | ldDtVx | ldStVx | addIVx | ldFVx | ldHfVx | ldBVx | ldMemVx | ldVxMem | ldRVx | ldVxR |
      unmodelledFx00 | unmodelledFxFn =>
    rw [decode_groupF (by simp [encode])]
    simp [encode, decodeGroupF]
  all_goals simp [encode, decode]

/-! ## Encoding what was decoded -/

/-- The instruction is a well-formed reading of the word, whose encoding is the word (R88). -/
def Reads (op : Word) (i : Instr) : Prop := i.wf = true ∧ encode i = op

section
variable {op : Word}

theorem Reads.ite {c : Prop} [Decidable c] {i j : Instr} (hi : c → Reads op i) (hj : ¬ c → Reads op j) :
    Reads op (if c then i else j) := by
  split
  next hc => exact hi hc
  next hc => exact hj hc

theorem Reads.unknown (h : unknownWord op = true) : Reads op (.unknown op) := ⟨h, rfl⟩

theorem decodeGroup0_reads (hh : nibH op = 0x0) : Reads op (decodeGroup0 op) := by
  refine .ite (fun h => ⟨rfl, wordHXNN_of_fields hh h⟩) fun hE0 => ?_
  refine .ite (fun h => ⟨rfl, wordHXNN_of_fields hh h⟩) fun hEE => ?_
  refine .ite (fun h => ⟨rfl, wordHXYN_of_fields hh h rfl⟩) fun hC => ?_
  refine .ite (fun h => ⟨rfl, wordHXNN_of_fields hh h⟩) fun hFB => ?_
  refine .ite (fun h => ⟨rfl, wordHXNN_of_fields hh h⟩) fun hFC => ?_
  refine .ite (fun h => ⟨rfl, wordHXNN_of_fields hh h⟩) fun hFD => ?_
  refine .ite (fun h => ⟨rfl, wordHXNN_of_fields hh h⟩) fun hFE => ?_
  refine .ite (fun h => ⟨rfl, wordHXNN_of_fields hh h⟩) fun hFF => .unknown (unknownWord_iff.mpr ?_)
  rw [lowByte_eq_iff] at hE0 hEE hFB hFC hFD hFE hFF
  rw [nibY_eq_iff] at hC
  have hlt : op.toNat % 256 < 0xFB := by grind
  exact .inl ⟨(nibH_eq_iff op _).mp hh, hE0, hEE, hC, hlt⟩

theorem decodeGroup8_reads (hh : nibH op = 0x8) : Reads op (decodeGroup8 op) := by
  refine .ite (fun h => ⟨rfl, wordHXYN_of_fields hh rfl h⟩) fun h0 => ?_
  refine .ite (fun h => ⟨rfl, wordHXYN_of_fields hh rfl h⟩) fun h1 => ?_
  refine .ite (fun h => ⟨rfl, wordHXYN_of_fields hh rfl h⟩) fun h2 => ?_
  refine .ite (fun h => ⟨rfl, wordHXYN_of_fields hh rfl h⟩) fun h3 => ?_
  refine .ite (fun h => ⟨rfl, wordHXYN_of_fields hh rfl h⟩) fun h4 => ?_
  refine .ite (fun h => ⟨rfl, wordHXYN_of_fields hh rfl h⟩) fun h5 => ?_
  refine .ite (fun h => ⟨rfl, wordHXYN_of_fields hh rfl h⟩) fun h6 => ?_
  refine .ite (fun h => ⟨rfl, wordHXYN_of_fields hh rfl h⟩) fun h7 => ?_
  refine .ite (fun h => ⟨rfl, wordHXYN_of_fields hh rfl h⟩) fun hE => .unknown (unknownWord_iff.mpr ?_)
  rw [nibN_eq_iff] at h0 h1 h2 h3 h4 h5 h6 h7 hE
  have hn : (0x8 ≤ op.toNat % 16 ∧ op.toNat % 16 ≤ 0xD) ∨ op.toNat % 16 = 0xF := by grind
  exact .inr (.inl ⟨(nibH_eq_iff op _).mp hh, hn⟩)

theorem decodeGroupE_reads (hh : nibH op = 0xE) : Reads op (decodeGroupE op) := by
  refine .ite (fun h => ⟨rfl, wordHXYN_of_fields hh h rfl⟩) fun h9 => ?_
  refine .ite (fun h => ⟨rfl, wordHXYN_of_fields hh h rfl⟩) fun hA => .unknown (unknownWord_iff.mpr ?_)
  rw [nibY_eq_iff] at h9 hA
  exact .inr (.inr (.inl ⟨(nibH_eq_iff op _).mp hh, h9, hA⟩))

theorem decodeGroupF_reads (hh : nibH op = 0xF) : Reads op (decodeGroupF op) := by
  refine .ite (fun h => ⟨rfl, wordHXNN_of_fields hh h⟩) fun h07 => ?_
  refine .ite (fun h => ⟨rfl, wordHXNN_of_fields hh h⟩) fun h0A => ?_
  refine .ite (fun h => ⟨rfl, wordHXNN_of_fields hh h⟩) fun h15 => ?_
  refine .ite (fun h => ⟨rfl, wordHXNN_of_fields hh h⟩) fun h18 => ?_
  refine .ite (fun h => ⟨rfl, wordHXNN_of_fields hh h⟩) fun h1E => ?_
  refine .ite (fun h => ⟨rfl, wordHXNN_of_fields hh h⟩) fun h29 => ?_
  refine .ite (fun h => ⟨rfl, wordHXNN_of_fields hh h⟩) fun h30 => ?_
  refine .ite (fun h => ⟨rfl, wordHXNN_of_fields hh h⟩) fun h33 => ?_
  refine .ite (fun h => ⟨rfl, wordHXNN_of_fields hh h⟩) fun h55 => ?_
  refine .ite (fun h => ⟨rfl, wordHXNN_of_fields hh h⟩) fun h65 => ?_
  refine .ite (fun h => ⟨rfl, wordHXNN_of_fields hh h⟩) fun h75 => ?_
  refine .ite (fun h => ⟨rfl, wordHXNN_of_fields hh h⟩) fun h85 => ?_
  refine .ite (fun h => ⟨rfl, wordHXNN_of_fields hh h⟩) fun h00 => ?_
  refine .ite (fun h => ⟨rfl, wordHXYN_of_fields hh h rfl⟩) fun hF => .unknown (unknownWord_iff.mpr ?_)
  rw [lowByte_eq_iff] at h07 h0A h15 h18 h1E h29 h30 h33 h55 h65 h75 h85 h00
  rw [nibY_eq_iff] at hF
  have hlow : op.toNat % 256 ∉ groupFLowBytes := by
    simp only [groupFLowBytes, List.mem_cons, List.not_mem_nil, or_false, not_or]
    exact ⟨h07, h0A, h15, h18, h1E, h29, h30, h33, h55, h65, h75, h85⟩
  exact .inr (.inr (.inr ⟨(nibH_eq_iff op _).mp hh, hlow, h00, hF⟩))

/-- R88, R92: the decoder reads every word. -/
theorem decode_reads (op : Word) : Reads op (decode op) := by
  refine .ite decodeGroup0_reads fun h0 => ?_
  refine .ite (fun h => ⟨rfl, wordHNNN_of_fields h⟩) fun h1 => ?_
  refine .ite (fun h => ⟨rfl, wordHNNN_of_fields h⟩) fun h2 => ?_
  refine .ite (fun h => ⟨rfl, wordHXNN_of_fields h rfl⟩) fun h3 => ?_
  refine .ite (fun h => ⟨rfl, wordHXNN_of_fields h rfl⟩) fun h4 => ?_
  refine .ite (fun h => ⟨rfl, wordHXYN_of_fields h rfl rfl⟩) fun h5 => ?_
  refine .ite (fun h => ⟨rfl, wordHXNN_of_fields h rfl⟩) fun h6 => ?_
  refine .ite (fun h => ⟨rfl, wordHXNN_of_fields h rfl⟩) fun h7 => ?_
  refine .ite decodeGroup8_reads fun h8 => ?_
  refine .ite (fun h => ⟨rfl, wordHXYN_of_fields h rfl rfl⟩) fun h9 => ?_
  refine .ite (fun h => ⟨rfl, wordHNNN_of_fields h⟩) fun hA => ?_
  refine .ite (fun h => ⟨rfl, wordHNNN_of_fields h⟩) fun hB => ?_
  refine .ite (fun h => ⟨rfl, wordHXNN_of_fields h rfl⟩) fun hC => ?_
  refine .ite (fun h => ⟨rfl, wordHXYN_of_fields h rfl rfl⟩) fun hD => ?_
  refine .ite decodeGroupE_reads fun hE => decodeGroupF_reads ?_
  bv_omega

theorem encode_decode (op : Word) : encode (decode op) = op := (decode_reads op).2

end

/-! ## The refused words -/

/-- R90: the two refused forms. -/
def Instr.refused (i : Instr) : Prop := (∃ x, i = .unmodelledFx00 x) ∨ ∃ x n, i = .unmodelledFxFn x n

theorem refusedWord_iff {op : Word} : refusedWord op = true ↔
    nibH op = 0xF ∧ (lowByte op = 0x00 ∨ nibY op = 0xF) := by
  simp [refusedWord, nibH_eq_iff, lowByte_eq_iff, nibY_eq_iff]

theorem decode_refused_iff {op : Word} : (decode op).refused ↔ refusedWord op = true := by
  rw [refusedWord_iff]
  constructor
  · rintro (⟨x, hx⟩ | ⟨x, n, hx⟩) <;> rw [← encode_decode op, hx] <;> simp [encode]
  · rintro ⟨hh, hlow | hy⟩
    · rw [← wordHXNN_of_fields hh hlow]
      exact .inl ⟨_, decode_encode (i := .unmodelledFx00 (nibX op)) rfl⟩
    · rw [← wordHXYN_of_fields hh hy rfl]
      exact .inr ⟨_, _, decode_encode (i := .unmodelledFxFn (nibX op) (nibN op)) rfl⟩

/-! ## The decoder under STRICT_DECODE -/

/-- 93 Part 1: the reading of a word, or an unknown word where the reading is a non-canonical spelling. -/
def strictly (op : Word) (i : Instr) : Instr := if i.canonical then i else .unknown op

theorem decodeWith_strict {p : Params} (h : p.strictDecode = true) (op : Word) :
    decodeWith p op = strictly op (decode op) := by
  cases hc : (decode op).canonical <;> simp [decodeWith, strictly, h, hc]

theorem strictly_of_canonical {i : Instr} (h : i.canonical = true) (op : Word) : strictly op i = i := if_pos h

theorem strictly_decodeGroup0 (op : Word) :
    strictly op (decodeGroup0 op) = if nibX op ≠ 0x0 then .unknown op else decodeGroup0 op := by
  simp only [decodeGroup0, apply_ite (strictly op)]
  by_cases hx : nibX op = 0#4 <;> simp [strictly, Instr.canonical, hx]

theorem strictly_decodeGroupE (op : Word) : strictly op (decodeGroupE op) =
    if (nibY op = 0x9 ∧ nibN op ≠ 0xE) ∨ (nibY op = 0xA ∧ nibN op ≠ 0x1) then .unknown op else decodeGroupE op := by
  simp only [decodeGroupE, apply_ite (strictly op)]
  by_cases h9 : nibY op = 0x9#4
  · simp [strictly, Instr.canonical, h9]
  · by_cases hA : nibY op = 0xA#4 <;> simp [strictly, Instr.canonical, h9, hA]

theorem decodeGroup8_canonical (op : Word) : (decodeGroup8 op).canonical = true := by
  simp only [decodeGroup8, apply_ite Instr.canonical]
  simp [Instr.canonical]

theorem decodeGroupF_canonical (op : Word) : (decodeGroupF op).canonical = true := by
  simp only [decodeGroupF, apply_ite Instr.canonical]
  simp [Instr.canonical]

/-- 93 Part 1: the four groups of words that STRICT_DECODE makes unknown. -/
theorem strictly_decode (op : Word) : strictly op (decode op) =
    if (nibH op = 0x0 ∧ nibX op ≠ 0x0) ∨ ((nibH op = 0x5 ∨ nibH op = 0x9) ∧ nibN op ≠ 0x0) ∨
        (nibH op = 0xE ∧ nibY op = 0x9 ∧ nibN op ≠ 0xE) ∨ (nibH op = 0xE ∧ nibY op = 0xA ∧ nibN op ≠ 0x1)
    then .unknown op else decode op := by
  by_cases h0 : nibH op = 0x0
  · simp [decode_group0 h0, strictly_decodeGroup0, h0]
  by_cases hE : nibH op = 0xE
  · simp [decode_groupE hE, strictly_decodeGroupE, hE]
  by_cases h5 : nibH op = 0x5
  · simp [decode, strictly, Instr.canonical, h5]
  by_cases h9 : nibH op = 0x9
  · simp [decode, strictly, Instr.canonical, h9]
  have hcanonical : (decode op).canonical = true := by
    simp only [decode, h0, h5, h9, hE, if_false, apply_ite Instr.canonical, decodeGroup8_canonical,
      decodeGroupF_canonical]
    simp [Instr.canonical]
  rw [strictly_of_canonical hcanonical, if_neg (by simp only [h0, h5, h9, hE, false_and, or_self, not_false_iff])]

/-! ## The statements -/

/-- Settles O2: each field of the encoded word is the operand it was written from. -/
theorem decodeOfEncode : Obligations.DecodeOfEncode := fun _ => decode_encode

/-- Settles O3: each route through the decoder reads the word. -/
theorem encodeOfDecode : Obligations.EncodeOfDecode := decode_reads

/-- Settles O4: a word decodes as unknown only where that reading is well formed, and the refused words are the
encodings of the refused forms. -/
theorem unknownAndRefusedWords : Obligations.UnknownAndRefusedWords := by
  refine fun op => ⟨⟨fun h => ?_, decode_of_unknownWord⟩, decode_refused_iff⟩
  obtain ⟨hwf, -⟩ := decode_reads op
  rwa [h] at hwf

/-- Settles O5: the fields of the word as numbers. -/
theorem strictDecodeWords : Obligations.StrictDecodeWords := by
  intro p op hp
  rw [decodeWith_strict hp, strictly_decode]
  simp only [nibH_eq_iff, nibX_eq_iff, nibY_eq_iff, nibN_eq_iff, ne_eq]
  rfl

/-- Settles O1: twelve words, each decoded. -/
theorem specWordsDecode : Obligations.SpecWordsDecode := by
  unfold Obligations.SpecWordsDecode
  decide

end Sys2Proof
end

section
/-! PROOFS. The remaining statements about single instructions of the control flow, arithmetic and graphics families
(40_control_flow.md, 41_alu.md §4, 42_graphics.md). -/

namespace Sys2Proof.Machine

/-- One instruction answers one outcome: two next states of it are the same. -/
theorem exec_next_unique {i : Instr} {s t u : State} (ht : exec i s = .next t) (hu : exec i s = .next u) : t = u := by
  injection ht.symm.trans hu

/-! ## Jumps and calls -/

theorem exec_jp (nnn : Addr) (s : State) : exec (.jp nnn) s = .next (s.setPc (zext16 nnn)) := rfl

theorem exec_jpV0 (nnn : Addr) (s : State) :
    exec (.jpV0 nnn) s = .next (s.setPc (zext16 nnn + (s.v 0).setWidth 16)) := rfl

/-- R107: the greatest sum is 0x10FE, so it does not wrap. -/
theorem jpV0_target_toNat (nnn : Addr) (b : Byte) : (zext16 nnn + b.setWidth 16).toNat = nnn.toNat + b.toNat := by
  have hn : nnn.toNat < 4096 := nnn.isLt
  have hb : b.toNat < 256 := b.isLt
  rw [BitVec.toNat_add, zext16_toNat, BitVec.toNat_setWidth_of_le (by decide)]
  omega

/-- Settles O26: each is a write of pc alone. -/
theorem jumpsSetPc : Obligations.JumpsSetPc := fun nnn s =>
  ⟨⟨_, exec_jp nnn s, zext16_toNat nnn, s.keeps_setPc _⟩,
   ⟨_, exec_jpV0 nnn s, jpV0_target_toNat nnn _, s.keeps_setPc _⟩⟩

/-- Settles O29: the entry that the RET pops is the one that the CALL pushed. -/
theorem callThenRet : Obligations.CallThenRet := by
  intro nnn g s t u hfree hcall hstack hsp
  obtain ⟨t', hcall', hpushed, hcount, -⟩ := (callPushesItsAddress nnn s).1 hfree
  obtain rfl := exec_next_unique hcall' hcall
  rw [← hsp] at hcount
  obtain ⟨w, hret, hwsp, hwpc, -⟩ := (retReturnsPastTheCall g u).1 (by omega)
  have hpopped : u.stack[u.sp.val - 1] = s.pc := by simp only [hstack, hcount, Nat.add_sub_cancel, hpushed]
  refine ⟨w, hret, BitVec.eq_of_toNat_eq ?_, Fin.ext (by omega)⟩
  rw [hwpc, hpopped, BitVec.toNat_add]
  rfl

/-! ## The random byte -/

theorem exec_rnd (x : Reg) (nn : Byte) (s : State) :
    exec (.rnd x nn) s = .next (s.countDraw.setV x (Config.randomByte s.draws &&& nn)).advance := rfl

theorem State.keeps_countDraw_setV_advance (s : State) (x : Reg) (w : Byte) :
    KeepsAllBut (fun p => p = .v x ∨ p = .draws ∨ p = .pc) s (s.countDraw.setV x w).advance :=
  (s.keeps_countDraw.mono fun _ hp => .inr (.inl hp)).trans
    ((s.countDraw.keeps_setV_advance x w).mono fun _ hp => hp.imp_right .inr)

/-- Settles O36: the byte is the one at the counter of draws, before X and NN are read. -/
theorem rndMasksOneDraw : Obligations.RndMasksOneDraw := fun s =>
  ⟨Config.randomByte s.draws, fun x nn => ⟨_, exec_rnd x nn s, s.countDraw.v_setV_advance x _, rfl, rfl,
    s.keeps_countDraw_setV_advance x _⟩⟩

/-! ## Side scrolls and modes -/

theorem exec_scr (g : Nibble) (s : State) :
    exec (.scr g) s = .next (s.drawn (s.fb.scrollRight s.width s.height s.params.scrollH)) := rfl

theorem exec_scl (g : Nibble) (s : State) :
    exec (.scl g) s = .next (s.drawn (s.fb.scrollLeft s.width s.height s.params.scrollH)) := rfl

theorem exec_low (g : Nibble) (s : State) : exec (.low g) s = .next ((s.setExtended false).markDraw).advance := rfl

theorem exec_high (g : Nibble) (s : State) : exec (.high g) s = .next ((s.setExtended true).markDraw).advance := rfl

theorem State.keeps_setExtended_markDraw_advance (s : State) (b : Bool) :
    KeepsAllBut (fun p => p = .extended ∨ p = .draw ∨ p = .pc) s ((s.setExtended b).markDraw).advance :=
  (((s.keeps_setExtended b).mono fun _ => .inl).trans
    ((State.keeps_markDraw _).mono fun _ hp => .inr (.inl hp))).trans
      ((State.keeps_advance _).mono fun _ hp => .inr (.inr hp))

/-- Settles O39: a pixel of the active region is one of the scrolled framebuffer, and no scroll moves a cell outside
the region. -/
theorem sideScrollsMoveColumns : Obligations.SideScrollsMoveColumns := by
  intro g s
  constructor
  · refine ⟨_, exec_scr g s, fun x y hx hy => ?_, State.drawn_draw _ _, State.drawn_pc _ _,
      s.keeps_drawn_region fun k hk => s.fb.scrollRight_outside hk _⟩
    rw [State.drawn_fb, Framebuffer.cell_scrollRight s.fb hx hy]
  · refine ⟨_, exec_scl g s, fun x y hx hy => ?_, State.drawn_draw _ _, State.drawn_pc _ _,
      s.keeps_drawn_region fun k hk => s.fb.scrollLeft_outside hk _⟩
    rw [State.drawn_fb, Framebuffer.cell_scrollLeft s.fb hx hy]

/-- Settles O40: each writes the mode, and the framebuffer is not among what it writes. -/
theorem modeSwitchesKeepCells : Obligations.ModeSwitchesKeepCells := fun g s =>
  ⟨⟨_, exec_low g s, rfl, rfl, rfl, rfl, rfl, s.keeps_setExtended_markDraw_advance false⟩,
   ⟨_, exec_high g s, rfl, rfl, rfl, rfl, rfl, s.keeps_setExtended_markDraw_advance true⟩⟩

/-! ## Sprites -/

/-- The cells that DXYN toggles (R140). -/
def State.drawCells (s : State) (x y : Reg) (n : Nibble) : List Nat := s.spriteCells (s.v x) (s.v y) n

/-- The framebuffer and the collision that DXYN leaves (R140). -/
def State.drawSprite (s : State) (x y : Reg) (n : Nibble) : Framebuffer × Bool := s.fb.toggleAll (s.drawCells x y n)

theorem exec_drw (x y : Reg) (n : Nibble) (s : State) : exec (.drw x y n) s =
    .next ((s.setV vf (flagByte (s.drawSprite x y n).2)).drawn (s.drawSprite x y n).1) := rfl

theorem State.cell_drawSprite (s : State) (x y : Reg) (n : Nibble) (k : Nat) :
    (s.drawSprite x y n).1.cell k = if k ∈ s.drawCells x y n then !s.fb.cell k else s.fb.cell k :=
  Framebuffer.cell_toggleAll (s.nodup_spriteCells _ _ n) s.fb k

theorem State.hit_drawSprite (s : State) (x y : Reg) (n : Nibble) :
    (s.drawSprite x y n).2 = true ↔ ∃ k ∈ s.drawCells x y n, s.fb.cell k = true := by
  rw [State.drawSprite, Framebuffer.hit_toggleAll (ks := s.drawCells x y n) (s.nodup_spriteCells _ _ n),
    List.any_eq_true]

theorem State.v_setV_drawn (s : State) (x : Reg) (w : Byte) (f : Framebuffer) : ((s.setV x w).drawn f).v x = w :=
  s.v_setV_same x w

theorem State.v_setV_drawn_other (s : State) {x y : Reg} (h : y ≠ x) (w : Byte) (f : Framebuffer) :
    ((s.setV x w).drawn f).v y = s.v y := s.v_setV_other h w

@[simp] theorem flagByte_eq_one {b : Bool} : flagByte b = 1 ↔ b = true := by cases b <;> decide

theorem flagByte_eq_one_or_zero (b : Bool) : flagByte b = 1 ∨ flagByte b = 0 := by cases b <;> simp [flagByte]

/-- R147: a sprite toggles no cell outside the active region. -/
theorem State.drawSprite_outside (s : State) (x y : Reg) (n : Nibble) {k : Nat} (hk : s.width * s.height ≤ k) :
    (s.drawSprite x y n).1.cell k = s.fb.cell k := by
  have hout : k ∉ s.drawCells x y n := fun hmem => absurd (s.spriteCells_lt hmem) (Nat.not_lt.mpr hk)
  rw [s.cell_drawSprite, if_neg hout]

theorem State.keeps_setV_drawn_region (s : State) (x : Reg) (w : Byte) {f : Framebuffer}
    (houtside : ∀ k, s.width * s.height ≤ k → f.cell k = s.fb.cell k) :
    KeepsAllBut (fun p => (∃ k, k < s.width * s.height ∧ p = .cell k) ∨ p = .v x ∨ p = .draw ∨ p = .pc) s
      ((s.setV x w).drawn f) :=
  ((s.keeps_setV x w).mono fun _ hp => .inr (.inl hp)).trans
    (((s.setV x w).keeps_drawn_region houtside).mono fun _ hp => hp.imp_right .inr)

/-- R64: bit 15 − c of a word is bit 7 − c of its high byte, or bit 15 − c of its low byte. -/
theorem getLsbD_wordOfBytes (hi lo : Byte) {c : Nat} (hc : c < 16) :
    (wordOfBytes hi lo).getLsbD (15 - c) = if c < 8 then hi.getLsbD (7 - c) else lo.getLsbD (15 - c) := by
  rw [wordOfBytes, BitVec.getLsbD_append]
  split_ifs with hlow hhigh hhigh
  · omega
  · rfl
  · rw [show 15 - c - 8 = 7 - c by omega]
  · omega

/-- R140: the sprite's bit, in the two forms that its row has. -/
theorem State.spriteBit_eq (s : State) (n : Nibble) (r : Nat) {c : Nat} (hc : c < s.spriteWidth n) :
    s.spriteBit n r c = if n = 0x0 ∧ s.extended = true then
        (if c < 8 then (s.memRead (s.i.toNat + 2 * r)).getLsbD (7 - c)
         else (s.memRead (s.i.toNat + 2 * r + 1)).getLsbD (15 - c))
      else (s.memRead (s.i.toNat + r)).getLsbD (7 - c) := by
  unfold State.spriteBit State.spriteRow
  unfold State.spriteWidth at hc ⊢
  by_cases hbig : n = 0x0 ∧ s.extended = true
  · have hb : s.bigSprite n = true := by simpa [State.bigSprite] using hbig
    rw [if_pos hb] at hc ⊢
    rw [if_pos hb, if_pos hbig]
    exact getLsbD_wordOfBytes _ _ hc
  · have hb : ¬ s.bigSprite n = true := by simpa [State.bigSprite] using hbig
    rw [if_neg hb, if_neg hb, if_neg hbig, BitVec.getLsbD_setWidth]
    have h16 : 8 - 1 - c < 16 := by omega
    simp [h16, State.dataRead]

theorem State.spriteRows_eq (s : State) (n : Nibble) :
    s.spriteRows n = if n = 0x0 ∧ s.extended = true then 16 else n.toNat := by
  simp [State.spriteRows, State.bigSprite]

theorem State.spriteWidth_eq (s : State) (n : Nibble) :
    s.spriteWidth n = if n = 0x0 ∧ s.extended = true then 16 else 8 := by
  simp [State.spriteWidth, State.bigSprite]

/-- Settles O41: the cells inverted are those that the sprite's list names, and the flag is the list's collision. -/
theorem drawXorsSprite : Obligations.DrawXorsSprite := by
  intro x y n s big rows width bit hits
  have hrows : s.spriteRows n = rows := s.spriteRows_eq n
  have hwidth : s.spriteWidth n = width := s.spriteWidth_eq n
  have hhits : ∀ k, hits k ↔ k ∈ s.drawCells x y n := by
    intro k
    rw [State.drawCells, State.mem_spriteCells, hrows]
    refine exists_congr fun r => exists_congr fun c => and_congr_right fun _ => ?_
    rw [hwidth]
    refine and_congr_right fun hc => ?_
    rw [State.spriteBit_eq s n r (hwidth ▸ hc), eq_comm (a := k)]
    rfl
  have hflag := s.v_setV_drawn vf (flagByte (s.drawSprite x y n).2) (s.drawSprite x y n).1
  have hcollision : flagByte (s.drawSprite x y n).2 = 1 ↔ ∃ k, hits k ∧ s.fb.cell k = true := by
    rw [flagByte_eq_one, s.hit_drawSprite]
    exact exists_congr fun k => and_congr_left fun _ => (hhits k).symm
  refine ⟨_, exec_drw x y n s, fun k hk => ?_, fun k hk => ?_, ?_, ?_, fun hn hbig => ?_, State.drawn_draw _ _,
    State.drawn_pc _ _, s.keeps_setV_drawn_region vf _ fun k => s.drawSprite_outside x y n⟩
  · rw [State.drawn_fb, s.cell_drawSprite, if_pos ((hhits k).mp hk)]
  · rw [State.drawn_fb, s.cell_drawSprite, if_neg (mt (hhits k).mpr hk)]
  · rw [hflag]
    exact flagByte_eq_one_or_zero _
  · rw [hflag, hcollision]
  · rw [hflag]
    have hempty : rows = 0 := (if_neg hbig).trans (congrArg BitVec.toNat hn)
    refine (flagByte_eq_one_or_zero _).resolve_left (mt hcollision.mp ?_)
    rintro ⟨_, ⟨r, _, hr, -⟩, -⟩
    omega

/-- A second DXYN at the same coordinates toggles the same cells (R140). -/
theorem State.drawCells_drawSprite (s : State) {x y : Reg} (hx : x ≠ vf) (hy : y ≠ vf) (n : Nibble) (w : Byte)
    (f : Framebuffer) : ((s.setV vf w).drawn f).drawCells x y n = s.drawCells x y n := by
  unfold State.drawCells
  rw [s.v_setV_drawn_other hx, s.v_setV_drawn_other hy]
  rfl

/-- Settles O42: the two draws toggle the same cells, and over a blank screen those are the cells that the first
set. -/
theorem drawingTwiceErases : Obligations.DrawingTwiceErases := by
  intro x y n s t hx hy hdraw
  obtain rfl := exec_next_unique (exec_drw x y n s) hdraw
  set t := (s.setV vf (flagByte (s.drawSprite x y n).2)).drawn (s.drawSprite x y n).1 with ht
  have hcells : t.drawCells x y n = s.drawCells x y n := s.drawCells_drawSprite hx hy n _ _
  have hfirst : ∀ k, t.fb.cell k = if k ∈ s.drawCells x y n then !s.fb.cell k else s.fb.cell k :=
    s.cell_drawSprite x y n
  refine ⟨_, exec_drw x y n t, fun k => ?_, fun hblank => ?_⟩
  · rw [State.drawn_fb, t.cell_drawSprite, hcells, hfirst]
    split_ifs
    · exact Bool.not_not _
    · rfl
  · rw [t.v_setV_drawn, flagByte_eq_one, t.hit_drawSprite, hcells]
    refine exists_congr fun k => and_iff_right_of_imp fun hk => ?_
    by_contra hmem
    rw [hfirst, if_neg hmem, hblank] at hk
    cases hk

end Sys2Proof.Machine
end

section
/-! PROOFS. The timers and keys family (43_timers_keys.md): the next state of each instruction and the statements
about them. -/

namespace Sys2Proof.Machine

/-! ## What each instruction answers -/

section
variable {s : State} {x : Reg} {k : Nibble}

theorem exec_ldVxDt (x : Reg) (s : State) : exec (.ldVxDt x) s = .next (s.setV x s.dt).advance := rfl

theorem exec_ldDtVx (x : Reg) (s : State) : exec (.ldDtVx x) s = .next (s.setDt (s.v x)).advance := rfl

theorem exec_ldStVx (x : Reg) (s : State) : exec (.ldStVx x) s = .next (s.setSt (s.v x)).advance := rfl

theorem exec_skp_of_key (g : Nibble) (h : keyIndex (s.v x) = some k) :
    exec (.skp x g) s = .next ((s.releaseKey k).skipIf (s.key k)) := by
  simp only [exec, execSkp, h]

theorem exec_skp_of_no_key (g : Nibble) (h : keyIndex (s.v x) = none) :
    exec (.skp x g) s = .next (s.raise .keyIndexOutOfRange (some (encode (.skp x g))) (some (s.v x))) := by
  simp only [exec, execSkp, h]

theorem exec_sknp_of_key (g : Nibble) (h : keyIndex (s.v x) = some k) :
    exec (.sknp x g) s = .next (s.skipIf (!s.key k)) := by
  simp only [exec, execSknp, h]

theorem exec_sknp_of_no_key (g : Nibble) (h : keyIndex (s.v x) = none) :
    exec (.sknp x g) s = .next (s.raise .keyIndexOutOfRange (some (encode (.sknp x g))) (some (s.v x))) := by
  simp only [exec, execSknp, h]

theorem exec_ldVxK_waiting (x : Reg) (h : s.firstKey = none) : exec (.ldVxK x) s = .next (s.setAwaiting true) := by
  simp only [exec, execLdVxK, h]

/-- The end of an FX0A that takes key `j` (R165). -/
def State.takeKey (s : State) (x : Reg) (j : Nat) : State :=
  (((s.setV x (BitVec.ofNat 8 j)).clearKeys).setAwaiting false).advance

theorem exec_ldVxK_taking (x : Reg) {j : Nat} (h : s.firstKey = some j) :
    exec (.ldVxK x) s = .next (s.takeKey x j) := by
  simp only [exec, execLdVxK, h, State.takeKey]

end

theorem State.v_takeKey (s : State) (x : Reg) (j : Nat) : (s.takeKey x j).v x = BitVec.ofNat 8 j := s.v_setV_same x _

theorem State.key_takeKey (s : State) (x : Reg) (j : Nat) (k : Nibble) : (s.takeKey x j).key k = false :=
  (s.setV x (BitVec.ofNat 8 j)).key_clearKeys k

/-! ## Frames -/

theorem State.keeps_setDt_advance (s : State) (w : Byte) :
    KeepsAllBut (fun p => p = .dt ∨ p = .pc) s (s.setDt w).advance :=
  ((s.keeps_setDt w).mono fun _ => .inl).trans ((State.keeps_advance _).mono fun _ => .inr)

theorem State.keeps_setSt_advance (s : State) (w : Byte) :
    KeepsAllBut (fun p => p = .st ∨ p = .pc) s (s.setSt w).advance :=
  ((s.keeps_setSt w).mono fun _ => .inl).trans ((State.keeps_advance _).mono fun _ => .inr)

theorem State.keeps_releaseKey_skipIf (s : State) (k : Nibble) (b : Bool) :
    KeepsAllBut (fun p => p = .key k ∨ p = .pc) s ((s.releaseKey k).skipIf b) :=
  ((s.keeps_releaseKey k).mono fun _ => .inl).trans ((State.keeps_skipIf _ b).mono fun _ => .inr)

theorem State.keeps_takeKey (s : State) (x : Reg) (j : Nat) :
    KeepsAllBut (fun p => p = .v x ∨ (∃ j, p = .key j) ∨ p = .awaitingKey ∨ p = .pc) s (s.takeKey x j) :=
  ((((s.keeps_setV x _).mono fun _ => .inl).trans
    ((State.keeps_clearKeys _).mono fun _ hp => .inr (.inl hp))).trans
      ((State.keeps_setAwaiting _ false).mono fun _ hp => .inr (.inr (.inl hp)))).trans
        ((State.keeps_advance _).mono fun _ hp => .inr (.inr (.inr hp)))

/-! ## The statements -/

/-- Settles O43: each is one write and the advance. -/
theorem timerTransfers : Obligations.TimerTransfers := fun x s =>
  ⟨⟨_, exec_ldVxDt x s, s.v_setV_advance x _, rfl, s.keeps_setV_advance x _⟩,
   ⟨_, exec_ldDtVx x s, rfl, rfl, s.keeps_setDt_advance _⟩,
   ⟨_, exec_ldStVx x s, rfl, rfl, s.keeps_setSt_advance _⟩⟩

/-- Settles O44: a value at most 15 names its key, and SKP releases that key before it skips. -/
theorem keySkipsTestTheKey : Obligations.KeySkipsTestTheKey := by
  intro x g k s hv
  have hkey : keyIndex (s.v x) = some k := keyIndex_eq_some.mpr hv
  constructor
  · refine ⟨_, exec_skp_of_key g hkey, (s.releaseKey k).skipIf_pc_toNat Iff.rfl, ?_, s.keeps_releaseKey_skipIf k _⟩
    rw [State.skipIf_key, State.key_releaseKey, if_pos rfl]
  · have hreleased : (!s.key k) = true ↔ s.key k = false := by rw [Bool.not_eq_true']
    exact exec_skip (exec_sknp_of_key g hkey) hreleased

/-- Settles O45: a value above 15 names no key. -/
theorem keyIndexOutOfRangeFaults : Obligations.KeyIndexOutOfRangeFaults := by
  intro x g s hv
  have hkey : keyIndex (s.v x) = none := keyIndex_eq_none.mpr hv
  exact ⟨⟨_, exec_skp_of_no_key g hkey, rfl, s.keeps_raise _ _ _⟩,
    ⟨_, exec_sknp_of_no_key g hkey, rfl, s.keeps_raise _ _ _⟩⟩

/-- Settles O46: the scan of the keys finds none, or finds the least pressed one. -/
theorem awaitKeyWaitsOrTakesTheLeast : Obligations.AwaitKeyWaitsOrTakesTheLeast := by
  intro x s
  constructor
  · intro hnone
    exact ⟨_, exec_ldVxK_waiting x (State.firstKey_eq_none.mpr hnone), rfl, s.keeps_setAwaiting true⟩
  · intro k hk hleast
    have hfirst : s.firstKey = some k.toNat := State.firstKey_eq_some.mpr ⟨k, rfl, hk, hleast⟩
    refine ⟨_, exec_ldVxK_taking x hfirst, ?_, s.key_takeKey x _, rfl, rfl, s.keeps_takeKey x _⟩
    have hk16 : k.toNat < 16 := k.isLt
    rw [State.v_takeKey, BitVec.toNat_ofNat]
    omega

end Sys2Proof.Machine
end

section
/-! PROOFS. The index register and data in memory (44_index_memory.md §1 and §2): addresses, the overflow of FX1E, the
decimal digits and what a load reads after a store. -/

namespace Sys2Proof.Machine

/-! ## What each instruction answers -/

theorem exec_ldI (nnn : Addr) (s : State) : exec (.ldI nnn) s = .next (s.setI (zext16 nnn)).advance := rfl

theorem exec_addIVx (x : Reg) (s : State) : exec (.addIVx x) s =
    .next (s.flagThenI (indexOverflowFlag s.i (s.v x)) fun t => t.i + (t.v x).setWidth 16).advance := rfl

theorem exec_ldFVx (x : Reg) (s : State) :
    exec (.ldFVx x) s = .next (s.setI (glyphAddr s.params.fontSmallBase 5 (s.v x))).advance := rfl

theorem exec_ldHfVx (x : Reg) (s : State) :
    exec (.ldHfVx x) s = .next (s.setI (glyphAddr s.params.fontBigBase 10 (s.v x))).advance := rfl

/-- The three writes of FX33 (R184). -/
def State.storeBcd (s : State) (w : Byte) : State :=
  ((s.dataWrite 0 (bcdHundreds w)).dataWrite 1 (bcdTens w)).dataWrite 2 (bcdUnits w)

theorem exec_ldBVx (x : Reg) (s : State) : exec (.ldBVx x) s = .next (s.storeBcd (s.v x)).advance := rfl

/-! ## The index register -/

theorem State.keeps_setI_advance (s : State) (w : Word) :
    KeepsAllBut (fun p => p = .i ∨ p = .pc) s (s.setI w).advance :=
  ((s.keeps_setI w).mono fun _ => .inl).trans ((State.keeps_advance _).mono fun _ => .inr)

theorem State.keeps_flagThenI_advance (s : State) (flag : Byte) (f : State → Word) :
    KeepsAllBut (fun p => p = .i ∨ p = .v vf ∨ p = .pc) s (s.flagThenI flag f).advance := by
  refine ((s.keeps_flagThenI flag f).mono ?_).trans ((State.keeps_advance _).mono fun _ hp => .inr (.inr hp))
  exact fun _ hp => hp.imp_right .inl

theorem indexOverflowFlag_eq (i : Word) (b : Byte) :
    indexOverflowFlag i b = if i.toNat + b.toNat > 0xFFF then 1 else 0 := flagByte_decide _

/-- A write of VF leaves I for the operands, in either order (R120). -/
theorem State.operandState_setV_i (s : State) (x : Reg) (w : Byte) : (s.operandState (s.setV x w)).i = s.i := by
  unfold State.operandState
  split <;> rfl

theorem glyphAddr_toNat {base size : Nat} {digit : Byte} (h : base + size * digit.toNat < 65536) :
    (glyphAddr base size digit).toNat = base + size * digit.toNat := by
  rw [glyphAddr, BitVec.toNat_ofNat, Nat.mod_eq_of_lt h]

/-- Settles O47: the address, and the overflow and then the sum of the operands as VF_ORDER reads them. -/
theorem indexLoadsAndAdds : Obligations.IndexLoadsAndAdds := by
  intro x nnn s
  refine ⟨⟨_, exec_ldI nnn s, zext16_toNat nnn, rfl, s.keeps_setI_advance _⟩, ?_⟩
  have hadd := exec_addIVx x s
  rw [indexOverflowFlag_eq] at hadd
  refine ⟨_, hadd, s.v_setV_same vf _, ?_, rfl, s.keeps_flagThenI_advance _ _⟩
  rw [State.advance_i, State.flagThenI, State.setI_i, State.operandState_setV_i,
    State.v_operandState_eq_operandValue, BitVec.toNat_add, BitVec.toNat_setWidth_of_le (by decide)]

/-- Settles O48: inside the ranges of the bases no glyph address wraps. -/
theorem fontAddresses : Obligations.FontAddresses := by
  intro x s hsmall hbig
  have hv : (s.v x).toNat < 256 := (s.v x).isLt
  exact ⟨⟨_, exec_ldFVx x s, glyphAddr_toNat (by omega), rfl, s.keeps_setI_advance _⟩,
    ⟨_, exec_ldHfVx x s, glyphAddr_toNat (by omega), rfl, s.keeps_setI_advance _⟩⟩

/-! ## The decimal digits -/

theorem bcdHundreds_toNat (w : Byte) : (bcdHundreds w).toNat = w.toNat / 100 := by
  have hw : w.toNat < 256 := w.isLt
  rw [bcdHundreds, BitVec.toNat_ofNat]
  omega

theorem bcdTens_toNat (w : Byte) : (bcdTens w).toNat = w.toNat / 10 % 10 := by
  rw [bcdTens, BitVec.toNat_ofNat]
  omega

theorem bcdUnits_toNat (w : Byte) : (bcdUnits w).toNat = w.toNat % 10 := by
  rw [bcdUnits, BitVec.toNat_ofNat]
  omega

/-- A byte of memory after the three writes; their addresses differ, also where they wrap (R63, R184). -/
theorem State.memRead_storeBcd (s : State) (w : Byte) :
    (s.storeBcd w).memRead s.i.toNat = bcdHundreds w ∧ (s.storeBcd w).memRead (s.i.toNat + 1) = bcdTens w ∧
      (s.storeBcd w).memRead (s.i.toNat + 2) = bcdUnits w := by
  have h01 : s.i.toNat % memSize ≠ (s.i.toNat + 1) % memSize := by unfold memSize; omega
  have h02 : s.i.toNat % memSize ≠ (s.i.toNat + 2) % memSize := by unfold memSize; omega
  have h12 : (s.i.toNat + 1) % memSize ≠ (s.i.toNat + 2) % memSize := by unfold memSize; omega
  simp [State.storeBcd, State.dataWrite, State.memRead_memWrite, h01, h02, h12]

theorem State.keeps_storeBcd (s : State) (w : Byte) :
    KeepsAllBut (fun p => p = .byte (s.dataAddr 0) ∨ p = .byte (s.dataAddr 1) ∨ p = .byte (s.dataAddr 2)) s
      (s.storeBcd w) :=
  (((s.keeps_dataWrite 0 _).mono fun _ => .inl).trans
    ((State.keeps_dataWrite _ 1 _).mono fun _ hp => .inr (.inl hp))).trans
      ((State.keeps_dataWrite _ 2 _).mono fun _ hp => .inr (.inr hp))

/-- Settles O49: the three digits, read back after the three writes. -/
theorem bcdStoresThreeDigits : Obligations.BcdStoresThreeDigits := by
  intro x s
  obtain ⟨hhundreds, htens, hunits⟩ := s.memRead_storeBcd (s.v x)
  refine ⟨_, exec_ldBVx x s, ?_, ?_, ?_, rfl, ?_⟩
  · rw [State.advance_memRead, hhundreds, bcdHundreds_toNat]
  · rw [State.advance_memRead, htens, bcdTens_toNat]
  · rw [State.advance_memRead, hunits, bcdUnits_toNat]
  · refine ((s.keeps_storeBcd _).mono ?_).trans ((State.keeps_advance _).mono fun _ hp => .inr (.inr (.inr hp)))
    exact fun _ hp => hp.imp_right (.imp_right .inl)

/-! ## A load after a store -/

theorem State.memRead_congr {s t : State} (h : s.mem = t.mem) (a : Nat) : s.memRead a = t.memRead a :=
  congrArg (fun m : Memory => m.read (a % memSize)) h

/-- Settles O52: the load reads each address of the range, where the store left its register. -/
theorem loadAfterStoreGivesRegisters : Obligations.LoadAfterStoreGivesRegisters := by
  intro x s t u hstore hmem hi
  obtain ⟨t', hstore', hstored, -⟩ := storeWritesTheRange x s
  obtain rfl := exec_next_unique hstore' hstore
  obtain ⟨w, hload, hloaded, -⟩ := loadReadsTheRange x u
  refine ⟨w, hload, fun k hk => ?_⟩
  rw [hloaded k hk, hi, State.memRead_congr hmem, hstored k hk]

end Sys2Proof.Machine
end

section
/-! PROOFS. Exit, the unknown words and the refused words (45_system.md §1). -/

namespace Sys2Proof.Machine

/-! ## What each instruction answers -/

theorem exec_exit (g : Nibble) (s : State) : exec (.exit g) s = .next (s.requestExit).advance := rfl

theorem exec_unknown_reporting {s : State} {op : Word} (h : scrollUpRows s.params op = none) :
    exec (.unknown op) s = .next (s.report op).advance := by
  simp only [exec, execUnknown, h]

theorem exec_unknown_scrolling {s : State} {op : Word} {n : Nat} (h : scrollUpRows s.params op = some n) :
    exec (.unknown op) s = .next (s.drawn (s.fb.scrollUp s.width s.height n)) := by
  simp only [exec, execUnknown, h]

theorem exec_unmodelledFx00 (x : Reg) (s : State) :
    exec (.unmodelledFx00 x) s = .refused (.setIndexFormUnspecified (encode (.unmodelledFx00 x))) := rfl

theorem exec_unmodelledFxFn (x : Reg) (n : Nibble) (s : State) :
    exec (.unmodelledFxFn x n) s = .refused (.setIndexFormUnspecified (encode (.unmodelledFxFn x n))) := rfl

/-! ## Which unknown words scroll up -/

/-- 93 Part 1: the words 00Bn, in the canonical spelling where STRICT_DECODE is on. -/
theorem scrollUpRows_eq_some {p : Params} {op : Word} {n : Nat} : scrollUpRows p op = some n ↔
    p.scrollUp = .bn ∧ (op.toNat / 4096 = 0x0 ∧ op.toNat / 16 % 16 = 0xB ∧
      (p.strictDecode = false ∨ op.toNat / 256 % 16 = 0x0)) ∧ op.toNat % 16 = n := by
  unfold scrollUpRows
  cases p.scrollUp <;> simp [nibH_eq_iff, nibX_eq_iff, nibY_eq_iff, nibN_toNat]

theorem scrollUpRows_eq_none {p : Params} {op : Word} (h : p.scrollUp = .absent ∨ op.toNat / 4096 ≠ 0x0 ∨
    op.toNat / 16 % 16 ≠ 0xB ∨ (p.strictDecode = true ∧ op.toNat / 256 % 16 ≠ 0x0)) :
    scrollUpRows p op = none := by
  rw [Option.eq_none_iff_forall_ne_some]
  intro n hn
  obtain ⟨hbn, ⟨hh, hy, hx⟩, -⟩ := scrollUpRows_eq_some.mp hn
  rcases h with h | h | h | ⟨hstrict, h⟩
  · rw [hbn] at h
    cases h
  · exact h hh
  · exact h hy
  · exact hx.elim (fun hoff => by rw [hstrict] at hoff; cases hoff) h

/-! ## Frames -/

theorem State.keeps_requestExit_advance (s : State) :
    KeepsAllBut (fun p => p = .exitRequested ∨ p = .pc) s s.requestExit.advance :=
  (s.keeps_requestExit.mono fun _ => .inl).trans ((State.keeps_advance _).mono fun _ => .inr)

theorem State.keeps_report_advance (s : State) (op : Word) :
    KeepsAllBut (fun p => p = .unknown ∨ p = .pc) s (s.report op).advance :=
  ((s.keeps_report op).mono fun _ => .inl).trans ((State.keeps_advance _).mono fun _ => .inr)

/-! ## The statements -/

/-- Settles O54: one status bit and the advance. -/
theorem exitRequestsAndGoesOn : Obligations.ExitRequestsAndGoesOn := fun g s =>
  ⟨_, exec_exit g s, rfl, rfl, s.keeps_requestExit_advance⟩

/-- Settles O55: an unknown word has no rows to scroll by, or the parameters give it some. -/
theorem unknownIsReportedNoOp : Obligations.UnknownIsReportedNoOp := by
  intro op s
  constructor
  · intro h
    exact ⟨_, exec_unknown_reporting (scrollUpRows_eq_none h), rfl, rfl, s.keeps_report_advance op⟩
  · intro hbn hh hy hx
    have hrows := scrollUpRows_eq_some.mpr ⟨hbn, ⟨hh, hy, hx⟩, rfl⟩
    refine ⟨_, exec_unknown_scrolling hrows, fun a b ha hb => ?_, State.drawn_draw _ _, State.drawn_pc _ _,
      s.keeps_drawn_region fun k hk => s.fb.scrollUp_outside hk _⟩
    rw [State.drawn_fb, Framebuffer.cell_scrollUp s.fb ha hb]

/-- Settles O56: the mark holds the encoding of the refused form. -/
theorem unmodelledWordsAreRefused : Obligations.UnmodelledWordsAreRefused := by
  intro x n s
  refine ⟨⟨_, ?_, exec_unmodelledFx00 x s⟩, ⟨_, ?_, exec_unmodelledFxFn x n s⟩⟩
  · rw [encode, wordHXNN_toNat]
    rfl
  · rw [encode, wordHXYN_toNat]
    change 0xF * 4096 + x.toNat * 256 + 0xF * 16 + n.toNat = _
    omega

end Sys2Proof.Machine
end

section
/-! PROOFS. What an instruction can do, over every instruction: the parts it may write, and whether it completes,
raises or is refused. -/

namespace Sys2Proof.Machine

section
variable {i : Instr} {s t u : State}

/-! ## The instructions with more than one answer -/

theorem exec_call_cases {nnn : Addr} (h : exec (.call nnn) s = .next t) :
    (∃ u, s.push s.pc = some u ∧ t = u.setPc (zext16 nnn)) ∨
    (s.push s.pc = none ∧ t = s.raise .stackOverflow (some (encode (.call nnn))) none) := by
  cases hpush : s.push s.pc with
  | some u => exact .inl ⟨u, rfl, exec_next_unique h (exec_call_of_push nnn hpush)⟩
  | none => exact .inr ⟨rfl, exec_next_unique h (exec_call_of_full nnn hpush)⟩

theorem exec_ret_cases {g : Nibble} (h : exec (.ret g) s = .next t) :
    (∃ a u, s.pop = some (a, u) ∧ t = u.setPc (a + 2)) ∨
    (s.pop = none ∧ t = s.raise .stackUnderflow (some (encode (.ret g))) none) := by
  cases hpop : s.pop with
  | some p => exact .inl ⟨p.1, p.2, rfl, exec_next_unique h (exec_ret_of_pop g hpop)⟩
  | none => exact .inr ⟨rfl, exec_next_unique h (exec_ret_of_empty g hpop)⟩

theorem exec_skp_cases {x : Reg} {g : Nibble} (h : exec (.skp x g) s = .next t) :
    (∃ k, keyIndex (s.v x) = some k ∧ t = (s.releaseKey k).skipIf (s.key k)) ∨
    (keyIndex (s.v x) = none ∧
      t = s.raise .keyIndexOutOfRange (some (encode (.skp x g))) (some (s.v x))) := by
  cases hkey : keyIndex (s.v x) with
  | some k => exact .inl ⟨k, rfl, exec_next_unique h (exec_skp_of_key g hkey)⟩
  | none => exact .inr ⟨rfl, exec_next_unique h (exec_skp_of_no_key g hkey)⟩

theorem exec_sknp_cases {x : Reg} {g : Nibble} (h : exec (.sknp x g) s = .next t) :
    (∃ k, keyIndex (s.v x) = some k ∧ t = s.skipIf (!s.key k)) ∨
    (keyIndex (s.v x) = none ∧
      t = s.raise .keyIndexOutOfRange (some (encode (.sknp x g))) (some (s.v x))) := by
  cases hkey : keyIndex (s.v x) with
  | some k => exact .inl ⟨k, rfl, exec_next_unique h (exec_sknp_of_key g hkey)⟩
  | none => exact .inr ⟨rfl, exec_next_unique h (exec_sknp_of_no_key g hkey)⟩

theorem exec_ldVxK_cases {x : Reg} (h : exec (.ldVxK x) s = .next t) :
    (s.firstKey = none ∧ t = s.setAwaiting true) ∨ (∃ j, s.firstKey = some j ∧ t = s.takeKey x j) := by
  cases hfirst : s.firstKey with
  | none => exact .inl ⟨rfl, exec_next_unique h (exec_ldVxK_waiting x hfirst)⟩
  | some j => exact .inr ⟨j, rfl, exec_next_unique h (exec_ldVxK_taking x hfirst)⟩

theorem exec_unknown_cases {op : Word} (h : exec (.unknown op) s = .next t) :
    (∃ n, t = s.drawn (s.fb.scrollUp s.width s.height n)) ∨ t = (s.report op).advance := by
  cases hrows : scrollUpRows s.params op with
  | some n => exact .inl ⟨n, exec_next_unique h (exec_unknown_scrolling hrows)⟩
  | none => exact .inr (exec_next_unique h (exec_unknown_reporting hrows))

/-! ## What an instruction may write -/

/-- The parts of the state that an instruction may write: pc, the registers of R23's table, and the parts that the
other rules give it. -/
def MayWrite (i : Instr) (p : Part) : Prop :=
  p = .pc ∨ (∃ x, p = .v x ∧ mayWriteV i x = true) ∨ mayWritePart p i = true

theorem mayWrite_v_iff {x : Reg} : MayWrite i (.v x) ↔ mayWriteV i x = true := by
  have hpart : mayWritePart (.v x) i = false := by cases i <;> rfl
  simp [MayWrite, hpart]

theorem mayWrite_iff_part {p : Part} (hv : ∀ x, p ≠ .v x) (hpc : p ≠ .pc) :
    MayWrite i p ↔ mayWritePart p i = true := by
  simp [MayWrite, hv, hpc]

/-! A frame stays inside what the instruction may write when each of its parts does. -/

theorem mayWrite_pc : ∀ p, p = .pc → MayWrite i p := fun _ hp => .inl hp

theorem mayWrite_reg {x : Reg} (h : mayWriteV i x = true) : ∀ p, p = .v x → MayWrite i p :=
  fun _ hp => .inr (.inl ⟨x, hp, h⟩)

theorem mayWrite_part {q : Part} (h : mayWritePart q i = true) : ∀ p, p = q → MayWrite i p :=
  fun _ hp => .inr (.inr (hp ▸ h))

theorem mayWrite_or {c d : Part → Prop} (hc : ∀ p, c p → MayWrite i p) (hd : ∀ p, d p → MayWrite i p) :
    ∀ p, c p ∨ d p → MayWrite i p := fun p hp => hp.elim (hc p) (hd p)

theorem mayWrite_cells {c : Nat → Prop} (h : ∀ k, mayWritePart (.cell k) i = true) :
    ∀ p, (∃ k, c k ∧ p = .cell k) → MayWrite i p := fun p ⟨k, _, hp⟩ => mayWrite_part (h k) p hp

/-- A graphics instruction that writes no flag. -/
theorem State.mayWrite_drawn (s : State) (f : Framebuffer) (hcell : ∀ k, mayWritePart (.cell k) i = true)
    (hdraw : mayWritePart .draw i = true) : KeepsAllBut (MayWrite i) s (s.drawn f) :=
  (s.keeps_drawn (c := fun _ => True) fun _ hk => absurd trivial hk).mono
    (mayWrite_or (mayWrite_cells hcell) (mayWrite_or (mayWrite_part hdraw) mayWrite_pc))

theorem State.mayWrite_raise (s : State) (h : mayWritePart .fault i = true) (k : FaultKind) (op : Option Word)
    (v : Option Byte) : KeepsAllBut (MayWrite i) s (s.raise k op v) :=
  (s.keeps_raise k op v).mono (mayWrite_part h)

theorem KeepsAllBut.mayWrite_advance (h : KeepsAllBut (MayWrite i) s u) : KeepsAllBut (MayWrite i) s u.advance :=
  h.trans (u.keeps_advance.mono mayWrite_pc)

/-- The frame of every instruction (R23, R24, R28–R32, R34–R39, R46, R60). -/
theorem exec_keeps (h : exec i s = .next t) : KeepsAllBut (MayWrite i) s t := by
  cases i
  case ldImm | addImm | ldReg | orReg | andReg | xorReg | ldVxDt =>
    cases h
    exact (s.keeps_setV_advance _ _).mono (mayWrite_or (mayWrite_reg (by simp [mayWriteV])) mayWrite_pc)
  case addReg | subReg | shr | subn | shl =>
    cases h
    exact (s.keeps_flagThenV_advance _ _ _).mono (mayWrite_or (mayWrite_reg (by simp [mayWriteV]))
      (mayWrite_or (mayWrite_reg (by simp [mayWriteV])) mayWrite_pc))
  case rnd =>
    cases h
    exact (s.keeps_countDraw_setV_advance _ _).mono (mayWrite_or (mayWrite_reg (by simp [mayWriteV]))
      (mayWrite_or (mayWrite_part rfl) mayWrite_pc))
  case seImm | sneImm | seReg | sneReg =>
    cases h
    exact (s.keeps_skipIf _).mono mayWrite_pc
  case jp | jpV0 =>
    cases h
    exact (s.keeps_setPc _).mono mayWrite_pc
  case cls | scd | scr | scl =>
    cases h
    exact s.mayWrite_drawn _ (fun _ => rfl) rfl
  case drw x y n =>
    cases h
    exact ((s.keeps_setV vf _).mono (mayWrite_reg rfl)).trans (State.mayWrite_drawn _ _ (fun _ => rfl) rfl)
  case low | high =>
    cases h
    exact (s.keeps_setExtended_markDraw_advance _).mono (mayWrite_or (mayWrite_part rfl)
      (mayWrite_or (mayWrite_part rfl) mayWrite_pc))
  case exit =>
    cases h
    exact s.keeps_requestExit_advance.mono (mayWrite_or (mayWrite_part rfl) mayWrite_pc)
  case ldDtVx =>
    cases h
    exact (s.keeps_setDt_advance _).mono (mayWrite_or (mayWrite_part rfl) mayWrite_pc)
  case ldStVx =>
    cases h
    exact (s.keeps_setSt_advance _).mono (mayWrite_or (mayWrite_part rfl) mayWrite_pc)
  case ldI | ldFVx | ldHfVx =>
    cases h
    exact (s.keeps_setI_advance _).mono (mayWrite_or (mayWrite_part rfl) mayWrite_pc)
  case addIVx =>
    cases h
    exact (s.keeps_flagThenI_advance _ _).mono (mayWrite_or (mayWrite_part rfl)
      (mayWrite_or (mayWrite_reg rfl) mayWrite_pc))
  case ldBVx =>
    cases h
    exact ((s.keeps_storeBcd _).mono (mayWrite_or (mayWrite_part rfl)
      (mayWrite_or (mayWrite_part rfl) (mayWrite_part rfl)))).mayWrite_advance
  case ldMemVx =>
    cases h
    refine ((s.keeps_storeRegs fun _ => rangeTo_lt).mono ?_).mayWrite_advance
    exact fun p ⟨_, _, hp⟩ => mayWrite_part rfl p hp
  case ldVxMem =>
    cases h
    refine ((s.keeps_loadRegs fun _ => rangeTo_lt).mono ?_).mayWrite_advance
    exact fun p ⟨_, hy, hp⟩ => mayWrite_reg (by simpa [mayWriteV] using mem_rangeTo.mp hy) p hp
  case ldRVx =>
    cases h
    refine ((s.keeps_saveRpl fun _ => rplRangeTo_lt).mono ?_).mayWrite_advance
    exact fun p ⟨_, _, hp⟩ => mayWrite_part rfl p hp
  case ldVxR =>
    cases h
    refine ((s.keeps_restoreRpl fun _ => rplRangeTo_lt).mono ?_).mayWrite_advance
    exact fun p ⟨_, hy, hp⟩ => mayWrite_reg (by simpa [mayWriteV] using mem_rplRangeTo.mp hy) p hp
  case call =>
    obtain ⟨u, hpush, rfl⟩ | ⟨-, rfl⟩ := exec_call_cases h
    · refine ((State.keeps_push hpush).mono ?_).trans ((State.keeps_setPc _ _).mono mayWrite_pc)
      exact mayWrite_or (fun p ⟨_, hp⟩ => mayWrite_part rfl p hp) (mayWrite_part rfl)
    · exact s.mayWrite_raise rfl _ _ _
  case ret =>
    obtain ⟨a, u, hpop, rfl⟩ | ⟨-, rfl⟩ := exec_ret_cases h
    · exact ((State.keeps_pop hpop).mono (mayWrite_part rfl)).trans ((State.keeps_setPc _ _).mono mayWrite_pc)
    · exact s.mayWrite_raise rfl _ _ _
  case skp =>
    obtain ⟨k, -, rfl⟩ | ⟨-, rfl⟩ := exec_skp_cases h
    · exact (s.keeps_releaseKey_skipIf k _).mono (mayWrite_or (mayWrite_part rfl) mayWrite_pc)
    · exact s.mayWrite_raise rfl _ _ _
  case sknp =>
    obtain ⟨k, -, rfl⟩ | ⟨-, rfl⟩ := exec_sknp_cases h
    · exact (s.keeps_skipIf _).mono mayWrite_pc
    · exact s.mayWrite_raise rfl _ _ _
  case ldVxK x =>
    obtain ⟨-, rfl⟩ | ⟨j, -, rfl⟩ := exec_ldVxK_cases h
    · exact (s.keeps_setAwaiting true).mono (mayWrite_part rfl)
    · refine (s.keeps_takeKey x j).mono (mayWrite_or (mayWrite_reg (by simp [mayWriteV])) ?_)
      exact mayWrite_or (fun p ⟨_, hp⟩ => mayWrite_part rfl p hp) (mayWrite_or (mayWrite_part rfl) mayWrite_pc)
  case unknown op =>
    obtain ⟨n, rfl⟩ | rfl := exec_unknown_cases h
    · exact s.mayWrite_drawn _ (fun _ => rfl) rfl
    · exact (s.keeps_report_advance op).mono (mayWrite_or (mayWrite_part rfl) mayWrite_pc)
  case unmodelledFx00 | unmodelledFxFn => cases h

/-! ## The statements -/

/-- Settles O24: the frame of the instruction, at a register outside the table's entry. -/
theorem registerWriters : Obligations.RegisterWriters := by
  intro i s t y h hy
  refine exec_keeps h (.v y) ?_
  rw [mayWrite_v_iff, hy]
  exact Bool.false_ne_true

/-- Settles O25: the frame of the instruction, at a part that is neither a general register nor pc. -/
theorem partWriters : Obligations.PartWriters := by
  intro i s t p h hv hpc hp
  refine exec_keeps h p ?_
  rw [mayWrite_iff_part hv hpc, hp]
  exact Bool.false_ne_true

end

end Sys2Proof.Machine
end

section
/-! PROOFS. The end of an instruction and of a step, over every instruction: it completes, raises or is refused
(45_system.md §2, 60_exceptions.md §1 and §2), and the statements about the cycle driver. -/

namespace Sys2Proof.Machine

section
variable {i : Instr} {s t u : State}

/-! ## What an instruction raises -/

/-- The StateCorruption that an instruction raises in a state, if any: its kind and the value it records (R221). -/
def raisedBy (i : Instr) (s : State) : Option (FaultKind × Option Byte) :=
  match i with
  | .call _ => if s.sp.val = 16 then some (.stackOverflow, none) else none
  | .ret _ => if s.sp.val = 0 then some (.stackUnderflow, none) else none
  | .skp x _ | .sknp x _ => if 15 < (s.v x).toNat then some (.keyIndexOutOfRange, some (s.v x)) else none
  | _ => none

/-- The three cases of R221 that an instruction can raise. -/
theorem raisedBy_eq_some {k : FaultKind} {v : Option Byte} : raisedBy i s = some (k, v) ↔
    ((∃ nnn, i = .call nnn) ∧ s.sp.val = 16 ∧ k = .stackOverflow ∧ v = none) ∨
    ((∃ g, i = .ret g) ∧ s.sp.val = 0 ∧ k = .stackUnderflow ∧ v = none) ∨
    (∃ x g, (i = .skp x g ∨ i = .sknp x g) ∧ 15 < (s.v x).toNat ∧ k = .keyIndexOutOfRange ∧ v = some (s.v x)) := by
  cases i <;> simp [raisedBy, eq_comm]

theorem exec_of_raisedBy {k : FaultKind} {v : Option Byte} (h : raisedBy i s = some (k, v)) :
    exec i s = .next (s.raise k (some (encode i)) v) := by
  rcases raisedBy_eq_some.mp h with ⟨⟨nnn, rfl⟩, hsp, rfl, rfl⟩ | ⟨⟨g, rfl⟩, hsp, rfl, rfl⟩ |
    ⟨x, g, rfl | rfl, hv, rfl, rfl⟩
  · exact exec_call_of_full nnn (State.push_eq_none.mpr (Fin.ext hsp))
  · exact exec_ret_of_empty g (State.pop_eq_none.mpr (Fin.ext hsp))
  · exact exec_skp_of_no_key g (keyIndex_eq_none.mpr hv)
  · exact exec_sknp_of_no_key g (keyIndex_eq_none.mpr hv)

/-- An instruction that raises nothing leaves the latch as it was (R223). -/
theorem fault_of_not_raisedBy (h : raisedBy i s = none) (hx : exec i s = .next t) : t.fault = s.fault := by
  cases i
  case call =>
    obtain ⟨u, hpush, rfl⟩ | ⟨hfull, -⟩ := exec_call_cases hx
    · exact State.keeps_push hpush .fault (by simp)
    · simp [raisedBy, State.push_eq_none.mp hfull] at h
  case ret =>
    obtain ⟨a, u, hpop, rfl⟩ | ⟨hempty, -⟩ := exec_ret_cases hx
    · exact State.keeps_pop hpop .fault (by simp)
    · simp [raisedBy, State.pop_eq_none.mp hempty] at h
  case skp =>
    obtain ⟨k, -, rfl⟩ | ⟨hkey, -⟩ := exec_skp_cases hx
    · rfl
    · simp [raisedBy, keyIndex_eq_none.mp hkey] at h
  case sknp =>
    obtain ⟨k, -, rfl⟩ | ⟨hkey, -⟩ := exec_sknp_cases hx
    · rfl
    · simp [raisedBy, keyIndex_eq_none.mp hkey] at h
  all_goals exact partWriters _ s t .fault hx (by simp) (by simp) rfl

/-! ## Refusals -/

theorem exec_of_refused (h : i.refused) (s : State) :
    exec i s = .refused (.setIndexFormUnspecified (encode i)) := by
  obtain ⟨x, rfl⟩ | ⟨x, n, rfl⟩ := h <;> rfl

theorem exec_of_not_refused (h : ¬ i.refused) (s : State) : ∃ t, exec i s = .next t := by
  cases i
  case unmodelledFx00 x => exact absurd (.inl ⟨x, rfl⟩) h
  case unmodelledFxFn x n => exact absurd (.inr ⟨x, n, rfl⟩) h
  case call => simp only [exec, execCall]; split <;> exact ⟨_, rfl⟩
  case ret => simp only [exec, execRet]; split <;> exact ⟨_, rfl⟩
  case skp => simp only [exec, execSkp]; split <;> exact ⟨_, rfl⟩
  case sknp => simp only [exec, execSknp]; split <;> exact ⟨_, rfl⟩
  case ldVxK => simp only [exec, execLdVxK]; split <;> exact ⟨_, rfl⟩
  case unknown => simp only [exec, execUnknown]; split <;> exact ⟨_, rfl⟩
  all_goals exact ⟨_, rfl⟩

/-! ## The fetched instruction -/

/-- The instruction that a step executes is a reading of the fetched word, also under STRICT_DECODE. -/
theorem encode_decodeWith (p : Params) (op : Word) : encode (decodeWith p op) = op := by
  unfold decodeWith
  split
  · rfl
  · exact encode_decode op

theorem decodeWith_of_canonical {p : Params} {op : Word} (h : (decode op).canonical = true) :
    decodeWith p op = decode op := by
  simp [decodeWith, h]

theorem decodeWith_refused_iff {p : Params} {op : Word} : (decodeWith p op).refused ↔ refusedWord op = true := by
  rw [← decode_refused_iff]
  by_cases hc : (decode op).canonical = true
  · rw [decodeWith_of_canonical hc]
  · have hnot : ¬ (decode op).refused := by
      rintro (⟨x, hx⟩ | ⟨x, n, hx⟩) <;> exact hc (by rw [hx]; rfl)
    refine iff_of_false ?_ hnot
    unfold decodeWith
    split
    · rintro (⟨x, hx⟩ | ⟨x, n, hx⟩) <;> cases hx
    · exact hnot

/-! ## The step, by what its instruction does -/

section
variable {op : Word}

theorem step_of_latched (hf : s.fault ≠ none) : step s = .next s := by
  rw [step, if_pos (Option.isSome_iff_ne_none.mpr hf)]

theorem step_of_no_fetch (hf : s.fault = none) (hop : s.fetch = none) : step s = .next s.beginStep.fetchFault := by
  simp [step, hf, hop]

theorem step_of_exec_next (hf : s.fault = none) (hop : s.fetch = some op)
    (hx : exec (decodeWith s.params op) s.beginStep = .next u) : step s = .next u.endStep := by
  simp [step, hf, hop, hx]

theorem step_of_exec_refused {r : Refusal} (hf : s.fault = none) (hop : s.fetch = some op)
    (hx : exec (decodeWith s.params op) s.beginStep = .refused r) : step s = .refused r := by
  simp [step, hf, hop, hx]

theorem endStep_of_clear (hf : s.fault = none) : s.endStep = s.tick := by
  rw [State.endStep, hf]
  rfl

theorem endStep_of_latched (hf : s.fault ≠ none) : s.endStep = s :=
  if_pos (Option.isSome_iff_ne_none.mpr hf)

theorem step_of_raisedBy {k : FaultKind} {v : Option Byte} (hf : s.fault = none) (hop : s.fetch = some op)
    (hr : raisedBy (decodeWith s.params op) s = some (k, v)) : step s = .next (s.beginStep.raise k (some op) v) := by
  have hx := exec_of_raisedBy (s := s.beginStep) hr
  rw [encode_decodeWith] at hx
  rw [step_of_exec_next hf hop hx, endStep_of_latched (by simp)]

/-- R205, R206, R223: the next states of a step. It finds the latch set; it cannot fetch; its instruction raises;
or its instruction completes and the timers tick. -/
theorem step_next_cases (h : step s = .next t) :
    (s.fault ≠ none ∧ t = s) ∨
    (s.fault = none ∧ s.fetch = none ∧ t = s.beginStep.raise .fetchOutOfRange none none) ∨
    (s.fault = none ∧ ∃ op k v, s.fetch = some op ∧ raisedBy (decodeWith s.params op) s = some (k, v) ∧
      t = s.beginStep.raise k (some op) v) ∨
    (s.fault = none ∧ ∃ op u, s.fetch = some op ∧ exec (decodeWith s.params op) s.beginStep = .next u ∧
      u.fault = none ∧ t = u.tick) := by
  rcases step_next h with ⟨hf, ht⟩ | ⟨hf, hop, ht⟩ | ⟨op, u, hf, hop, hx, ht⟩
  · exact .inl ⟨Option.isSome_iff_ne_none.mp hf, ht⟩
  · exact .inr (.inl ⟨hf, hop, ht⟩)
  · cases hr : raisedBy (decodeWith s.params op) s with
    | some kv =>
      have hraise := step_of_raisedBy hf hop hr
      exact .inr (.inr (.inl ⟨hf, op, kv.1, kv.2, hop, hr, by injection h.symm.trans hraise⟩))
    | none =>
      have hu : u.fault = none := (fault_of_not_raisedBy (s := s.beginStep) hr hx).trans hf
      exact .inr (.inr (.inr ⟨hf, op, u, hop, hx, hu, by rw [ht, endStep_of_clear hu]⟩))

end

end

/-! ## Statements about the cycle driver -/

theorem State.keeps_beginStep_raise (s : State) (k : FaultKind) (op : Option Word) (v : Option Byte) :
    KeepsAllBut (fun p => p = .fault ∨ p = .draw ∨ p = .beep ∨ p = .unknown) s (s.beginStep.raise k op v) :=
  (s.keeps_beginStep.mono fun _ => .inr).trans ((State.keeps_raise _ k op v).mono fun _ => .inl)

/-- Settles O6: the decoder under the parameters is the decoder but for a non-canonical spelling under
STRICT_DECODE. -/
theorem stepRunsDecodedInstruction : Obligations.StepRunsDecodedInstruction := by
  intro s i hf hpc hi
  have hfetch := State.fetch_eq_some.mpr ⟨hpc, rfl⟩
  obtain rfl : decode (wordOfBytes (s.memRead s.pc.toNat) (s.memRead (s.pc.toNat + 1))) = i := by
    injection hi with hpair
    injection hpair
  generalize wordOfBytes (s.memRead s.pc.toNat) (s.memRead (s.pc.toNat + 1)) = op at hfetch ⊢
  have hstrict : decodeWith s.params op =
      if s.params.strictDecode = true ∧ (decode op).canonical = false then .unknown op else decode op := by
    simp [decodeWith]
  rw [← hstrict]
  exact ⟨fun t => step_of_exec_next hf hfetch, fun r => step_of_exec_refused hf hfetch⟩

theorem timer_toNat (b : Byte) : (if b = 0 then b else b - 1).toNat = b.toNat - 1 := by
  split
  next h => rw [h]; rfl
  next h => bv_omega

/-- R30, R46: what the tick of the sound timer does to beep-occurred. -/
theorem State.tick_beep_iff (s : State) : s.tick.beep = true ↔ s.beep = true ∨ s.st.toNat = 1 := by
  have hone : s.st = 1 ↔ s.st.toNat = 1 := BitVec.toNat_inj.symm
  rw [State.tick_eq]
  by_cases hst : s.st = 0#8
  · simp [hst]
  · simp [hst, ← hone]

theorem State.tick_dt_toNat (s : State) : s.tick.dt.toNat = s.dt.toNat - 1 := by
  rw [State.tick_eq]
  exact timer_toNat s.dt

theorem State.tick_st_toNat (s : State) : s.tick.st.toNat = s.st.toNat - 1 := by
  rw [State.tick_eq]
  exact timer_toNat s.st

/-- Settles O7: the end of a step is the tick of both timers, or nothing where the latch is set. -/
theorem stepBeginsAndEnds : Obligations.StepBeginsAndEnds := by
  intro s
  refine ⟨⟨rfl, rfl, rfl, s.keeps_beginStep⟩, fun hf => ?_, endStep_of_latched⟩
  rw [endStep_of_clear hf]
  exact ⟨s.tick_dt_toNat, s.tick_st_toNat, s.tick_beep_iff, s.keeps_tick⟩

theorem mayWritePart_beep {i : Instr} : mayWritePart .beep i = false := by cases i <;> rfl

/-- Settles O8: no instruction writes beep-occurred, so that it is set by the tick alone. -/
theorem beepExactlyWhenSoundTimerEnds : Obligations.BeepExactlyWhenSoundTimerEnds := by
  intro s u op hf hop hx hu
  have hquiet : u.beep = false := partWriters _ _ u .beep hx (by simp) (by simp) mayWritePart_beep
  refine ⟨u.tick, ?_, ?_, ?_⟩
  · rw [step_of_exec_next hf hop hx, endStep_of_clear hu]
  · simp [u.tick_beep_iff, hquiet]
  · rw [u.tick_st_toNat]
    omega

/-- Settles O9: the record is raised from the state with the transients cleared. -/
theorem fetchOutOfRangeFaults : Obligations.FetchOutOfRangeFaults := by
  intro s hf hpc
  exact ⟨_, step_of_no_fetch hf (State.fetch_eq_none.mpr hpc), rfl, rfl, rfl, rfl, s.keeps_beginStep_raise _ _ _⟩

/-- Settles O11: a step that sets the latch is a raise from the state with the transients cleared. -/
theorem faultingStepIsPrecise : Obligations.FaultingStepIsPrecise := by
  intro s t hf h ht
  rcases step_next_cases h with ⟨hset, -⟩ | ⟨-, -, rfl⟩ | ⟨-, op, k, v, -, -, rfl⟩ | ⟨-, op, u, -, -, hu, rfl⟩
  · exact absurd hf hset
  · exact ⟨rfl, rfl, rfl, s.keeps_beginStep_raise _ _ _⟩
  · exact ⟨rfl, rfl, rfl, s.keeps_beginStep_raise _ _ _⟩
  · exact absurd ((u.keeps_tick .fault (by simp)).trans hu) ht

end Sys2Proof.Machine
end

section
/-! PROOFS. Faults, refusals and fetches of a step (45_system.md §2 and §3, 60_exceptions.md §1, 20_memory.md §2), and
what the host's transactions write (10_state.md §7). -/

namespace Sys2Proof.Machine

/-! ## Causes of a fault -/

/-- R221: the record that an instruction leaves, case by case. -/
theorem raisedBy_record_iff {i : Instr} {s : State} {op : Word} {r : FaultRecord} :
    (∃ k v, raisedBy i s = some (k, v) ∧ r = ⟨k, s.pc, some op, v⟩) ↔
      ((∃ nnn, i = .call nnn) ∧ s.sp.val = 16 ∧ r = ⟨.stackOverflow, s.pc, some op, none⟩) ∨
      ((∃ g, i = .ret g) ∧ s.sp.val = 0 ∧ r = ⟨.stackUnderflow, s.pc, some op, none⟩) ∨
      (∃ x g, (i = .skp x g ∨ i = .sknp x g) ∧ 15 < (s.v x).toNat ∧
        r = ⟨.keyIndexOutOfRange, s.pc, some op, some (s.v x)⟩) := by
  simp only [raisedBy_eq_some]
  constructor
  · rintro ⟨k, v, ⟨hi, hsp, rfl, rfl⟩ | ⟨hi, hsp, rfl, rfl⟩ | ⟨x, g, hi, hv, rfl, rfl⟩, hr⟩
    · exact .inl ⟨hi, hsp, hr⟩
    · exact .inr (.inl ⟨hi, hsp, hr⟩)
    · exact .inr (.inr ⟨x, g, hi, hv, hr⟩)
  · rintro (⟨hi, hsp, hr⟩ | ⟨hi, hsp, hr⟩ | ⟨x, g, hi, hv, hr⟩)
    · exact ⟨_, _, .inl ⟨hi, hsp, rfl, rfl⟩, hr⟩
    · exact ⟨_, _, .inr (.inl ⟨hi, hsp, rfl, rfl⟩), hr⟩
    · exact ⟨_, _, .inr (.inr ⟨x, g, hi, hv, rfl, rfl⟩), hr⟩

/-- Settles O12: a step sets the latch where it cannot fetch and where its instruction raises. -/
theorem faultCausesAreTheFour : Obligations.FaultCausesAreTheFour := by
  intro s r hf
  simp only [← raisedBy_record_iff]
  constructor
  · rintro ⟨t, h, ht⟩
    rcases step_next_cases h with ⟨hset, -⟩ | ⟨-, hop, rfl⟩ | ⟨-, op, k, v, hop, hr, rfl⟩ | ⟨-, op, u, -, -, hu, rfl⟩
    · exact absurd hf hset
    · exact .inl ⟨hop, Option.some.inj ht.symm⟩
    · exact .inr ⟨op, hop, k, v, hr, Option.some.inj ht.symm⟩
    · cases ht.symm.trans ((u.keeps_tick .fault (by simp)).trans hu)
  · rintro (⟨hop, rfl⟩ | ⟨op, hop, k, v, hr, rfl⟩)
    · exact ⟨_, step_of_no_fetch hf hop, rfl⟩
    · exact ⟨_, step_of_raisedBy hf hop hr, rfl⟩

/-! ## Refusals -/

/-- R202, R208: a step is refused at a refused word, and everywhere else it has a next state. -/
theorem step_refused_or_next (s : State) :
    (∃ op, (s.fault = none ∧ s.fetch = some op ∧ refusedWord op = true) ∧
      step s = .refused (.setIndexFormUnspecified op)) ∨
    ((∀ op, s.fault = none → s.fetch = some op → refusedWord op = false) ∧ ∃ t, step s = .next t) := by
  by_cases hf : s.fault = none
  swap
  · exact .inr ⟨fun _ hclear => absurd hclear hf, _, step_of_latched hf⟩
  cases hop : s.fetch with
  | none => exact .inr ⟨fun _ _ h => (Option.some_ne_none _ h.symm).elim, _, step_of_no_fetch hf hop⟩
  | some op =>
    by_cases hr : (decodeWith s.params op).refused
    · have hx := exec_of_refused hr s.beginStep
      rw [encode_decodeWith] at hx
      exact .inl ⟨op, ⟨hf, rfl, decodeWith_refused_iff.mp hr⟩, step_of_exec_refused hf hop hx⟩
    · obtain ⟨u, hx⟩ := exec_of_not_refused hr s.beginStep
      refine .inr ⟨fun op' _ h => ?_, _, step_of_exec_next hf hop hx⟩
      obtain rfl := Option.some.inj h
      exact Bool.eq_false_iff.mpr (mt decodeWith_refused_iff.mpr hr)

/-- Settles O13: the two ends of a step exclude each other. -/
theorem stepRefusesExactlyRefusedWords : Obligations.StepRefusesExactlyRefusedWords := by
  intro s
  rcases step_refused_or_next s with ⟨op, ⟨hf, hop, hword⟩, h⟩ | ⟨hnot, t, h⟩
  · refine ⟨fun r => ⟨fun hr => ⟨hf, op, hop, hword, ?_⟩, ?_⟩, ⟨?_, fun hall => ?_⟩⟩
    · injection hr.symm.trans h
    · rintro ⟨-, op', hop', -, rfl⟩
      rw [h, Option.some.inj (hop.symm.trans hop')]
    · rintro ⟨t, ht⟩
      cases h.symm.trans ht
    · cases hword.symm.trans (hall op hf hop)
  · refine ⟨fun r => ⟨fun hr => ?_, ?_⟩, iff_of_true ⟨t, h⟩ hnot⟩
    · cases h.symm.trans hr
    · rintro ⟨hf, op, hop, hword, -⟩
      cases hword.symm.trans (hnot op hf hop)

/-! ## Fetches -/

theorem State.memRead_mod (s : State) (a k : Nat) : s.memRead (a % memSize + k) = s.memRead (a + k) := by
  simp only [State.memRead, Nat.mod_add_mod]

/-- Settles O15: the first two stored registers, read at the address where the store began. -/
theorem storedBytesAreFetched : Obligations.StoredBytesAreFetched := by
  intro s t x hx haddr hstore u hmem hpc
  obtain ⟨t', hstore', hstored, -⟩ := storeWritesTheRange x s
  obtain rfl := exec_next_unique hstore' hstore
  have hread : ∀ k : Reg, k.toNat ≤ x.toNat → u.memRead (u.pc.toNat + k.toNat) = s.v k := by
    intro k hk
    rw [hpc, State.dataAddr, State.memRead_mod, Nat.add_zero, State.memRead_congr hmem, hstored k hk]
  rw [State.fetch_eq_some]
  refine ⟨hpc ▸ haddr, ?_⟩
  rw [← hread 0 (Nat.zero_le _), ← hread 1 hx]
  rfl

/-- The state that `placeWord` writes the word into: a clear latch and a pc that a fetch can use. -/
def State.readyToFetch (s : State) : State :=
  { s with fault := none, pc := if s.pc.toNat ≤ 0xFFE then s.pc else 0x200 }

theorem State.placeWord_eq (s : State) (op : Word) : s.placeWord op =
    (s.readyToFetch.memWrite s.readyToFetch.pc.toNat (highByteOf op)).memWrite (s.readyToFetch.pc.toNat + 1)
      (lowByte op) := rfl

theorem State.readyToFetch_pc_le (s : State) : s.readyToFetch.pc.toNat ≤ 0xFFE := by
  change (if s.pc.toNat ≤ 0xFFE then s.pc else 0x200).toNat ≤ 0xFFE
  split
  next h => exact h
  next => decide

theorem State.placeWord_pc (s : State) (op : Word) : (s.placeWord op).pc = s.readyToFetch.pc := rfl

theorem State.fetch_placeWord (s : State) (op : Word) : (s.placeWord op).fetch = some op := by
  have hpc := s.readyToFetch_pc_le
  rw [State.fetch_eq_some, State.placeWord_pc]
  refine ⟨hpc, ?_⟩
  have hapart : s.readyToFetch.pc.toNat % memSize ≠ (s.readyToFetch.pc.toNat + 1) % memSize := by
    unfold memSize
    omega
  simp only [State.placeWord_eq, State.memRead_memWrite, hapart, if_true, if_false, wordOfBytes_bytes]

theorem State.keeps_readyToFetch (s : State) : KeepsAllBut (fun p => p = .fault ∨ p = .pc) s s.readyToFetch := by
  intro p hp
  cases p
  case fault => exact absurd (.inl rfl) hp
  case pc => exact absurd (.inr rfl) hp
  all_goals exact rfl

theorem State.keeps_placeWord (s : State) (op : Word) :
    KeepsAllBut (fun p => p = .fault ∨ p = .pc ∨ p = .byte (s.placeWord op).pc.toNat ∨
      p = .byte ((s.placeWord op).pc.toNat + 1)) s (s.placeWord op) := by
  have hpc := s.readyToFetch_pc_le
  have hfirst : s.readyToFetch.pc.toNat % memSize = s.readyToFetch.pc.toNat :=
    Nat.mod_eq_of_lt (by unfold memSize; omega)
  have hsecond : (s.readyToFetch.pc.toNat + 1) % memSize = s.readyToFetch.pc.toNat + 1 :=
    Nat.mod_eq_of_lt (by unfold memSize; omega)
  rw [State.placeWord_pc, State.placeWord_eq]
  refine ((s.keeps_readyToFetch.mono fun _ hp => hp.imp_right .inl).trans
    ((State.keeps_memWrite _ _ _).mono fun _ hp => ?_)).trans ((State.keeps_memWrite _ _ _).mono fun _ hp => ?_)
  · exact .inr (.inr (.inl (hfirst ▸ hp)))
  · exact .inr (.inr (.inr (hsecond ▸ hp)))

/-- Settles O14: the word's two bytes, placed at a pc that a fetch can use. -/
theorem placedWordIsFetched : Obligations.PlacedWordIsFetched := by
  intro s w hw
  have hword : s.withFetchWord 16 w = s.placeWord (BitVec.ofNat 16 w) := by
    rw [State.withFetchWord, tableWord, Nat.mod_eq_of_lt (show w < 2 ^ 16 from hw)]
  rw [hword]
  exact ⟨rfl, s.fetch_placeWord _, fun hpc => if_pos hpc, s.keeps_placeWord _⟩

/-! ## The host's transactions -/

/-- Whether a transaction starts the machine again (R250, R251). -/
def Transaction.restarts (tr : Transaction) : Prop := tr = .init ∨ ∃ b, tr = .reset b

theorem State.keeps_setKey (s : State) (k : Int) : KeepsAllBut (fun p => ∃ j, p = .key j) s (s.setKey k) := by
  intro p hp
  unfold State.setKey
  split
  · cases p
    case key j => exact absurd ⟨j, rfl⟩ hp
    all_goals exact rfl
  · exact p.same_refl s

theorem State.keeps_setDebug (s : State) (b : Bool) : KeepsAllBut (fun p => p = .debug) s (s.setDebug b) := by
  intro p hp
  cases p
  case debug => exact absurd rfl hp
  all_goals exact rfl

/-- What a transaction that starts nothing again writes: keys, memory, the remembered ROM and the debug bit. -/
theorem State.keeps_transact {s : State} {tr : Transaction} (h : ¬ tr.restarts) :
    KeepsAllBut (fun p => (∃ j, p = .key j) ∨ (∃ a, p = .byte a) ∨ p = .rom ∨ p = .debug) s (s.transact tr) := by
  cases tr with
  | setKey k => exact (s.keeps_setKey k).mono fun _ => .inl
  | clearKeys => exact s.keeps_clearKeys.mono fun _ => .inl
  | load bytes readable =>
    rcases s.load_cases bytes readable with ⟨-, hload⟩ | ⟨-, -, hload⟩
    · rw [State.transact_load_of_error hload]
      exact .refl _ _
    · rw [State.transact_load_of_ok hload]
      refine (State.keeps_load hload).mono ?_
      rintro p (⟨k, -, hp⟩ | hp)
      · exact .inr (.inl ⟨_, hp⟩)
      · exact .inr (.inr (.inl hp))
  | setDebug b => exact (s.keeps_setDebug b).mono fun _ hp => .inr (.inr (.inr hp))
  | reset b => exact absurd (.inr ⟨b, rfl⟩) h
  | init => exact absurd (.inl rfl) h

/-- What a transaction that starts the machine again leaves, against an initialized state (R250, R251, R253). -/
theorem State.keeps_transact_restart {s : State} {tr : Transaction} (h : tr.restarts) :
    KeepsAllBut (fun p => (∃ a, p = .byte a) ∨ p = .rom ∨ p = .debug ∨ ∃ k, p = .rpl k) s.initialized
      (s.transact tr) := by
  obtain rfl | ⟨b, rfl⟩ := h
  · exact .refl _ _
  · exact (s.keeps_reinitialized.mono fun _ hp => .inr (.inr hp)).trans
      ((s.keeps_hostReset b).mono fun _ hp => hp.imp_right .inl)

/-- Settles O10: `step` tests the latch first, and of the transactions those that start the machine again write it. -/
theorem latchedMachineIsStuck : Obligations.LatchedMachineIsStuck := by
  intro s hf
  refine ⟨step_of_latched hf, rfl, if_pos (Option.isSome_iff_ne_none.mpr hf), fun tr => ?_⟩
  change (s.transact tr).fault = none ↔ tr.restarts
  by_cases htr : tr.restarts
  · exact iff_of_true (State.keeps_transact_restart htr .fault (by simp)) htr
  · have hkept : (s.transact tr).fault = s.fault := State.keeps_transact htr .fault (by simp)
    exact iff_of_false (by rwa [hkept]) htr

end Sys2Proof.Machine
end

section
/-! PROOFS. The invariants of the machine (10_state.md §3 to §6, 45_system.md §2): what every instruction keeps of
each, and the statements about steps. -/

namespace Sys2Proof.Machine

section
variable {i : Instr} {s t u : State}

/-! ## The data invariant -/

/-- Memory and framebuffer in canonical form (R33, R34). -/
def State.Canonical (s : State) : Prop := s.mem.wf ∧ s.fb.wf

/-- FX33 and FX55 write memory byte by byte, the graphics instructions move or toggle cells of the active region, and
no other instruction writes either. -/
theorem exec_keeps_canonical (hs : s.Canonical) (h : exec i s = .next t) : t.Canonical := by
  have ⟨hmem, hfb⟩ := hs
  cases i
  case ldBVx => cases h; exact ⟨State.wf_dataWrite (State.wf_dataWrite (State.wf_dataWrite hmem _ _) _ _) _ _, hfb⟩
  case ldMemVx =>
    cases h
    refine ⟨State.wf_storeRegs hmem _, ?_⟩
    rwa [State.advance_fb, State.storeRegs_eq]
  case cls => cases h; exact ⟨hmem, List.Pairwise.nil, by simp⟩
  case scd => cases h; exact ⟨hmem, Framebuffer.wf_scrollDown hfb s.region_le _⟩
  case scr => cases h; exact ⟨hmem, Framebuffer.wf_scrollRight hfb s.region_le _⟩
  case scl => cases h; exact ⟨hmem, Framebuffer.wf_scrollLeft hfb s.region_le _⟩
  case drw =>
    cases h
    exact ⟨hmem, Framebuffer.wf_toggleAll hfb fun k hk => lt_of_lt_of_le (s.spriteCells_lt hk) s.region_le⟩
  case unknown =>
    obtain ⟨n, rfl⟩ | rfl := exec_unknown_cases h
    · exact ⟨hmem, Framebuffer.wf_scrollUp hfb s.region_le _⟩
    · exact hs
  case ldVxMem => cases h; rw [State.loadRegs_eq]; exact hs
  case ldVxR => cases h; rw [State.restoreRpl_eq]; exact hs
  case ldRVx => cases h; rw [State.saveRpl_eq]; exact hs
  case call =>
    obtain ⟨u, hpush, rfl⟩ | ⟨-, rfl⟩ := exec_call_cases h
    · obtain ⟨-, rfl⟩ := State.push_eq_some.mp hpush
      exact hs
    · exact hs
  case ret =>
    obtain ⟨a, u, hpop, rfl⟩ | ⟨-, rfl⟩ := exec_ret_cases h
    · obtain ⟨-, -, rfl⟩ := State.pop_eq_some.mp hpop
      exact hs
    · exact hs
  case skp => obtain ⟨k, -, rfl⟩ | ⟨-, rfl⟩ := exec_skp_cases h <;> exact hs
  case sknp => obtain ⟨k, -, rfl⟩ | ⟨-, rfl⟩ := exec_sknp_cases h <;> exact hs
  case ldVxK => obtain ⟨-, rfl⟩ | ⟨j, -, rfl⟩ := exec_ldVxK_cases h <;> exact hs
  case unmodelledFx00 | unmodelledFxFn => cases h
  all_goals cases h; exact hs

theorem State.tick_canonical (hs : s.Canonical) : s.tick.Canonical := by
  rw [State.tick_eq]
  exact hs

/-- No instruction presses a key: EX9? and FX0A release keys, and no other one writes the latch (R31, R163, R165). -/
theorem exec_presses_no_key (h : exec i s = .next t) {k : Nibble} (hk : t.key k = true) : s.key k = true := by
  cases i
  case skp =>
    obtain ⟨j, -, rfl⟩ | ⟨-, rfl⟩ := exec_skp_cases h
    · rw [State.skipIf_key, State.key_releaseKey] at hk
      split at hk
      next => cases hk
      next => exact hk
    · exact hk
  case ldVxK =>
    obtain ⟨-, rfl⟩ | ⟨j, -, rfl⟩ := exec_ldVxK_cases h
    · exact hk
    · rw [State.key_takeKey] at hk
      cases hk
  all_goals exact (partWriters _ s t (.key k) h (by simp) (by simp) rfl).symm.trans hk

theorem State.atMostOneKey_of_fewer (hs : s.atMostOneKey) (h : ∀ k, t.key k = true → s.key k = true) :
    t.atMostOneKey :=
  fun j k hj hk => hs j k (h (BitVec.ofFin j) hj) (h (BitVec.ofFin k) hk)

theorem State.Inv.beginStep_raise (hs : s.Inv) (k : FaultKind) (op : Option Word) (v : Option Byte) :
    (s.beginStep.raise k op v).Inv :=
  ⟨hs.memory, hs.screen, hs.keys, fun _ => ⟨rfl, rfl⟩⟩

/-- Settles O17: a fault keeps the data and leaves the transients clear; an instruction that completes keeps the data
and leaves the latch clear. -/
theorem stepKeepsDataInvariant : Obligations.StepKeepsDataInvariant := by
  intro s t hs h
  rcases step_next_cases h with ⟨-, rfl⟩ | ⟨-, -, rfl⟩ | ⟨-, op, k, v, -, -, rfl⟩ | ⟨-, op, u, -, hx, hu, rfl⟩
  · exact hs
  · exact hs.beginStep_raise _ _ _
  · exact hs.beginStep_raise _ _ _
  · obtain ⟨hmem, hfb⟩ := State.tick_canonical (exec_keeps_canonical (s := s.beginStep) ⟨hs.memory, hs.screen⟩ hx)
    refine ⟨hmem, hfb, State.atMostOneKey_of_fewer hs.keys fun k hk => ?_, fun hlatch => ?_⟩
    · exact exec_presses_no_key hx ((u.keeps_tick (.key k) (by simp)).symm.trans hk)
    · have hclear : u.tick.fault = none := (u.keeps_tick .fault (by simp)).trans hu
      rw [hclear] at hlatch
      cases hlatch

/-! ## The range of pc -/

theorem State.advance_pc_le (h : s.pc.toNat ≤ 0xFFE) : s.advance.pc.toNat ≤ 0x10FE := by
  rw [State.advance_pc]
  bv_omega

theorem State.skipIf_pc_le (h : s.pc.toNat ≤ 0xFFE) (b : Bool) : (s.skipIf b).pc.toNat ≤ 0x10FE := by
  rw [State.skipIf_pc]
  split <;> bv_omega

theorem zext16_le (nnn : Addr) : (zext16 nnn).toNat ≤ 0x10FE := by
  have hn : nnn.toNat < 4096 := nnn.isLt
  rw [zext16_toNat]
  omega

theorem exec_pc_le (hs : ∀ k : Fin 16, s.stack[k].toNat ≤ 0xFFE) (hpc : s.pc.toNat ≤ 0xFFE)
    (h : exec i s = .next t) : t.pc.toNat ≤ 0x10FE := by
  have hstays : s.pc.toNat ≤ 0x10FE := by omega
  cases i
  case jp => cases h; exact zext16_le _
  case jpV0 nnn =>
    cases h
    have hn : nnn.toNat < 4096 := nnn.isLt
    have hv : (s.v 0).toNat < 256 := (s.v 0).isLt
    rw [State.setPc_pc, jpV0_target_toNat]
    omega
  case call =>
    obtain ⟨u, -, rfl⟩ | ⟨-, rfl⟩ := exec_call_cases h
    · exact zext16_le _
    · exact hstays
  case ret =>
    obtain ⟨a, u, hpop, rfl⟩ | ⟨-, rfl⟩ := exec_ret_cases h
    · obtain ⟨hsp, rfl, -⟩ := State.pop_eq_some.mp hpop
      have hentry := hs ⟨s.sp.val - 1, by omega⟩
      exact State.advance_pc_le (s := s.setPc _) hentry
    · exact hstays
  case seImm | sneImm | seReg | sneReg => cases h; exact State.skipIf_pc_le hpc _
  case skp =>
    obtain ⟨k, -, rfl⟩ | ⟨-, rfl⟩ := exec_skp_cases h
    · exact State.skipIf_pc_le (s := s.releaseKey k) hpc _
    · exact hstays
  case sknp =>
    obtain ⟨k, -, rfl⟩ | ⟨-, rfl⟩ := exec_sknp_cases h
    · exact State.skipIf_pc_le hpc _
    · exact hstays
  case ldVxK x =>
    obtain ⟨-, rfl⟩ | ⟨j, -, rfl⟩ := exec_ldVxK_cases h
    · exact hstays
    · exact State.advance_pc_le hpc
  case unknown => obtain ⟨n, rfl⟩ | rfl := exec_unknown_cases h <;> exact State.advance_pc_le hpc
  case ldMemVx => cases h; rw [State.storeRegs_eq]; exact State.advance_pc_le hpc
  case ldVxMem => cases h; rw [State.loadRegs_eq]; exact State.advance_pc_le hpc
  case ldRVx => cases h; rw [State.saveRpl_eq]; exact State.advance_pc_le hpc
  case ldVxR => cases h; rw [State.restoreRpl_eq]; exact State.advance_pc_le hpc
  case unmodelledFx00 | unmodelledFxFn => cases h
  all_goals cases h; exact State.advance_pc_le hpc

/-- The one return address that an instruction writes is the pc of a CALL (R27, R101). -/
theorem exec_stack_le (hs : ∀ k : Fin 16, s.stack[k].toNat ≤ 0xFFE) (hpc : s.pc.toNat ≤ 0xFFE)
    (h : exec i s = .next t) (k : Fin 16) : t.stack[k].toNat ≤ 0xFFE := by
  have hkept (hsame : t.stack[k] = s.stack[k]) : t.stack[k].toNat ≤ 0xFFE := hsame ▸ hs k
  cases i
  case call =>
    obtain ⟨u, hpush, rfl⟩ | ⟨-, rfl⟩ := exec_call_cases h
    · obtain ⟨hsp, rfl⟩ := State.push_eq_some.mp hpush
      change ((s.stack.set s.sp.val s.pc hsp)[k.val]).toNat ≤ 0xFFE
      rw [Vector.getElem_set]
      split
      next => exact hpc
      next => exact hs k
    · exact hs k
  all_goals exact hkept (partWriters _ s t (.stackEntry k) h (by simp) (by simp) rfl)

/-- Settles O18: a step that executes has fetched, so its pc is at most 0xFFE. -/
theorem stepKeepsPcInRange : Obligations.StepKeepsPcInRange := by
  intro s t hs h
  rcases step_next_cases h with ⟨-, rfl⟩ | ⟨-, -, rfl⟩ | ⟨-, op, k, v, -, -, rfl⟩ | ⟨-, op, u, hop, hx, -, rfl⟩
  · exact hs
  · exact ⟨hs.pc, hs.stack⟩
  · exact ⟨hs.pc, hs.stack⟩
  · obtain ⟨hpc, -⟩ := State.fetch_eq_some.mp hop
    have hticked : u.tick.pc = u.pc := u.keeps_tick .pc (by simp)
    refine ⟨hticked ▸ exec_pc_le (s := s.beginStep) hs.stack hpc hx, fun k => ?_⟩
    have hentry : u.tick.stack[k] = u.stack[k] := u.keeps_tick (.stackEntry k) (by simp)
    exact hentry ▸ exec_stack_le (s := s.beginStep) hs.stack hpc hx k

/-! ## Waiting for a key -/

theorem mayWritePart_awaitingKey (h : mayWritePart .awaitingKey i = true) : ∃ x, i = .ldVxK x := by
  cases i
  case ldVxK x => exact ⟨x, rfl⟩
  all_goals cases h

theorem State.fetch_tick (s : State) : s.tick.fetch = s.fetch := by
  rw [State.tick_eq]
  rfl

/-- An instruction after which awaiting-key is set is an FX0A, where before it awaiting-key is set only at one. -/
theorem exec_awaits (hs : s.awaitingKey = true → ∃ x, i = .ldVxK x) (h : exec i s = .next t)
    (ht : t.awaitingKey = true) : ∃ x, i = .ldVxK x := by
  by_cases hw : mayWritePart .awaitingKey i = true
  · exact mayWritePart_awaitingKey hw
  · have hkept : t.awaitingKey = s.awaitingKey :=
      partWriters i s t .awaitingKey h (by simp) (by simp) (Bool.eq_false_iff.mpr hw)
    exact hs (hkept ▸ ht)

/-- Settles O19: a step that leaves awaiting-key set executed an FX0A that found no key, which moves neither pc nor
memory. -/
theorem stepKeepsAwaitingAtFx0a : Obligations.StepKeepsAwaitingAtFx0a := by
  intro s t hs h ht
  rcases step_next_cases h with ⟨-, rfl⟩ | ⟨-, hop, rfl⟩ | ⟨-, op, k, v, hop, hr, rfl⟩ | ⟨-, op, u, hop, hx, -, rfl⟩
  · exact hs ht
  · obtain ⟨op, x, hop', -⟩ := hs ht
    cases hop.symm.trans hop'
  · obtain ⟨op', x, hop', hi⟩ := hs ht
    rw [← Option.some.inj (hop.symm.trans hop')] at hi
    rw [hi] at hr
    cases hr
  · have hu : u.awaitingKey = true := (u.keeps_tick .awaitingKey (by simp)).symm.trans ht
    have hbefore (hawaits : s.awaitingKey = true) : ∃ x, decodeWith s.params op = .ldVxK x := by
      obtain ⟨op', x, hop', hi⟩ := hs hawaits
      obtain rfl := Option.some.inj (hop.symm.trans hop')
      exact ⟨x, hi⟩
    obtain ⟨x, hi⟩ := exec_awaits (s := s.beginStep) hbefore hx hu
    rw [hi] at hx
    obtain ⟨-, rfl⟩ | ⟨j, -, rfl⟩ := exec_ldVxK_cases hx
    · have hparams : (s.beginStep.setAwaiting true).tick.params = s.params := State.keeps_tick _ .params (by simp)
      refine ⟨op, x, ?_, by rw [hparams, hi]⟩
      rw [State.fetch_tick]
      exact hop
    · cases hu

/-! ## The host's part of the state, and exit-requested -/

/-- A part that no instruction writes, and neither the cycle driver (R205, R223), is kept by every step. -/
theorem step_keeps_part {p : Part} (h : step s = .next t) (hv : ∀ x, p ≠ .v x) (hpc : p ≠ .pc)
    (hw : ∀ i, mayWritePart p i = false)
    (hcycle : ¬ (p = .fault ∨ p = .draw ∨ p = .beep ∨ p = .unknown ∨ p = .dt ∨ p = .st)) : p.same s t := by
  simp only [not_or] at hcycle
  obtain ⟨hfault, hdraw, hbeep, hunknown, hdt, hst⟩ := hcycle
  have hraise : ¬ (p = .fault ∨ p = .draw ∨ p = .beep ∨ p = .unknown) := by
    simp only [hfault, hdraw, hbeep, hunknown, or_self, not_false_iff]
  rcases step_next_cases h with ⟨-, rfl⟩ | ⟨-, -, rfl⟩ | ⟨-, op, k, v, -, -, rfl⟩ | ⟨-, op, u, -, hx, -, rfl⟩
  · exact p.same_refl _
  · exact s.keeps_beginStep_raise _ _ _ p hraise
  · exact s.keeps_beginStep_raise _ _ _ p hraise
  · have hbegin : p.same s s.beginStep := s.keeps_beginStep p fun hp => hraise (.inr hp)
    have hexec : p.same s.beginStep u := partWriters _ _ u p hx hv hpc (hw _)
    have htick : p.same u u.tick := u.keeps_tick p (by simp only [hdt, hst, hbeep, or_self, not_false_iff])
    exact Part.same_trans (Part.same_trans hbegin hexec) htick

/-- Settles O22: no instruction writes the three parts, and what a transaction writes does not name the parameters. -/
theorem stepsKeepHostState : Obligations.StepsKeepHostState := by
  intro s t
  refine ⟨fun h => ⟨?_, ?_, ?_⟩, fun tr => ?_⟩
  · exact step_keeps_part (p := .debug) h (by simp) (by simp) (fun i => by cases i <;> rfl) (by simp)
  · exact step_keeps_part (p := .rom) h (by simp) (by simp) (fun i => by cases i <;> rfl) (by simp)
  · exact step_keeps_part (p := .params) h (by simp) (by simp) (fun i => by cases i <;> rfl) (by simp)
  · by_cases htr : tr.restarts
    · exact (State.keeps_transact_restart htr .params (by simp)).trans s.initialized_params
    · exact State.keeps_transact htr .params (by simp)

@[simp] theorem State.beginStep_exitRequested (s : State) : s.beginStep.exitRequested = s.exitRequested := rfl

theorem exec_exitRequested_iff (h : exec i s = .next t) :
    t.exitRequested = true ↔ s.exitRequested = true ∨ ∃ g, i = .exit g := by
  cases i
  case exit g => cases h; exact iff_of_true rfl (.inr ⟨g, rfl⟩)
  all_goals
    rw [show t.exitRequested = s.exitRequested from partWriters _ s t .exitRequested h (by simp) (by simp) rfl]
    simp

/-- Settles O23: a step sets the bit where it executes EXIT, and of the transactions those that start the machine
again clear it. -/
theorem exitRequestedIsSticky : Obligations.ExitRequestedIsSticky := by
  refine ⟨fun s t h => ?_, fun s tr hs => ?_⟩
  · rcases step_next_cases h with ⟨hf, rfl⟩ | ⟨-, hop, rfl⟩ | ⟨-, op, k, v, hop, hr, rfl⟩ | ⟨hf, op, u, hop, hx, -, rfl⟩
    · simp [hf]
    · simp [hop]
    · have hnot : ∀ g, decodeWith s.params op ≠ .exit g := fun g hi => by rw [hi] at hr; cases hr
      simp [hop, hnot]
    · rw [show u.tick.exitRequested = u.exitRequested from u.keeps_tick .exitRequested (by simp),
        exec_exitRequested_iff hx]
      simp [hf, hop]
  · change (s.transact tr).exitRequested = false ↔ tr.restarts
    by_cases htr : tr.restarts
    · exact iff_of_true (State.keeps_transact_restart htr .exitRequested (by simp)) htr
    · have hkept : (s.transact tr).exitRequested = s.exitRequested :=
        State.keeps_transact htr .exitRequested (by simp)
      exact iff_of_false (by rw [hkept, hs]; exact Bool.false_ne_true.symm) htr

end

end Sys2Proof.Machine
end

section
/-! PROOFS. The debug bit and the remembered ROM influence no step (10_state.md §6): the shared operations, then every
instruction and the step, commute with replacing the two. -/

namespace Sys2Proof.Machine

/-- The state with another debug bit and another remembered ROM. -/
def State.withHost (s : State) (b : Bool) (rom : Option (List Byte)) : State := { s with debug := b, rom := rom }

/-- An outcome with its next state changed, if it has one. -/
def mapNext (f : State → State) (o : Host.Outcome State Fault Refusal) : Host.Outcome State Fault Refusal :=
  match o with
  | .next t => .next (f t)
  | .fault r => .fault r
  | .refused r => .refused r

section
variable (s : State) (b : Bool) (rom : Option (List Byte))

/-! ## The shared operations -/

/-- A fold of an operation that commutes with replacing the two commutes with it. -/
theorem State.withHost_foldl {f : State → Nat → State}
    (hf : ∀ (u : State) (k : Nat), f (u.withHost b rom) k = (f u k).withHost b rom) (ks : List Nat) :
    ks.foldl f (s.withHost b rom) = (ks.foldl f s).withHost b rom := by
  induction ks generalizing s with
  | nil => rfl
  | cons k ks ih => rw [List.foldl_cons, List.foldl_cons, hf, ih]

theorem State.withHost_storeRegs (ks : List Nat) :
    (s.withHost b rom).storeRegs ks = (s.storeRegs ks).withHost b rom := s.withHost_foldl b rom (fun _ _ => rfl) ks

theorem State.withHost_loadRegs (ks : List Nat) :
    (s.withHost b rom).loadRegs ks = (s.loadRegs ks).withHost b rom := s.withHost_foldl b rom (fun _ _ => rfl) ks

theorem State.withHost_saveRpl (ks : List Nat) :
    (s.withHost b rom).saveRpl ks = (s.saveRpl ks).withHost b rom := s.withHost_foldl b rom (fun _ _ => rfl) ks

theorem State.withHost_restoreRpl (ks : List Nat) :
    (s.withHost b rom).restoreRpl ks = (s.restoreRpl ks).withHost b rom := s.withHost_foldl b rom (fun _ _ => rfl) ks

theorem State.withHost_operandState (u : State) :
    (s.withHost b rom).operandState (u.withHost b rom) = (s.operandState u).withHost b rom := by
  cases horder : s.params.vfOrder <;> simp [State.operandState, State.withHost, horder]

theorem State.withHost_flagThenV (x : Reg) (flag : Byte) {f : State → Byte}
    (hf : ∀ u : State, f (u.withHost b rom) = f u) :
    (s.withHost b rom).flagThenV x flag f = (s.flagThenV x flag f).withHost b rom := by
  have hoperands := s.withHost_operandState b rom (s.setV vf flag)
  exact congrArg (fun w => ((s.setV vf flag).withHost b rom).setV x w) ((congrArg f hoperands).trans (hf _))

theorem State.withHost_flagThenI (flag : Byte) {f : State → Word} (hf : ∀ u : State, f (u.withHost b rom) = f u) :
    (s.withHost b rom).flagThenI flag f = (s.flagThenI flag f).withHost b rom := by
  have hoperands := s.withHost_operandState b rom (s.setV vf flag)
  exact congrArg (fun w => ((s.setV vf flag).withHost b rom).setI w) ((congrArg f hoperands).trans (hf _))

theorem State.withHost_endStep : (s.withHost b rom).endStep = (s.endStep).withHost b rom := by
  by_cases hf : s.fault = none
  · rw [endStep_of_clear hf, endStep_of_clear (s := s.withHost b rom) hf, State.tick_eq, State.tick_eq]
    rfl
  · rw [endStep_of_latched hf, endStep_of_latched (s := s.withHost b rom) hf]

/-! ## Every instruction -/

theorem mapNext_next {s t u : State} {f : State → State} {i j : Instr} (hs : exec i s = .next t)
    (hu : exec j u = .next (f t)) : exec j u = mapNext f (exec i s) := by
  rw [hs, hu]
  rfl

theorem advance_withHost {s u w : State} {b : Bool} {rom : Option (List Byte)} {i : Instr}
    (hs : exec i s = .next u.advance) (hw : exec i (s.withHost b rom) = .next w.advance) (h : w = u.withHost b rom) :
    exec i (s.withHost b rom) = mapNext (·.withHost b rom) (exec i s) := by
  subst h
  exact mapNext_next hs hw

/-- An instruction reads and writes neither of the two. -/
theorem exec_withHost (i : Instr) : exec i (s.withHost b rom) = mapNext (·.withHost b rom) (exec i s) := by
  cases i
  case addReg | subReg | shr | subn | shl =>
    exact advance_withHost rfl rfl (s.withHost_flagThenV b rom _ _ fun _ => rfl)
  case addIVx => exact advance_withHost rfl rfl (s.withHost_flagThenI b rom _ fun _ => rfl)
  case ldMemVx => exact advance_withHost rfl rfl (s.withHost_storeRegs b rom _)
  case ldVxMem => exact advance_withHost rfl rfl (s.withHost_loadRegs b rom _)
  case ldRVx => exact advance_withHost rfl rfl (s.withHost_saveRpl b rom _)
  case ldVxR => exact advance_withHost rfl rfl (s.withHost_restoreRpl b rom _)
  case call nnn =>
    by_cases hsp : s.sp.val < 16
    · exact mapNext_next (exec_call_of_push nnn (State.push_eq_some.mpr ⟨hsp, rfl⟩))
        (exec_call_of_push nnn (State.push_eq_some (s := s.withHost b rom).mpr ⟨hsp, rfl⟩))
    · have hfull : s.sp = 16 := Fin.ext (by have := s.sp.isLt; change _ = 16; omega)
      exact mapNext_next (exec_call_of_full nnn (State.push_eq_none.mpr hfull))
        (exec_call_of_full nnn (State.push_eq_none.mpr hfull))
  case ret g =>
    by_cases hsp : 0 < s.sp.val
    · exact mapNext_next (exec_ret_of_pop g (State.pop_eq_some.mpr ⟨hsp, rfl, rfl⟩))
        (exec_ret_of_pop g (State.pop_eq_some (s := s.withHost b rom).mpr ⟨hsp, rfl, rfl⟩))
    · have hempty : s.sp = 0 := Fin.ext (Nat.eq_zero_of_not_pos hsp)
      exact mapNext_next (exec_ret_of_empty g (State.pop_eq_none.mpr hempty))
        (exec_ret_of_empty g (State.pop_eq_none.mpr hempty))
  case skp x g =>
    cases hkey : keyIndex (s.v x) with
    | some k => exact mapNext_next (exec_skp_of_key g hkey) (exec_skp_of_key g hkey)
    | none => exact mapNext_next (exec_skp_of_no_key g hkey) (exec_skp_of_no_key g hkey)
  case sknp x g =>
    cases hkey : keyIndex (s.v x) with
    | some k => exact mapNext_next (exec_sknp_of_key g hkey) (exec_sknp_of_key g hkey)
    | none => exact mapNext_next (exec_sknp_of_no_key g hkey) (exec_sknp_of_no_key g hkey)
  case ldVxK x =>
    cases hfirst : s.firstKey with
    | none => exact mapNext_next (exec_ldVxK_waiting x hfirst) (exec_ldVxK_waiting x hfirst)
    | some j => exact mapNext_next (exec_ldVxK_taking x hfirst) (exec_ldVxK_taking x hfirst)
  case unknown op =>
    cases hrows : scrollUpRows s.params op with
    | some n => exact mapNext_next (exec_unknown_scrolling hrows) (exec_unknown_scrolling hrows)
    | none => exact mapNext_next (exec_unknown_reporting hrows) (exec_unknown_reporting hrows)
  all_goals rfl

/-! ## The step -/

theorem step_withHost : step (s.withHost b rom) = mapNext (·.withHost b rom) (step s) := by
  by_cases hf : s.fault = none
  swap
  · rw [step_of_latched hf, step_of_latched (s := s.withHost b rom) hf]
    rfl
  cases hop : s.fetch with
  | none =>
    rw [step_of_no_fetch hf hop, step_of_no_fetch (s := s.withHost b rom) hf hop]
    rfl
  | some op =>
    have hexec := exec_withHost s.beginStep b rom (decodeWith s.params op)
    cases hx : exec (decodeWith s.params op) s.beginStep with
    | next u =>
      rw [hx] at hexec
      rw [step_of_exec_next hf hop hx, step_of_exec_next (s := s.withHost b rom) hf hop hexec,
        State.withHost_endStep]
      rfl
    | refused r =>
      rw [hx] at hexec
      rw [step_of_exec_refused hf hop hx, step_of_exec_refused (s := s.withHost b rom) hf hop hexec]
      rfl
    | fault r => cases r

end

/-- Settles O21: the statement writes out `withHost` and `mapNext`. -/
theorem debugAndRomAreInert : Obligations.DebugAndRomAreInert := by
  intro s b rom
  refine (step_withHost s b rom).trans ?_
  cases step s <;> rfl

end Sys2Proof.Machine
end

section
/-! PROOFS. The host's transactions (10_state.md §7 and §8, 60_exceptions.md §5, 70_reset_and_hazards.md §1): the key
latch, what an initialization leaves, and the invariants over both. -/

namespace Sys2Proof.Machine

/-! ## The key latch -/

theorem State.setKey_of_outside {s : State} {k : Int} (h : k < 0 ∨ 15 < k) : s.setKey k = s := if_neg (by omega)

/-- R232: the sole pressed key. -/
theorem State.key_setKey (s : State) (i j : Nibble) : (s.setKey j.toNat).key i = true ↔ i = j := by
  have hj : j.toNat < 16 := j.isLt
  have hi : i.toNat < 16 := i.isLt
  rw [State.setKey, if_pos (by omega), ← BitVec.toNat_inj]
  simp [State.key, Vector.getElem_setIfInBounds, eq_comm]

/-- Settles O60: each transaction writes its own part alone. -/
theorem keyTransactions : Obligations.KeyTransactions := by
  intro s k b
  refine ⟨fun j hj => ?_, State.setKey_of_outside, s.key_clearKeys, s.keeps_clearKeys, rfl, s.keeps_setDebug b⟩
  subst hj
  exact ⟨fun i => s.key_setKey i j, s.keeps_setKey _⟩

/-! ## Memory after an initialization -/

section
variable {p : Params} {k a : Nat}

theorem initialByte_fontBig (hk : k < 160) : initialByte p (p.fontBigBase + k) = p.fontBig.getD k 0 := by
  rw [initialByte, if_pos (by omega), Nat.add_sub_cancel_left]

theorem initialByte_fontSmall (hp : paramsWf p) (hk : k < 80) :
    initialByte p (p.fontSmallBase + k) = p.fontSmall.getD k 0 := by
  obtain ⟨-, -, -, -, hapart⟩ := hp
  rw [initialByte, if_neg (by omega), if_pos (by omega), Nat.add_sub_cancel_left]

theorem initialByte_elsewhere (hsmall : a < p.fontSmallBase ∨ p.fontSmallBase + 80 ≤ a)
    (hbig : a < p.fontBigBase ∨ p.fontBigBase + 160 ≤ a) : initialByte p a = 0 := by
  rw [initialByte, if_neg (by omega), if_neg (by omega)]

end

/-- Settles O57: what memory reads is the machine's two tables, and every other piece is the one of the reset state. -/
theorem initializeSetsEveryValue : Obligations.InitializeSetsEveryValue := by
  intro s hp
  have hmem : ∀ {a b}, a < 4096 → initialByte s.params a = b → (s.transact .init).memRead a = b :=
    fun ha hb => (s.memRead_initialized ha).trans hb
  have ⟨_, _, hsmall, hbig, _⟩ := hp
  refine ⟨fun x => ?_, rfl, rfl, rfl, fun k => ?_, rfl, rfl, fun k => ?_, fun k => ?_, Framebuffer.cell_nil, rfl, rfl,
    rfl, rfl, rfl, rfl, rfl, rfl, fun k hk => hmem (by omega) (initialByte_fontSmall hp hk),
    fun k hk => hmem (by omega) (initialByte_fontBig hk),
    fun a ha hs hb => hmem ha (initialByte_elsewhere hs hb), State.initialized_reset⟩
  · exact Vector.getElem_replicate x.isLt
  · exact Vector.getElem_replicate k.isLt
  · exact Vector.getElem_replicate k.isLt
  · exact Vector.getElem_replicate k.isLt

/-! ## The data invariant -/

section
variable {s t : State}

theorem State.atMostOneKey_of_none (h : ∀ k, s.key k = false) : s.atMostOneKey := fun j _ hj _ => by
  cases hj.symm.trans (h (BitVec.ofFin j))

theorem State.atMostOneKey_of_sole {j : Nibble} (h : ∀ i, s.key i = true → i = j) : s.atMostOneKey :=
  fun a b ha hb => by
    have hab : (BitVec.ofFin a : Nibble) = BitVec.ofFin b := (h _ ha).trans (h _ hb).symm
    exact congrArg BitVec.toFin hab

theorem State.inv_initialized (s : State) : s.initialized.Inv :=
  ⟨s.wf_initialized, ⟨List.Pairwise.nil, by simp [State.reset]⟩,
    State.atMostOneKey_of_none fun k => Vector.getElem_replicate k.isLt, fun h => by cases h⟩

theorem State.inv_reinitialized (s : State) : s.reinitialized.Inv := by
  obtain ⟨hmem, hfb, hkeys, hlatch⟩ := s.inv_initialized
  refine ⟨?_, hfb, hkeys, hlatch⟩
  rw [State.reinitialized_mem]
  exact hmem

theorem State.Inv.writeBytes (hs : s.Inv) (a : Nat) (bytes : List Byte) : (s.writeBytes a bytes).Inv := by
  rw [State.writeBytes_eq]
  exact ⟨State.wf_writeBytes hs.memory a bytes, hs.screen, hs.keys, hs.latch⟩

theorem State.Inv.load {bytes : List Byte} {readable : Bool} (hs : s.Inv) (h : s.load bytes readable = .ok t) :
    t.Inv := by
  obtain ⟨-, rfl⟩ := State.load_eq_ok.mp h
  obtain ⟨hmem, hfb, hkeys, hlatch⟩ := hs.writeBytes progBase bytes
  exact ⟨hmem, hfb, hkeys, hlatch⟩

theorem State.Inv.setKey (hs : s.Inv) (k : Int) : (s.setKey k).Inv := by
  by_cases hk : 0 ≤ k ∧ k ≤ 15
  · obtain ⟨j, rfl⟩ : ∃ j : Nibble, k = j.toNat := ⟨BitVec.ofNat 4 k.toNat, by simp; omega⟩
    have hsole := State.atMostOneKey_of_sole fun i => (s.key_setKey i j).mp
    rw [State.setKey, if_pos hk] at hsole ⊢
    exact ⟨hs.memory, hs.screen, hsole, hs.latch⟩
  · rwa [State.setKey_of_outside (by omega)]

end

/-- Settles O20: the transactions that write memory write bytes of it or all of it, and those that write keys leave
one or none pressed. -/
theorem transactionsKeepDataInvariant : Obligations.TransactionsKeepDataInvariant := by
  intro s tr hs
  cases tr with
  | setKey k => exact hs.setKey k
  | clearKeys => exact ⟨hs.memory, hs.screen, State.atMostOneKey_of_none s.key_clearKeys, hs.latch⟩
  | load bytes readable =>
    rcases s.load_cases bytes readable with ⟨-, hload⟩ | ⟨-, -, hload⟩
    · rwa [State.transact_load_of_error hload]
    · rw [State.transact_load_of_ok hload]
      exact hs.load hload
  | reset readable =>
    change (s.hostReset readable).1.Inv
    rcases s.hostReset_cases readable with ⟨-, hreset⟩ | ⟨_, -, -, hreset⟩ | ⟨_, _, -, hload, hreset⟩ <;> rw [hreset]
    · exact s.inv_reinitialized
    · exact s.inv_reinitialized
    · exact s.inv_reinitialized.load hload
  | init => exact s.inv_initialized
  | setDebug b => exact ⟨hs.memory, hs.screen, hs.keys, hs.latch⟩

/-- Settles O16: the reset state is an initialized one, with pc at 0x200 and an unused stack. -/
theorem invariantsHoldAtReset : Obligations.InvariantsHoldAtReset := by
  refine ⟨State.initialized_reset ▸ State.reset.inv_initialized, ⟨by decide, fun k => ?_⟩, fun h => by cases h⟩
  rw [show State.reset.stack[k] = 0 from Vector.getElem_replicate k.isLt]
  decide

end Sys2Proof.Machine
end
